-- ==== Sys2Proof/Word.lean ====
section
/-! DEFINITION. The widths of the block's values (00_scope.md R6, R7). -/

namespace Sys2Proof

/-- A wire byte, a decoded byte or a byte of the frame buffer (R6). -/
abbrev Byte := BitVec 8

/-- A 16-bit value: CRC, IDX, FLEN, a command identifier, an immediate operand (R6, R7). -/
abbrev Half := BitVec 16

/-- A 32-bit value: a command word, RESULT, STATUS, the packet value (R6, R7). -/
abbrev Word := BitVec 32

end Sys2Proof
end

