-- ==== Sys2Proof/Syntax.lean ====
section
/-! DEFINITION. The operations of the command port, one constructor for each row of spec/opcode_table.json
(30_encoding.md R78). -/

namespace Sys2Proof

/-- The 16 operations. Class Z takes no operand, class B a byte, class H a 16-bit value (R77). -/
inductive Instr where
  /-- NOP, no operation (R204). -/
  | nop
  /-- CRC_CLR, clear the accumulator (R121). -/
  | crcClr
  /-- CRC_ADD b, fold one byte into the accumulator (R122). -/
  | crcAdd (b : Byte)
  /-- ENC b, SLIP-encode one byte to the transport, CRC untouched (R101). -/
  | enc (b : Byte)
  /-- TX_END, write one bare frame boundary (R102). -/
  | txEnd
  /-- TX_BEGIN, start an outbound frame (R130). -/
  | txBegin
  /-- TX_BYTE b, send one body byte (R131). -/
  | txByte (b : Byte)
  /-- TX_PAD n, send the padding that follows a parameter of n bytes (R132). -/
  | txPad (n : Half)
  /-- TX_FINAL, send the checksum and close the frame (R133). -/
  | txFinal
  /-- RX_STEP, take at most one wire byte (R160). -/
  | rxStep
  /-- TRY_RECV, the non-blocking receive (R161). -/
  | tryRecv
  /-- RECV n, the iteration-bounded receive (R162). -/
  | recv (n : Half)
  /-- RX_FLUSH, discard available bytes and the partial frame (R164). -/
  | rxFlush
  /-- SYNC, run the synchronisation procedure (R182). -/
  | sync
  /-- RDREG n, read a register (R201). -/
  | rdreg (n : Half)
  /-- RDBUF n, read one byte of the packet view (R202). -/
  | rdbuf (n : Half)
deriving DecidableEq, Repr

end Sys2Proof
end

