-- ==== Sys2Proof/WellFormed.lean ====
section
/-! DEFINITION. Which terms of `Instr` are operations of the block (30_encoding.md R77, R81). -/

namespace Sys2Proof

/-- RDREG names a register of R81, 0 to 11; every other operand of an operation is bounded by its type (R77). -/
def Instr.wellFormed : Instr → Bool
  | .rdreg n => decide (n.toNat ≤ 11)
  | .nop | .crcClr | .txEnd | .txBegin | .txFinal | .rxStep | .tryRecv | .rxFlush | .sync => true
  | .crcAdd _ | .enc _ | .txByte _ => true
  | .txPad _ | .recv _ | .rdbuf _ => true

/-- The term is an operation of the block. -/
abbrev Instr.WellFormed (i : Instr) : Prop := i.wellFormed = true

end Sys2Proof
end

