-- ==== Sys2Proof/Decode.lean ====
section
/-! DEFINITION. Command words (30_encoding.md R76 to R82): the decoder, total on all 32-bit words and rejecting by
name, and the encoder. -/

namespace Sys2Proof

/-- Why a command word is illegal (R79). -/
inductive BadWord where
  /-- OPC is 0x10 or above. -/
  | opcode
  /-- RSV is not 0x00. -/
  | reservedField
  /-- The operation takes no operand and IMM is not 0x0000. -/
  | operandNotZero
  /-- The operation takes a byte and IMM[15:8] is not 0x00. -/
  | operandNotByte
  /-- RDREG of a register number above 11. -/
  | registerNumber
deriving DecidableEq, Repr

/-- OPC, bits [31:24] of a command word (R76). -/
def opcField (w : Word) : Byte := w.extractLsb' 24 8

/-- RSV, bits [23:16] of a command word (R76). -/
def rsvField (w : Word) : Byte := w.extractLsb' 16 8

/-- IMM, bits [15:0] of a command word (R76). -/
def immField (w : Word) : Half := w.extractLsb' 0 16

/-- An operation of class Z: IMM must be zero (R77). -/
def decodeZ (imm : Half) (i : Instr) : Except BadWord Instr :=
  if imm = 0 then .ok i else .error .operandNotZero

/-- An operation of class B: IMM[15:8] must be zero, the operand is IMM[7:0] (R77). -/
def decodeB (imm : Half) (i : Byte → Instr) : Except BadWord Instr :=
  if imm.extractLsb' 8 8 = 0 then .ok (i (imm.extractLsb' 0 8)) else .error .operandNotByte

/-- RDREG, of class H, accepts only 0 to 11 (R77, R81). -/
def decodeRegister (imm : Half) : Except BadWord Instr :=
  if imm.toNat ≤ 11 then .ok (.rdreg imm) else .error .registerNumber

/-- The operation of the opcode map with code `opc` and immediate `imm` (R78). -/
def decodeOperation (opc : Byte) (imm : Half) : Except BadWord Instr :=
  match opc.toNat with
  | 0x00 => decodeZ imm .nop
  | 0x01 => decodeZ imm .crcClr
  | 0x02 => decodeB imm .crcAdd
  | 0x03 => decodeB imm .enc
  | 0x04 => decodeZ imm .txEnd
  | 0x05 => decodeZ imm .txBegin
  | 0x06 => decodeB imm .txByte
  | 0x07 => .ok (.txPad imm)
  | 0x08 => decodeZ imm .txFinal
  | 0x09 => decodeZ imm .rxStep
  | 0x0A => decodeZ imm .tryRecv
  | 0x0B => .ok (.recv imm)
  | 0x0C => decodeZ imm .rxFlush
  | 0x0D => decodeZ imm .sync
  | 0x0E => decodeRegister imm
  | 0x0F => .ok (.rdbuf imm)
  | _ => .error .opcode

/-- The decoder: every 32-bit word is one row of R78 or illegal for a named reason (R79). -/
def decode (w : Word) : Except BadWord Instr :=
  if rsvField w = 0 then decodeOperation (opcField w) (immField w) else .error .reservedField

/-- OPC of an operation (R78). -/
def opcodeOf : Instr → Byte
  | .nop => 0x00
  | .crcClr => 0x01
  | .crcAdd _ => 0x02
  | .enc _ => 0x03
  | .txEnd => 0x04
  | .txBegin => 0x05
  | .txByte _ => 0x06
  | .txPad _ => 0x07
  | .txFinal => 0x08
  | .rxStep => 0x09
  | .tryRecv => 0x0A
  | .recv _ => 0x0B
  | .rxFlush => 0x0C
  | .sync => 0x0D
  | .rdreg _ => 0x0E
  | .rdbuf _ => 0x0F

/-- IMM of an operation: the zero-extended operand, or zero where there is none (R77). -/
def operandOf : Instr → Half
  | .crcAdd b | .enc b | .txByte b => b.setWidth 16
  | .txPad n | .recv n | .rdreg n | .rdbuf n => n
  | .nop | .crcClr | .txEnd | .txBegin | .txFinal | .rxStep | .tryRecv | .rxFlush | .sync => 0

/-- The encoder: OPC, then RSV = 0x00, then IMM, from the most significant bit down (R76). -/
def encode (i : Instr) : Word := opcodeOf i ++ (0 : Byte) ++ operandOf i

/-- The operation the decoder reads from the `nbits` bits `w` of a table row, the bits above them zero. A command
word is one 32-bit word (R82), so its bits are the table's bits (log 12). -/
def decodeTableWord (nbits w : Nat) : Option Instr :=
  (decode (BitVec.ofNat 32 (w % 2 ^ nbits))).toOption

end Sys2Proof
end

