-- ==== Sys2Proof/Config.lean ====
section
/-! DEFINITION. The implementation parameters of 00_scope.md R5 and the free values the spec leaves open. -/

namespace Sys2Proof

/-- The parameters R5 calls OPEN: fixed for the life of the block, written by no operation (R8). -/
structure Config where
  /-- FRAME_CAP, the capacity of the frame buffer in bytes; legal from 8 to 65535. -/
  frameCap : Half
  /-- SYNC_CMD, the reserved SYNC command identifier. -/
  syncCmd : Half
  /-- VERSION_CMD, the version response command identifier. -/
  versionCmd : Half
  /-- SYNC_REQ_VALUE, the value field of the SYNC request the block sends. -/
  syncReqValue : Word
  /-- SYNC_RX_TIMEOUT, the iteration budget of each receive of the sync wait. -/
  syncRxTimeout : Half
deriving DecidableEq, Repr

/-- FRAME_CAP as a count of bytes. -/
def Config.cap (c : Config) : Nat := c.frameCap.toNat

/-- R5's legal range of FRAME_CAP; its upper end 65535 is the width of the field. -/
abbrev Config.legal (c : Config) : Prop := 8 ≤ c.cap

/-- The value FRAME_CAP is taken from. FREE VALUE (log 1, log 2): the source gives no number (D5). -/
opaque Config.openFrameCap : Half

/-- FREE VALUE (log 1): the source gives SYNC_CMD no value (D6). -/
opaque Config.openSyncCmd : Half

/-- FREE VALUE (log 1): the source gives VERSION_CMD no value (D7). -/
opaque Config.openVersionCmd : Half

/-- FREE VALUE (log 1): the source gives SYNC_REQ_VALUE no value (D8). -/
opaque Config.openSyncReqValue : Word

/-- FREE VALUE (log 1): the source gives SYNC_RX_TIMEOUT no value (D9). -/
opaque Config.openSyncRxTimeout : Half

/-- The parameters of the block that `State.reset` is the reset of. Nothing constrains them but the legal range
of FRAME_CAP: a draw below 8 is taken as 8, so every legal value stays possible and no other is (log 2). -/
def Config.chip : Config where
  frameCap := if 8 ≤ Config.openFrameCap.toNat then Config.openFrameCap else 8
  syncCmd := Config.openSyncCmd
  versionCmd := Config.openVersionCmd
  syncReqValue := Config.openSyncReqValue
  syncRxTimeout := Config.openSyncRxTimeout

/-- What the transport answers, after the n-th reset, to the k-th poll that no list determines: no byte, or any byte.
FREE VALUE (R57, I7; log 5). -/
opaque Config.rxOracle : Nat → Nat → Option Byte

/-- For how many polls, after the n-th reset and from the k-th unlisted one on, a loop goes on at most before a peer
whose answers are not listed leaves a gap. FREE VALUE (R57, R256; log 4). -/
opaque Config.rxHorizon : Nat → Nat → Nat

/-- The k-th unlisted byte, after the n-th reset, of a peer whose bytes do not end. FREE VALUE (I13; log 5). -/
opaque Config.endlessByte : Nat → Nat → Byte

/-- What follows the listed answers of a peer: silence, free answers that let the loops of R256 end, or bytes without
end. -/
inductive PeerKind where
  | silent | free | endless
deriving DecidableEq, Repr, Inhabited

/-- The answers a peer gives next after the reset that ended an operation, the n-th reset.
FREE VALUE (R57, R250; log 13). -/
opaque Config.answersAfterStuck : Nat → List (Option Byte)

/-- What follows those answers. FREE VALUE (R57, R256; log 13). -/
opaque Config.kindAfterStuck : Nat → PeerKind

/-- Whether the j-th of the command words that were held while an operation never completed is still held after the
reset that ended it, the n-th reset. FREE VALUE (R250 and R257 do not say; log 18). -/
opaque Config.heldWordKept : Nat → Nat → Bool

/-- The byte that `BUF[i]` holds after the n-th reset until it is written. FREE VALUE (R24, I11; log 8). -/
opaque Config.unwritten : Nat → Nat → Byte

end Sys2Proof
end

