-- ==== Sys2Proof/Machine/State.lean ====
section
/-! DEFINITION. The state of the block and of its environment (10_state.md), as plain data, and reset. -/

namespace Sys2Proof.Machine

/-- Why the machine stops without a next state. Neither is a value the block reports: the block itself never traps
(R220). -/
inductive Fault where
  /-- STUCK. Raised by TRY_RECV, RECV, RX_FLUSH, SYNC and by a SYNC procedure that RX_STEP intercepts, where one of the
  three loops of R256 uses up the listed answers of an endless peer: it never completes (R256, I13; log 4). Safe: an
  operation that completes does so in every state that lists the answers it needs. -/
  | peerNotDone
  /-- Raised by a read of the frame buffer at or past FRAME_CAP, an index that does not exist (R50, R55; log 9).
  Safe: no state that meets the invariant of R37 raises it. -/
  | noSuchBufferByte
deriving DecidableEq, Repr

/-- Why an instruction has no meaning. -/
inductive Refusal where
  /-- Raised by an arm of `exec` whose instruction has no meaning yet; no arm raises it. Safe. -/
  | notModelled (mnemonic : String)
deriving DecidableEq, Repr

/-- The bytes of the frame buffer written since reset, by strictly rising index; an index not listed has not been
written since reset and its byte is unspecified (R24; log 8). -/
abbrev Memory := List Host.Cell

/-- The canonical form of a memory: the indices rise strictly. -/
abbrev Memory.wf (m : Memory) : Prop := m.Pairwise fun c d => c.1 < d.1

/-- What the transport answers once the answers listed in the state are used up (log 3). -/
inductive Tail where
  /-- The peer has fallen silent: every later poll answers `none`. -/
  | silent
  /-- Any answers, the next poll's being the free value `Config.rxOracle` at the count of resets and k, that let every
  loop of R256 end: after a free number of polls of a loop there is a gap (R57; log 4, log 5). -/
  | unlisted (k : Nat)
  /-- The endless peer of I13: a loop of R256 that uses up the listed answers never completes; a single poll takes the
  free byte `Config.endlessByte` at the count of resets and k (log 4, log 5). -/
  | endless (k : Nat)
deriving DecidableEq, Repr

/-- The peer behind the transport's receive side (R36, R57): the answers to the coming polls, the next first, where
`none` says that no byte is available and `some b` that byte b is, and what follows them. -/
structure Peer where
  answers : List (Option Byte)
  tail : Tail
deriving DecidableEq, Repr

/-- What the host presents to the block between operations (R250, R257). -/
inductive HostInput where
  /-- A command word on the command port. -/
  | command (w : Word)
  /-- The reset input `rst`. -/
  | rst
deriving DecidableEq, Repr

/-- Everything the spec gives the machine: the parameters, the registers of 10_state.md R22 to R33, the frame buffer,
the TX log, and the environment the model keeps beside the block (R35, R36). -/
structure State where
  /-- The parameters of R5: configuration, carried and never written (R8; log 1). -/
  cfg : Config
  /-- CRC, the running accumulator (R22). -/
  crc : Half
  /-- ESC, the escape-pending flag (R23). -/
  esc : Bool
  /-- BUF, the frame buffer (R24). -/
  buf : Memory
  /-- IDX, the fill level of the frame buffer (R25). -/
  idx : Half
  /-- OVF, the oversized-frame flag (R26). -/
  ovf : Bool
  /-- FLEN, the length of the packet view (R27). -/
  flen : Half
  /-- PKT_VALID, whether a packet view exists (R28). -/
  pktValid : Bool
  /-- SYNCING, the state of the synchronisation controller: false is Idle, true is Syncing (R29). -/
  syncing : Bool
  /-- SYNC_LAST, the outcome of the last SYNC procedure (R30). -/
  syncLast : BitVec 2
  /-- LASTDROP, the reason of the last dropped frame (R31). -/
  lastDrop : BitVec 2
  /-- EVT, the event code of the last completed operation (R32). -/
  evt : Byte
  /-- RESULT, the result of the last completed operation (R33). -/
  result : Word
  /-- The TX log: every byte written to the transport since reset, oldest first (R35). -/
  txLog : List Byte
  /-- Environment: the peer's answers to the coming polls (R36, R57). -/
  rx : Peer
  /-- How many of the peer's bytes the block has consumed since reset (R260). -/
  rxTaken : Nat
  /-- Environment: what the host will present, the next first (R257). -/
  hostq : List HostInput
  /-- The MODEL's own: how many reset inputs were taken, an index of the free buffer bytes and of the free
  answers of the transport (log 5, log 8). -/
  resets : Nat
deriving DecidableEq, Repr

/-- The block right after its reset input, with the given parameters, peer and host (R38, R250): every register at
its value of R38, no buffer byte specified, the TX log empty. -/
def State.afterReset (cfg : Config) (rx : Peer) (hostq : List HostInput) (resets : Nat) : State where
  cfg := cfg
  crc := 0
  esc := false
  buf := []
  idx := 0
  ovf := false
  flen := 0
  pktValid := false
  syncing := false
  syncLast := 0
  lastDrop := 0
  evt := 0
  result := 0
  txLog := []
  rx := rx
  rxTaken := 0
  hostq := hostq
  resets := resets

/-- The machine right after reset: the parameters are open, the host presents nothing yet and the peer has nothing to
say (the last two DESIGN CHOICE, log 6). -/
def State.reset : State := State.afterReset Config.chip ⟨[], .silent⟩ [] 0

end Sys2Proof.Machine
end

