-- ==== Sys2Proof/Machine/Flags.lean ====
section
/-! DEFINITION. The codes of EVT, LASTDROP and SYNC_LAST, and the STATUS word computed from the registers
(10_state.md R30, R31, R34; 60_exceptions.md R221). -/

namespace Sys2Proof.Machine

/-- The events of R221. -/
inductive Event where
  /-- completed, nothing further to report -/
  | ok
  /-- a packet view is available -/
  | pkt
  /-- the receive ended without a packet -/
  | nopkt
  /-- one wire byte taken, no frame ended -/
  | byte
  /-- no wire byte was available -/
  | empty
  /-- the byte ended a frame that was dropped -/
  | drop
  /-- the byte ended a zero-length frame -/
  | boundary
  /-- a SYNC procedure ran and succeeded -/
  | syncOk
  /-- a SYNC procedure ran and failed -/
  | syncFail
  /-- synchronisation refused, already syncing -/
  | syncBusy
  /-- packet readout with no view or past its end -/
  | range
  /-- illegal command word, nothing done -/
  | illegal
deriving DecidableEq, Repr

/-- The code of an event in EVT (R221). -/
def Event.code : Event → Byte
  | .ok => 0x00
  | .pkt => 0x01
  | .nopkt => 0x02
  | .byte => 0x03
  | .empty => 0x04
  | .drop => 0x05
  | .boundary => 0x06
  | .syncOk => 0x07
  | .syncFail => 0x08
  | .syncBusy => 0x09
  | .range => 0x0A
  | .illegal => 0xFF

/-- Why a frame was dropped (R31, R152). -/
inductive DropReason where
  /-- fewer than 8 decoded bytes -/
  | short
  /-- checksum mismatch -/
  | crc
  /-- more than FRAME_CAP decoded bytes -/
  | oversize
deriving DecidableEq, Repr

/-- The code of a drop reason in LASTDROP; 0 is none since reset (R31). -/
def DropReason.code : DropReason → BitVec 2
  | .short => 1
  | .crc => 2
  | .oversize => 3

/-- The outcome of a SYNC procedure in SYNC_LAST: 1 success, 2 failure; 0 is none since reset (R30). -/
def syncOutcomeCode (ok : Bool) : BitVec 2 := if ok then 1 else 2

/-- A one-bit flag of STATUS at bit `k`. -/
def flagBit (f : Bool) (k : Nat) : Word := (BitVec.ofBool f).setWidth 32 <<< k

/-- STATUS, the composite of R34; bits [31:16] read 0. -/
def statusWord (s : State) : Word :=
  s.evt.setWidth 32 ||| flagBit s.esc 8 ||| flagBit s.ovf 9 ||| flagBit s.pktValid 10 ||| flagBit s.syncing 11
    ||| (s.syncLast.setWidth 32 <<< 12) ||| (s.lastDrop.setWidth 32 <<< 14)

end Sys2Proof.Machine
end

