-- ==== Sys2Proof/Machine/Operands.lean ====
section
/-! DEFINITION. The parts of multi-byte values and the pad count (00_scope.md R13, 20_memory.md R51,
42_request_builder.md R132). Every multi-byte field is little-endian: the byte at the lower index, or sent first, is
the least significant (R51, D4; log 11). -/

namespace Sys2Proof.Machine

/-- `lo8(v) = v[7:0]` (R13). -/
def lo8 (v : Half) : Byte := v.extractLsb' 0 8

/-- `hi8(v) = v[15:8]` (R13). -/
def hi8 (v : Half) : Byte := v.extractLsb' 8 8

/-- `u16le(b0, b1)`, the 16-bit value of two bytes, the low byte first (R13). -/
def u16le (b0 b1 : Byte) : Half := b0.setWidth 16 ||| (b1.setWidth 16 <<< 8)

/-- `u32le(b0, b1, b2, b3)`, the 32-bit value of four bytes, the low byte first (R13). -/
def u32le (b0 b1 b2 b3 : Byte) : Word :=
  b0.setWidth 32 ||| (b1.setWidth 32 <<< 8) ||| (b2.setWidth 32 <<< 16) ||| (b3.setWidth 32 <<< 24)

/-- The two bytes of a 16-bit field in the order they stand on the wire (R51). -/
def bytes16 (v : Half) : List Byte := [lo8 v, hi8 v]

/-- The four bytes of a 32-bit field in the order they stand on the wire (R51). -/
def bytes32 (v : Word) : List Byte :=
  [v.extractLsb' 0 8, v.extractLsb' 8 8, v.extractLsb' 16 8, v.extractLsb' 24 8]

/-- How many zero bytes follow a parameter of n data bytes: `(4 - (n mod 4)) mod 4` (R132, C2). -/
def padCount (n : Half) : Nat := (4 - n.toNat % 4) % 4

end Sys2Proof.Machine
end

