-- ==== Sys2Proof/Machine/Ops.lean ====
section
/-! DEFINITION. The named operations over the frame buffer, the registers and the transport that every meaning is
built from. The block has no exception to take and none to return from (60_exceptions.md R225): the one way an
operation ends is `State.finish`. -/

namespace Sys2Proof.Machine

/-! The end of an operation -/

/-- `finish(evt, result)` (R14): EVT and RESULT are written, nothing else. -/
def State.finish (e : Event) (r : Word) (s : State) : State := { s with evt := e.code, result := r }

/-- What an illegal command word does: EVT is ILLEGAL, RESULT is 0, nothing else changes (R79). -/
def State.reportIllegal (s : State) : State := s.finish .illegal 0

/-- The reset input (R250): the registers at their reset values, the buffer unspecified, the TX log empty; the
parameters, the peer and the host are outside the block and stay. -/
def State.applyReset (s : State) : State := State.afterReset s.cfg s.rx s.hostq (s.resets + 1)

/-! The frame buffer -/

/-- The byte written last at an index, if any was written since reset. -/
def Memory.read? : Memory → Nat → Option Byte
  | [], _ => none
  | (b, v) :: m, a => if a = b then some v else Memory.read? m a

/-- `BUF[a] <- v`, keeping the indices strictly rising. -/
def Memory.write : Memory → Nat → Byte → Memory
  | [], a, v => [(a, v)]
  | (b, w) :: m, a, v =>
    if a < b then (a, v) :: (b, w) :: m
    else if a = b then (a, v) :: m
    else (b, w) :: Memory.write m a v

/-- `BUF[a]` (R14): the byte written last, or the free value of an unwritten byte (R24, I11; log 8). -/
def State.byteAt (s : State) (a : Nat) : Byte := (s.buf.read? a).getD (Config.unwritten s.resets a)

/-- `BUF[0 .. n-1]`. -/
def State.span (s : State) (n : Nat) : List Byte := (List.range n).map s.byteAt

/-- The indices below n all exist in the buffer (R50, R55). -/
def State.holds (s : State) (n : Nat) : Bool := decide (n ≤ s.cfg.cap)

/-- `BUF[IDX] <- v; IDX <- IDX + 1` (R151). -/
def State.store (v : Byte) (s : State) : State :=
  { s with buf := s.buf.write s.idx.toNat v, idx := s.idx + 1 }

/-- The command identifier of the frame in the buffer, `u16le(BUF[0], BUF[1])` (R180, R201). -/
def State.packetCmd (s : State) : Half := u16le (s.byteAt 0) (s.byteAt 1)

/-- The argument count field, `u16le(BUF[2], BUF[3])` (R201). -/
def State.packetArgc (s : State) : Half := u16le (s.byteAt 2) (s.byteAt 3)

/-- The value field, `u32le(BUF[4], BUF[5], BUF[6], BUF[7])` (R201). -/
def State.packetValue (s : State) : Word := u32le (s.byteAt 4) (s.byteAt 5) (s.byteAt 6) (s.byteAt 7)

/-! Registers -/

/-- `InvalidateView()` (R150). -/
def State.invalidateView (s : State) : State := { s with pktValid := false, flen := 0 }

/-- The packet view spans the first m bytes of the buffer (R154, R155). -/
def State.showView (m : Half) (s : State) : State := { s with flen := m, pktValid := true }

/-- `IDX <- 0; ESC <- 0; OVF <- 0`, at every frame boundary and every discard (R152, R163). -/
def State.clearFrame (s : State) : State := { s with idx := 0, esc := false, ovf := false }

/-- `ESC <- e` (R104). -/
def State.setEsc (e : Bool) (s : State) : State := { s with esc := e }

/-- `OVF <- 1` (R151). -/
def State.markOversize (s : State) : State := { s with ovf := true }

/-- `CRC <- c`. -/
def State.setCrc (c : Half) (s : State) : State := { s with crc := c }

/-- `LASTDROP <- reason` (R152). -/
def State.recordDrop (r : DropReason) (s : State) : State := { s with lastDrop := r.code }

/-- `SYNCING <- 1`, Idle to Syncing (R181). -/
def State.beginSync (s : State) : State := { s with syncing := true }

/-- `SYNCING <- 0; SYNC_LAST <- (ok ? 1 : 2)`, Syncing to Idle (R181). -/
def State.endSync (ok : Bool) (s : State) : State := { s with syncing := false, syncLast := syncOutcomeCode ok }

/-! The transport -/

/-- `TxWrite` of each byte in turn: appended to the TX log, never blocking, failing or reordering (R58). -/
def State.txWrite (bs : List Byte) (s : State) : State := { s with txLog := s.txLog ++ bs }

/-- The polls up to `rest` are answered and n bytes were consumed in them (R57). -/
def State.polled (rest : List (Option Byte)) (n : Nat) (s : State) : State :=
  { s with rx := { s.rx with answers := rest }, rxTaken := s.rxTaken + n }

/-- The tail of a kind, its free answers from the first. -/
def Tail.ofKind : PeerKind → Tail
  | .silent => .silent
  | .free => .unlisted 0
  | .endless => .endless 0

/-- The peer after the reset that ended an operation, its listed answers all taken: any answers and any tail, an endless
one again among them, since R57 admits every answer sequence (log 13). Its unlisted answers are those of the new reset
count, so none is drawn twice. -/
def Peer.afterStuck (n : Nat) : Peer := ⟨Config.answersAfterStuck n, Tail.ofKind (Config.kindAfterStuck n)⟩

/-- The next reset input that the host presents, if any: the command words that stand before it, and what follows it. -/
def hostUntilReset : List HostInput → Option (List Word × List HostInput)
  | [] => none
  | .rst :: q => some ([], q)
  | .command w :: q => (hostUntilReset q).map fun p => (w :: p.1, p.2)

/-- Which of the held command words, the first of them the j-th, are still held after the n-th reset: any, none or all,
in their order (log 18). -/
def heldAfter (n : Nat) : Nat → List Word → List Word
  | _, [] => []
  | j, w :: ws => if Config.heldWordKept n j then w :: heldAfter n (j + 1) ws else heldAfter n (j + 1) ws

/-- The state that the reset input resets where it ends an operation: the peer goes on afresh, and of the words held
before the reset those still held come first (logs 13 and 18). -/
def State.abandon (held : List Word) (q : List HostInput) (s : State) : State :=
  { s with rx := Peer.afterStuck (s.resets + 1),
           hostq := (heldAfter (s.resets + 1) 0 held).map .command ++ q }

/-- A poll past the listed answers that draws the free answer `a`, the tail going on as `tl` (R57; log 5). -/
def State.drew (tl : Tail) (a : Option Byte) (s : State) : State :=
  { s with rx := ⟨[], tl⟩, rxTaken := s.rxTaken + a.toList.length }

/-- `RxPoll()` (R57): the next answer of the peer, and the state after the poll. Every poll of every operation is this
one. -/
def State.rxPoll (s : State) : Option Byte × State :=
  match s.rx.answers with
  | none :: rest => (none, s.polled rest 0)
  | some b :: rest => (some b, s.polled rest 1)
  | [] =>
    match s.rx.tail with
    | .silent => (none, s)
    | .unlisted k => (Config.rxOracle s.resets k, s.drew (.unlisted (k + 1)) (Config.rxOracle s.resets k))
    | .endless k =>
      (some (Config.endlessByte s.resets k), s.drew (.endless (k + 1)) (some (Config.endlessByte s.resets k)))

/-- For how many polls a loop of R256 is followed: the listed answers, and a free number of those of a peer whose
answers are not listed (log 4). -/
def State.pollBudget (s : State) : Nat :=
  match s.rx.tail with
  | .silent => s.rx.answers.length
  | .unlisted k => Config.rxHorizon s.resets k + s.rx.answers.length
  | .endless _ => s.rx.answers.length

/-- The gap that ends a loop after its poll budget, n polls that answer `none`, and the state after them; an endless
peer leaves none (I13; log 4). -/
def State.rxGap (n : Nat) (s : State) : Option State :=
  match s.rx.tail with
  | .silent => some s
  | .unlisted k => some (s.drew (.unlisted (k + n)) none)
  | .endless _ => none

/-- Nothing is listed any more and the peer is silent: every further poll answers `none` and changes nothing. -/
def State.quiet (s : State) : Bool := decide (s.rx = ⟨[], .silent⟩)

/-! Procedures that poll the transport -/

/-- How a procedure of 43_receive.md or 44_sync.md comes out: it ends with a value in a state, or the machine stops
in it. -/
inductive Proc (α : Type) where
  | ends (a : α) (s : State)
  | stops (r : Fault)
deriving DecidableEq, Repr

/-- A procedure followed by another. -/
def Proc.andThen {α β : Type} (p : Proc α) (k : α → State → Proc β) : Proc β :=
  match p with
  | .ends a s => k a s
  | .stops r => .stops r

/-- A procedure followed by the end of the operation. -/
def Proc.finally {α : Type} (p : Proc α) (k : α → State → State) : Host.Outcome State Fault Refusal :=
  match p with
  | .ends a s => .next (k a s)
  | .stops r => .fault r

/-! The host -/

/-- What the host presents next, and the state without it. A word presented early is held until the block is idle
(R257). -/
def State.fetch (s : State) : Option (HostInput × State) :=
  match s.hostq with
  | [] => none
  | i :: rest => some (i, { s with hostq := rest })

/-- The host presents a command word, to be taken first. -/
def State.present (w : Word) (s : State) : State := { s with hostq := .command w :: s.hostq }

end Sys2Proof.Machine
end

