-- ==== Sys2Proof/Machine/Readout.lean ====
section
/-! DEFINITION. The readout operations and NOP (45_readout.md): RDREG, RDBUF, NOP. -/

namespace Sys2Proof.Machine

/-- The registers RDREG names (30_encoding.md R81). -/
inductive Reg where
  | status | crc | idx | flen
  | pktCmd | pktArgc | pktValue
  | cfgCap | cfgSyncCmd | cfgVersionCmd | cfgSyncTimeout | cfgSyncValue
deriving DecidableEq, Repr

/-- The register with a number, 0 to 11 (R81). -/
def Reg.ofNumber (n : Nat) : Option Reg :=
  match n with
  | 0 => some .status
  | 1 => some .crc
  | 2 => some .idx
  | 3 => some .flen
  | 4 => some .pktCmd
  | 5 => some .pktArgc
  | 6 => some .pktValue
  | 7 => some .cfgCap
  | 8 => some .cfgSyncCmd
  | 9 => some .cfgVersionCmd
  | 10 => some .cfgSyncTimeout
  | 11 => some .cfgSyncValue
  | _ => none

/-- Ends a read of the packet view that needs the first n bytes of the buffer to exist (log 9). -/
def finishRead (n : Nat) (v : Word) (s : State) : Host.Outcome State Fault Refusal :=
  if s.holds n then .next (s.finish .ok v) else .fault .noSuchBufferByte

/-- A read of a packet field: RANGE without a view (R200, R201). -/
def readField (n : Nat) (v : Word) (s : State) : Host.Outcome State Fault Refusal :=
  if s.pktValid then finishRead n v s else .next (s.finish .range 0)

/-- The effect of reading a register (R201). STATUS shows the EVT of the operation before this one. -/
def readReg (r : Reg) (s : State) : Host.Outcome State Fault Refusal :=
  match r with
  | .status => .next (s.finish .ok (statusWord s))
  | .crc => .next (s.finish .ok (s.crc.setWidth 32))
  | .idx => .next (s.finish .ok (s.idx.setWidth 32))
  | .flen => .next (s.finish .ok (s.flen.setWidth 32))
  | .pktCmd => readField 2 (s.packetCmd.setWidth 32) s
  | .pktArgc => readField 4 (s.packetArgc.setWidth 32) s
  | .pktValue => readField 8 s.packetValue s
  | .cfgCap => .next (s.finish .ok (s.cfg.frameCap.setWidth 32))
  | .cfgSyncCmd => .next (s.finish .ok (s.cfg.syncCmd.setWidth 32))
  | .cfgVersionCmd => .next (s.finish .ok (s.cfg.versionCmd.setWidth 32))
  | .cfgSyncTimeout => .next (s.finish .ok (s.cfg.syncRxTimeout.setWidth 32))
  | .cfgSyncValue => .next (s.finish .ok s.cfg.syncReqValue)

/-- RDREG n (R201). A number above 11 is no operation of the block and the decoder never yields it; the term is given
the effect of an illegal word (R79, R201; log 10). -/
def execRdreg (n : Half) (s : State) : Host.Outcome State Fault Refusal :=
  match Reg.ofNumber n.toNat with
  | some r => readReg r s
  | none => .next s.reportIllegal

/-- RDBUF n (R202): one byte of the packet view; RANGE without a view or past its end. -/
def execRdbuf (n : Half) (s : State) : Host.Outcome State Fault Refusal :=
  if s.pktValid ∧ n.toNat < s.flen.toNat then finishRead (n.toNat + 1) ((s.byteAt n.toNat).setWidth 32) s
  else .next (s.finish .range 0)

/-- NOP (R204): EVT and RESULT only. -/
def execNop (s : State) : Host.Outcome State Fault Refusal :=
  .next (s.finish .ok 0)

end Sys2Proof.Machine
end

