-- ==== Sys2Proof/Machine/Codec.lean ====
section
/-! DEFINITION. The SLIP codec (40_slip_codec.md): the encoder, the decoder step, ENC and TX_END. -/

namespace Sys2Proof.Machine

/-- END, the delimiter byte (R70). -/
def slipEnd : Byte := 0xC0

/-- ESC, the escape byte (R70). -/
def slipEsc : Byte := 0xDB

/-- ESC_END, what follows ESC to stand for END (R70). -/
def slipEscEnd : Byte := 0xDC

/-- ESC_ESC, what follows ESC to stand for ESC (R70). -/
def slipEscEsc : Byte := 0xDD

/-- The escaped form of one data byte (R71). -/
def escape (b : Byte) : List Byte :=
  if b = slipEnd then [slipEsc, slipEscEnd]
  else if b = slipEsc then [slipEsc, slipEscEsc]
  else [b]

/-- `EncodeOut(b)` (R100): writes the escaped form of b to the transport. -/
def State.encodeOut (b : Byte) (s : State) : State := s.txWrite (escape b)

/-- What `EncodeOut(b)` returns: the number of wire bytes written, 1 or 2 (R100). -/
def encodeCount (b : Byte) : Word := BitVec.ofNat 32 (escape b).length

/-- What the decoder makes of one wire byte (R103). -/
inductive Signal where
  /-- a decoded byte -/
  | data (v : Byte)
  /-- a frame boundary -/
  | boundary
  /-- an escape marker, no output yet -/
  | nothing
deriving DecidableEq, Repr

/-- The byte that stands for an escaped wire byte; an unrecognised one passes through (R104). -/
def unescape (b : Byte) : Byte :=
  if b = slipEscEnd then slipEnd else if b = slipEscEsc then slipEsc else b

/-- `DecodeIn(b)` on the escape flag (R104): the signal and the flag afterwards. END is always a boundary, ESC always
arms the flag (R105, R106). -/
def decodeByte (esc : Bool) (b : Byte) : Signal × Bool :=
  if b = slipEnd then (.boundary, false)
  else if b = slipEsc then (.nothing, true)
  else if esc then (.data (unescape b), false)
  else (.data b, false)

/-- `DecodeIn(b)` (R104): the signal and the state with ESC written. -/
def State.decodeIn (b : Byte) (s : State) : Signal × State :=
  ((decodeByte s.esc b).1, s.setEsc (decodeByte s.esc b).2)

/-- ENC b (R101): SLIP-encode one byte to the transport, the CRC untouched. -/
def execEnc (b : Byte) (s : State) : Host.Outcome State Fault Refusal :=
  .next ((s.encodeOut b).finish .ok (encodeCount b))

/-- TX_END (R102): write one bare frame-boundary byte, the CRC untouched. -/
def execTxEnd (s : State) : Host.Outcome State Fault Refusal :=
  .next ((s.txWrite [slipEnd]).finish .ok 1)

end Sys2Proof.Machine
end

