-- ==== Sys2Proof/Machine/Crc.lean ====
section
/-! DEFINITION. The CRC-16 engine (41_crc.md): the transform, the checksum of a byte sequence, CRC_CLR and
CRC_ADD. -/

namespace Sys2Proof.Machine

/-- `rotate_bytes`, the high and the low byte swapped (R120). -/
def rotateBytes (a : Half) : Half := (a <<< 8) ||| (a >>> 8)

/-- `crc_step(a, v)` (R120), the transform bit for bit; every intermediate value has 16 bits. -/
def crcStep (a : Half) (v : Byte) : Half :=
  let a1 := a ^^^ v.setWidth 16
  let a2 := rotateBytes a1
  let a3 := a2 ^^^ ((a2 &&& 0xFF00) <<< 4)
  let a4 := a3 ^^^ ((a3 >>> 8) >>> 4)
  a4 ^^^ ((a4 &&& 0xFF00) >>> 5)

/-- The accumulator after a byte sequence, from the value a. -/
def crcFold (a : Half) (bs : List Byte) : Half := bs.foldl crcStep a

/-- `crc16(s)` (R124): the fold from 0x0000; there is no other initial value and no finalisation (R123). -/
def crc16 (bs : List Byte) : Half := crcFold 0 bs

/-- `CRC <- crc_step(CRC, b)` (R122, R131, R132). -/
def State.foldCrc (b : Byte) (s : State) : State := s.setCrc (crcStep s.crc b)

/-- CRC_CLR (R121): clear the accumulator. -/
def execCrcClr (s : State) : Host.Outcome State Fault Refusal :=
  .next ((s.setCrc 0).finish .ok 0)

/-- CRC_ADD b (R122): fold one byte into the accumulator; RESULT is the new CRC. -/
def execCrcAdd (b : Byte) (s : State) : Host.Outcome State Fault Refusal :=
  .next ((s.foldCrc b).finish .ok ((s.foldCrc b).crc.setWidth 32))

end Sys2Proof.Machine
end

