-- ==== Sys2Proof/Machine/Builder.lean ====
section
/-! DEFINITION. The outbound frame primitives (42_request_builder.md): TX_BEGIN, TX_BYTE, TX_PAD, TX_FINAL. They keep
no state of their own (R136). -/

namespace Sys2Proof.Machine

/-- The bare delimiter is written and the accumulator cleared (R130). -/
def State.openFrame (s : State) : State := (s.txWrite [slipEnd]).setCrc 0

/-- One body byte is SLIP-encoded to the transport and folded into the accumulator (R131). -/
def State.sendByte (b : Byte) (s : State) : State := (s.encodeOut b).foldCrc b

/-- Body bytes in order. -/
def State.sendBytes (bs : List Byte) (s : State) : State := bs.foldl (fun t b => t.sendByte b) s

/-- One pad byte: an unescaped zero, folded into the accumulator (R132). -/
def State.sendPad (s : State) : State := (s.txWrite [0]).foldCrc 0

/-- k pad bytes (R132). -/
def State.sendPads : Nat → State → State
  | 0, s => s
  | k + 1, s => State.sendPads k s.sendPad

/-- The CRC snapshot is sent, low byte first, and the frame closed; CRC itself is not written (R133). -/
def State.closeFrame (s : State) : State :=
  ((s.encodeOut (lo8 s.crc)).encodeOut (hi8 s.crc)).txWrite [slipEnd]

/-- TX_BEGIN (R130): start an outbound frame. -/
def execTxBegin (s : State) : Host.Outcome State Fault Refusal :=
  .next (s.openFrame.finish .ok 1)

/-- TX_BYTE b (R131): send one body byte; RESULT is the number of wire bytes. -/
def execTxByte (b : Byte) (s : State) : Host.Outcome State Fault Refusal :=
  .next ((s.sendByte b).finish .ok (encodeCount b))

/-- TX_PAD n (R132): send the zero padding that follows a parameter of n data bytes; RESULT is the pad count. -/
def execTxPad (n : Half) (s : State) : Host.Outcome State Fault Refusal :=
  .next ((s.sendPads (padCount n)).finish .ok (BitVec.ofNat 32 (padCount n)))

/-- TX_FINAL (R133): send the checksum and close the frame; RESULT is the checksum sent. -/
def execTxFinal (s : State) : Host.Outcome State Fault Refusal :=
  .next (s.closeFrame.finish .ok (s.crc.setWidth 32))

end Sys2Proof.Machine
end

