-- ==== Sys2Proof/Machine/Frames.lean ====
section
/-! DEFINITION. The frame assembler, the packet validator and the receive loops (43_receive.md R150 to R159, R163).
The loops take the hook that a just-validated packet is offered to, so that one text serves both the receive
operations, whose hook is `Intercept`, and the wait of a SYNC procedure, where SYNCING = 1 and `Intercept` always
surfaces the packet (44_sync.md R180; log 14). -/

namespace Sys2Proof.Machine

/-- `ByteIn(v)` (R151): the assembler's store of one decoded byte. -/
def State.byteIn (v : Byte) (s : State) : State :=
  if s.ovf then s
  else if s.idx.toNat < s.cfg.cap then s.store v
  else s.markOversize

/-- What a frame end yields (R152). -/
inductive FrameResult where
  | packet | dropped | empty
deriving DecidableEq, Repr

/-- `Drop(reason)` (R152). -/
def State.dropFrame (r : DropReason) (s : State) : FrameResult × State := (.dropped, s.recordDrop r)

/-- `Validate(m)` (R154), for a frame in `BUF[0 .. m-1]`: CRC becomes the checksum of all but the last two bytes; if
it is the little-endian value of those two the packet view is shown, else the frame is dropped. -/
def State.validate (m : Half) (s : State) : FrameResult × State :=
  let t := s.setCrc (crc16 (s.span (m.toNat - 2)))
  if t.crc = u16le (s.byteAt (m.toNat - 2)) (s.byteAt (m.toNat - 1)) then (.packet, t.showView m)
  else t.dropFrame .crc

/-- The verdict on the frame in the buffer, its checks in the order oversize, empty, short, checksum (R152, R224). -/
def State.judgeFrame (s : State) : FrameResult × State :=
  if s.ovf then s.dropFrame .oversize
  else if s.idx = 0 then (.empty, s)
  else if s.idx.toNat < 8 then s.dropFrame .short
  else s.validate s.idx

/-- `FrameEnd()` (R152): the verdict, then the assembler is cleared for the next frame. -/
def State.frameEnd (s : State) : FrameResult × State := (s.judgeFrame.1, s.judgeFrame.2.clearFrame)

/-- The outcomes of `RxByte` (R157). -/
inductive ByteResult where
  | byte | empty | dropped | packet
  | synced (ok : Bool)
deriving DecidableEq, Repr

/-- `RxByte` at a frame boundary (R157). A fill level past FRAME_CAP, which no reachable state has, would make the
validator read bytes that do not exist (log 9). -/
def rxBoundary (hook : State → Proc ByteResult) (s : State) : Proc ByteResult :=
  if s.ovf || s.holds s.idx.toNat then
    match s.frameEnd with
    | (.packet, t) => hook t
    | (.dropped, t) => .ends .dropped t
    | (.empty, t) => .ends .empty t
  else .stops .noSuchBufferByte

/-- `RxByte(b)` (R157): one wire byte through codec, assembler and validator. -/
def rxByte (hook : State → Proc ByteResult) (b : Byte) (s : State) : Proc ByteResult :=
  match s.decodeIn b with
  | (.nothing, t) => .ends .byte t
  | (.data v, t) => .ends .byte (t.byteIn v)
  | (.boundary, t) => rxBoundary hook t

/-- The outcomes of `TryReceive` and `Receive` (R158, R159). -/
inductive RecvResult where
  | packet | nopacket
  | synced (ok : Bool)
deriving DecidableEq, Repr

/-- The loop of `TryReceive` (R158). The first argument is what is left of the poll budget; after it comes the gap that
ends the loop, or none ever does (R256; log 4). -/
def drain (hook : State → Proc ByteResult) : Nat → State → Proc RecvResult
  | 0, s =>
    match s.rxGap 1 with
    | none => .stops .peerNotDone
    | some t => .ends .nopacket t
  | n + 1, s =>
    match s.rxPoll with
    | (none, t) => .ends .nopacket t
    | (some b, t) =>
      match rxByte hook b t with
      | .stops r => .stops r
      | .ends .packet u => .ends .packet u
      | .ends (.synced ok) u => .ends (.synced ok) u
      | .ends .byte u => drain hook n u
      | .ends .empty u => drain hook n u
      | .ends .dropped u => drain hook n u

/-- `TryReceive()` (R158). -/
def tryReceive (hook : State → Proc ByteResult) (s : State) : Proc RecvResult := drain hook s.pollBudget s

/-- The iterations of `Receive(T)` (R159). -/
def receiveLoop (hook : State → Proc ByteResult) : Nat → State → Proc RecvResult
  | 0, s => .ends .nopacket s
  | n + 1, s =>
    match tryReceive hook s with
    | .stops r => .stops r
    | .ends .packet t => .ends .packet t
    | .ends .nopacket t => receiveLoop hook n t
    | .ends (.synced _) t => receiveLoop hook n t

/-- `Receive(T)` (R159). Once the peer is silent for good every iteration polls `none` and changes nothing, so they
are passed over at once (`receive_eq_receiveLoop` in Laws/Frames.lean; log 14). -/
def receive (hook : State → Proc ByteResult) (n : Nat) (s : State) : Proc RecvResult :=
  if s.quiet then .ends .nopacket s else receiveLoop hook n s

/-- The loop of `Discard` (R163), with what is left of the poll budget; n bytes were consumed before. -/
def discardLoop : Nat → Nat → State → Proc Nat
  | 0, n, s =>
    match s.rxGap 1 with
    | none => .stops .peerNotDone
    | some t => .ends n t
  | k + 1, n, s =>
    match s.rxPoll with
    | (none, t) => .ends n t
    | (some _, t) => discardLoop k (n + 1) t

/-- `Discard()` (R163): the available bytes are consumed undecoded and the partial frame is cleared; the value is the
number of bytes. -/
def discard (s : State) : Proc Nat :=
  (discardLoop s.pollBudget 0 s).andThen fun n t => .ends n t.clearFrame

end Sys2Proof.Machine
end

