-- ==== Sys2Proof/Machine/Sync.lean ====
section
/-! DEFINITION. The synchronisation controller (44_sync.md): the SYNC procedure, its automatic trigger, and SYNC. -/

namespace Sys2Proof.Machine

/-- SYNC_MARKER, the literal text "sync\n" in ASCII (R5, D17, G1; log 11). -/
def syncMarker : List Byte := [0x73, 0x79, 0x6E, 0x63, 0x0A]

/-- The body of the SYNC request: SYNC_CMD, SYNC_REQ_ARGC = 0, SYNC_REQ_VALUE, no parameters (R181, R186). -/
def syncBody (c : Config) : List Byte := bytes16 c.syncCmd ++ bytes16 0 ++ bytes32 c.syncReqValue

/-- The five marker bytes through the encoder, not folded into CRC (R181). -/
def State.sendMarker (s : State) : State := syncMarker.foldl (fun t b => t.encodeOut b) s

/-- The formal SYNC request, as TX_BEGIN, TX_BYTE of each body byte, TX_FINAL (R181). -/
def State.sendSyncRequest (s : State) : State := (s.openFrame.sendBytes (syncBody s.cfg)).closeFrame

/-- `Intercept()` while SYNCING = 1 (R180): the packet is surfaced, here to the sync wait. -/
def surface (s : State) : Proc ByteResult := .ends .packet s

/-- The wait of a SYNC procedure (R181): receives until one yields no packet (failure) or the version response
(success); any other packet is discarded. The first argument bounds the number of packets: each takes at least one poll,
so the poll budget and one are enough for the listed answers (`syncWait_fuel` in Laws/Sync.lean; log 14). Where free
answers yield more packets, a gap in every iteration of the next receive ends the wait (log 4). -/
def syncWait : Nat → State → Proc Bool
  | 0, s =>
    match s.rxGap s.cfg.syncRxTimeout.toNat with
    | none => .stops .peerNotDone
    | some t => .ends false t
  | k + 1, s =>
    match receive surface s.cfg.syncRxTimeout.toNat s with
    | .stops r => .stops r
    | .ends .nopacket t => .ends false t
    | .ends (.synced _) t => .ends false t
    | .ends .packet t => if t.packetCmd = t.cfg.versionCmd then .ends true t else syncWait k t.invalidateView

/-- `SyncProc()` (R181), entered with SYNCING = 0. -/
def syncProc (s : State) : Proc Bool :=
  (discard s.beginSync.sendMarker).andThen fun _ t1 =>
  (discard (t1.txWrite [slipEnd])).andThen fun _ t2 =>
  (syncWait (t2.pollBudget + 1) t2.sendSyncRequest).andThen fun ok t3 =>
  .ends ok (t3.invalidateView.endSync ok)

/-- `Intercept()` (R180), run on every packet just accepted: the SYNC command met while Idle is consumed and starts
the SYNC procedure; every other packet is surfaced. -/
def intercept (s : State) : Proc ByteResult :=
  if s.packetCmd = s.cfg.syncCmd ∧ s.syncing = false then
    (syncProc s.invalidateView).andThen fun ok t => .ends (.synced ok) t
  else .ends .packet s

/-- How SYNC reports its procedure (R182). -/
def finishSync (ok : Bool) (s : State) : State := if ok then s.finish .syncOk 1 else s.finish .syncFail 0

/-- SYNC (R182, R183): a re-entrant attempt is refused without any other effect. -/
def execSync (s : State) : Host.Outcome State Fault Refusal :=
  if s.syncing then .next (s.finish .syncBusy 0)
  else (syncProc s.invalidateView).finally finishSync

end Sys2Proof.Machine
end

