-- ==== Sys2Proof/Machine/Receive.lean ====
section
/-! DEFINITION. The receive operations (43_receive.md R160 to R164): RX_STEP, TRY_RECV, RECV, RX_FLUSH. Each begins by
invalidating the packet view (R150). -/

namespace Sys2Proof.Machine

/-- How an intercepted SYNC procedure is reported (R160, R161). -/
def finishIntercepted (ok : Bool) (s : State) : State := s.finish (if ok then .syncOk else .syncFail) 0

/-- How RX_STEP reports the byte it took (R160). -/
def finishStep (r : ByteResult) (s : State) : State :=
  match r with
  | .byte => s.finish .byte 0
  | .empty => s.finish .boundary 0
  | .dropped => s.finish .drop 0
  | .packet => s.finish .pkt 1
  | .synced ok => finishIntercepted ok s

/-- How TRY_RECV reports (R161). -/
def finishTry (r : RecvResult) (s : State) : State :=
  match r with
  | .packet => s.finish .pkt 1
  | .nopacket => s.finish .nopkt 0
  | .synced ok => finishIntercepted ok s

/-- How RECV reports: a SYNC intercepted on the way stands only in SYNC_LAST (R162). -/
def finishRecv (r : RecvResult) (s : State) : State :=
  match r with
  | .packet => s.finish .pkt 1
  | .nopacket => s.finish .nopkt 0
  | .synced _ => s.finish .nopkt 0

/-- RX_STEP (R160): exactly one poll, and at most one wire byte. -/
def execRxStep (s : State) : Host.Outcome State Fault Refusal :=
  match s.invalidateView.rxPoll with
  | (none, t) => .next (t.finish .empty 0)
  | (some b, t) => (rxByte intercept b t).finally finishStep

/-- TRY_RECV (R161): the non-blocking receive. -/
def execTryRecv (s : State) : Host.Outcome State Fault Refusal :=
  (tryReceive intercept s.invalidateView).finally finishTry

/-- RECV n (R162): up to n iterations of the non-blocking receive. -/
def execRecv (n : Half) (s : State) : Host.Outcome State Fault Refusal :=
  (receive intercept n.toNat s.invalidateView).finally finishRecv

/-- RX_FLUSH (R164): discard the available bytes and the partial frame; RESULT is the number of bytes. -/
def execRxFlush (s : State) : Host.Outcome State Fault Refusal :=
  (discard s.invalidateView).finally fun n t => t.finish .ok (BitVec.ofNat 32 n)

end Sys2Proof.Machine
end

