-- ==== Sys2Proof/Machine/Dispatch.lean ====
section
/-! DEFINITION. One arm for each operation. -/

namespace Sys2Proof.Machine

def exec (i : Instr) (s : State) : Host.Outcome State Fault Refusal :=
  match i with
  | .nop => Sys2Proof.Machine.execNop s
  | .crcClr => Sys2Proof.Machine.execCrcClr s
  | .crcAdd b => Sys2Proof.Machine.execCrcAdd b s
  | .enc b => Sys2Proof.Machine.execEnc b s
  | .txEnd => Sys2Proof.Machine.execTxEnd s
  | .txBegin => Sys2Proof.Machine.execTxBegin s
  | .txByte b => Sys2Proof.Machine.execTxByte b s
  | .txPad n => Sys2Proof.Machine.execTxPad n s
  | .txFinal => Sys2Proof.Machine.execTxFinal s
  | .rxStep => Sys2Proof.Machine.execRxStep s
  | .tryRecv => Sys2Proof.Machine.execTryRecv s
  | .recv n => Sys2Proof.Machine.execRecv n s
  | .rxFlush => Sys2Proof.Machine.execRxFlush s
  | .sync => Sys2Proof.Machine.execSync s
  | .rdreg n => Sys2Proof.Machine.execRdreg n s
  | .rdbuf n => Sys2Proof.Machine.execRdbuf n s

end Sys2Proof.Machine
end

