-- ==== Sys2Proof/Machine/Port.lean ====
section
/-! DEFINITION. The command port: one command word taken and performed, and the reset that ends an operation which does
not complete (30_encoding.md R79, 70_reset_and_hazards.md R256, R257). -/

namespace Sys2Proof.Machine

/-- An operation that does not complete, in the state it began in: "only reset ends it" (I13), so where the host
presents the reset input, be it behind command words that are held meanwhile (R257), reset ends the operation. The
model's choices: reset comes when the listed answers are all taken, and then the peer may answer anything (log 13); a
held word may be dropped by the reset or still be held, which the spec leaves open (log 18). -/
def endedByReset (r : Fault) (s : State) : Host.Outcome State Fault Refusal :=
  match r with
  | .noSuchBufferByte => .fault .noSuchBufferByte
  | .peerNotDone =>
    match hostUntilReset s.hostq with
    | none => .fault .peerNotDone
    | some (held, q) => .next (s.abandon held q).applyReset

/-- One command word: its operation, or the report of an illegal word (R79). -/
def runWord (w : Word) (s : State) : Host.Outcome State Fault Refusal :=
  match decode w with
  | .error _ => .next s.reportIllegal
  | .ok i =>
    match exec i s with
    | .next t => .next t
    | .fault r => endedByReset r s
    | .refused r => .refused r

end Sys2Proof.Machine
end

