-- ==== Sys2Proof/Machine/Step.lean ====
section
/-! DEFINITION. One step: the block takes what the host presents next and performs it as one atomic transition
(00_scope.md R12, 70_reset_and_hazards.md R251, R257). -/

namespace Sys2Proof.Machine

/-- One step. With nothing presented the block waits and nothing changes (R251, R232). -/
def step (s : State) : Host.Outcome State Fault Refusal :=
  match s.fetch with
  | none => .next s
  | some (.rst, t) => .next t.applyReset
  | some (.command w, t) => runWord w t

/-- s with the `nbits` bits `w` of a table row presented on the command port as the word the block takes next
(log 7, log 12). -/
def State.withFetchWord (s : State) (nbits w : Nat) : State := s.present (BitVec.ofNat 32 (w % 2 ^ nbits))

end Sys2Proof.Machine
end

