-- ==== Sys2Proof/Machine/Assembler.lean ====
section
/-! DEFINITION. The assembler syntax of the spec (30_encoding.md R83): one line of text to one operation. It runs on
the host, not in the block; log 16 lists what R83 leaves open. -/

namespace Sys2Proof.Machine

/-- Why the assembler refuses a line. -/
inductive AsmError where
  /-- the first word is no mnemonic -/
  | mnemonic
  /-- the operation takes an operand and the line has none -/
  | operandMissing
  /-- the line has more words than the operation takes -/
  | operandExtra
  /-- the operand is no number, quoted character or register name -/
  | operandForm
  /-- the operand does not fit its class -/
  | operandRange
deriving DecidableEq, Repr

/-- The operand class of a mnemonic, with its operation (R77). -/
inductive AsmClass where
  | z (i : Instr)
  | b (i : Byte → Instr)
  | h (i : Half → Instr)
  | register

/-- The mnemonics (R78). -/
def asmTable : List (List Char × AsmClass) :=
  [("NOP".toList, .z .nop), ("CRC_CLR".toList, .z .crcClr), ("CRC_ADD".toList, .b .crcAdd), ("ENC".toList, .b .enc),
   ("TX_END".toList, .z .txEnd), ("TX_BEGIN".toList, .z .txBegin), ("TX_BYTE".toList, .b .txByte),
   ("TX_PAD".toList, .h .txPad), ("TX_FINAL".toList, .z .txFinal), ("RX_STEP".toList, .z .rxStep),
   ("TRY_RECV".toList, .z .tryRecv), ("RECV".toList, .h .recv), ("RX_FLUSH".toList, .z .rxFlush),
   ("SYNC".toList, .z .sync), ("RDREG".toList, .register), ("RDBUF".toList, .h .rdbuf)]

/-- The register names RDREG takes (R81). -/
def asmRegisters : List (List Char × Nat) :=
  [("STATUS".toList, 0), ("CRC".toList, 1), ("IDX".toList, 2), ("FLEN".toList, 3), ("PKT_CMD".toList, 4),
   ("PKT_ARGC".toList, 5), ("PKT_VALUE".toList, 6), ("CFG_CAP".toList, 7), ("CFG_SYNC_CMD".toList, 8),
   ("CFG_VERSION_CMD".toList, 9), ("CFG_SYNC_TIMEOUT".toList, 10), ("CFG_SYNC_VALUE".toList, 11)]

/-- The line's words, separated by blanks, up to a `;` that starts a comment; a quoted character is one word, be it a
blank or a `;` (R83). The first argument is the word being read, last character first. -/
def asmWords : List Char → List Char → List (List Char)
  | w, [] => if w.isEmpty then [] else [w.reverse]
  | w, '\'' :: c :: '\'' :: cs => asmWords ('\'' :: c :: '\'' :: w) cs
  | w, ';' :: _ => if w.isEmpty then [] else [w.reverse]
  | w, c :: cs =>
    if c = ' ' ∨ c = '\t' then
      if w.isEmpty then asmWords [] cs else w.reverse :: asmWords [] cs
    else asmWords (c :: w) cs

/-- The digits of both bases in the order of their values. -/
def asmDigitChars : List Char := "0123456789ABCDEF".toList

/-- The value of a digit of a base: its place among the base's digits; a small letter counts as its capital
(log 16). -/
def asmDigit (base : Nat) (c : Char) : Option Nat := (asmDigitChars.take base).idxOf? c.toUpper

/-- The value of digits of a base that follow a number already read. -/
def asmDigits (base : Nat) : Nat → List Char → Option Nat
  | v, [] => some v
  | v, c :: cs => (asmDigit base c).bind fun d => asmDigits base (v * base + d) cs

/-- A decimal number, a `0x` hexadecimal number, or a quoted character standing for its ASCII code (R83, G3). -/
def asmNumber : List Char → Option Nat
  | ['\'', c, '\''] => if c.toNat < 128 then some c.toNat else none
  | '0' :: 'x' :: c :: cs => asmDigits 16 0 (c :: cs)
  | c :: cs => asmDigits 10 0 (c :: cs)
  | [] => none

/-- An operand with its bound, or the reason it is refused; it is never truncated (R83). -/
def asmOperand (limit : Nat) (v : Option Nat) : Except AsmError Nat :=
  match v with
  | none => .error .operandForm
  | some n => if n < limit then .ok n else .error .operandRange

/-- The operation of a mnemonic's class with the operand words of its line (R83). -/
def asmOperation : AsmClass → List (List Char) → Except AsmError Instr
  | .z i, [] => .ok i
  | .z _, _ :: _ => .error .operandExtra
  | .b i, [w] => (asmOperand 256 (asmNumber w)).map fun n => i (BitVec.ofNat 8 n)
  | .h i, [w] => (asmOperand 65536 (asmNumber w)).map fun n => i (BitVec.ofNat 16 n)
  | .register, [w] =>
    (asmOperand 12 ((asmRegisters.lookup w).or (asmNumber w))).map fun n => .rdreg (BitVec.ofNat 16 n)
  | .b _, [] => .error .operandMissing
  | .h _, [] => .error .operandMissing
  | .register, [] => .error .operandMissing
  | .b _, _ :: _ :: _ => .error .operandExtra
  | .h _, _ :: _ :: _ => .error .operandExtra
  | .register, _ :: _ :: _ => .error .operandExtra

/-- One line of assembler text (R83): its operation, or none where the line is blank or only a comment. -/
def assemble (line : List Char) : Except AsmError (Option Instr) :=
  match asmWords [] line with
  | [] => .ok none
  | m :: operands =>
    match asmTable.lookup m with
    | none => .error .mnemonic
    | some c => (asmOperation c operands).map some

end Sys2Proof.Machine
end

