-- ==== Sys2Proof/Machine/Macros.lean ====
section
/-! DEFINITION. The host's side of an outbound request: the body of the wire format (30_encoding.md R72), the macros
of R84 as sequences of operations, and a host that issues a sequence. The block itself knows none of them (R136). -/

namespace Sys2Proof.Machine

/-- One parameter in a body: its length, its data bytes, zero padding to a multiple of 4 (R72). -/
def paramBytes (p : List Byte) : List Byte :=
  bytes16 (BitVec.ofNat 16 p.length) ++ p ++ List.replicate (padCount (BitVec.ofNat 16 p.length)) 0

/-- The body of a request before its checksum (R72). -/
def requestBody (cmd argc : Half) (value : Word) (ps : List (List Byte)) : List Byte :=
  bytes16 cmd ++ bytes16 argc ++ bytes32 value ++ ps.flatMap paramBytes

/-- The escaped form of a byte sequence (R71). -/
def escapeAll (bs : List Byte) : List Byte := bs.flatMap escape

/-- The wire form of a body: END, the escaped body, the escaped checksum low byte first, END (R72, R134). -/
def wireFrame (body : List Byte) : List Byte :=
  [slipEnd] ++ escapeAll body ++ escapeAll (bytes16 (crc16 body)) ++ [slipEnd]

/-- `TX_U16 v` (R84). -/
def txU16 (v : Half) : List Instr := (bytes16 v).map .txByte

/-- `TX_U32 v` (R84). -/
def txU32 (v : Word) : List Instr := (bytes32 v).map .txByte

/-- `TX_PARAM p[0..L-1]` (R84), for a length that fits its 16-bit field (log 17). -/
def txParam (p : List Byte) : List Instr :=
  txU16 (BitVec.ofNat 16 p.length) ++ p.map .txByte ++ [.txPad (BitVec.ofNat 16 p.length)]

/-- Every parameter's length fits the 16-bit length field (R6). -/
abbrev paramsFit (ps : List (List Byte)) : Prop := ∀ p ∈ ps, p.length < 2 ^ 16

/-- `TX_REQUEST cmd, argc, value, P1, ..., Pk` (R84); refused where a parameter's length does not fit, never
truncated (R83; log 17). -/
def txRequest (cmd argc : Half) (value : Word) (ps : List (List Byte)) : Option (List Instr) :=
  if paramsFit ps then
    some ([.txBegin] ++ txU16 cmd ++ txU16 argc ++ txU32 value ++ ps.flatMap txParam ++ [.txFinal])
  else none

/-- The host issues operations one after another, each when the one before has completed (R12, R257). -/
def issue : List Instr → State → Host.Outcome State Fault Refusal
  | [], s => .next s
  | i :: is, s =>
    match exec i s with
    | .next t => issue is t
    | .fault r => .fault r
    | .refused r => .refused r

end Sys2Proof.Machine
end

