-- ==== Sys2Proof/Safety.lean ====
section
/-! DEFINITION. What holds of the block between operations (10_state.md R37), and the kinds of operations, in the
terms the statements use. -/

namespace Sys2Proof.Machine

/-- The codes that `finish` ever writes to EVT (R221). -/
def eventCodes : List Byte :=
  [0x00, 0x01, 0x02, 0x03, 0x04, 0x05, 0x06, 0x07, 0x08, 0x09, 0x0A, 0xFF]

/-- The invariant of R37, clause by clause, with what other rules say of every state between operations. -/
structure State.Inv (s : State) : Prop where
  /-- FRAME_CAP is in its legal range (R5). -/
  legal : s.cfg.legal
  /-- `IDX <= FRAME_CAP` (R37). -/
  idxBound : s.idx.toNat ≤ s.cfg.cap
  /-- `OVF = 1` implies `IDX = FRAME_CAP` (R37). -/
  ovfFull : s.ovf = true → s.idx = s.cfg.frameCap
  /-- `PKT_VALID = 1` implies `8 <= FLEN <= FRAME_CAP`, `IDX = 0`, `ESC = 0` and `OVF = 0` (R37). -/
  view : s.pktValid = true →
    8 ≤ s.flen.toNat ∧ s.flen.toNat ≤ s.cfg.cap ∧ s.idx = 0 ∧ s.esc = false ∧ s.ovf = false
  /-- `PKT_VALID = 0` implies `FLEN = 0` (R37). -/
  noView : s.pktValid = false → s.flen = 0
  /-- `SYNCING = 0` (R29, R37). -/
  idle : s.syncing = false
  /-- The buffer is in its canonical form, the model's own (log 8). -/
  bufWf : s.buf.wf
  /-- No byte is held at `BUF[FRAME_CAP]` or beyond (R151). -/
  bufInside : ∀ c ∈ s.buf, c.1 < s.cfg.cap
  /-- Every byte of the partial frame was written since reset (R24, R25), as the model's list of written bytes has it (log 8). -/
  frameWritten : ∀ a < s.idx.toNat, (s.buf.read? a).isSome = true
  /-- Every byte of the packet view was written since reset (R24), in the same form (log 8). -/
  viewWritten : s.pktValid = true → ∀ a < s.flen.toNat, (s.buf.read? a).isSome = true
  /-- A packet view never carries SYNC_CMD (R184). -/
  viewNotSync : s.pktValid = true → s.packetCmd ≠ s.cfg.syncCmd
  /-- SYNC_LAST is never 3 (R30). -/
  syncLastCode : s.syncLast ≠ 3
  /-- EVT holds a code of R221. -/
  evtCode : s.evt ∈ eventCodes

/-- The receive-family operations: those that read the transport (R15). -/
def receiveFamily : Instr → Bool
  | .rxStep | .tryRecv | .recv _ | .rxFlush | .sync => true
  | .nop | .crcClr | .crcAdd _ | .enc _ | .txEnd | .txBegin | .txByte _ | .txPad _ | .txFinal => false
  | .rdreg _ | .rdbuf _ => false

/-- The endless peer of I13. -/
def Tail.isEndless : Tail → Bool
  | .silent => false
  | .unlisted _ => false
  | .endless _ => true

/-- The peer lets the loops of R256 end, the premise under which every operation completes: it falls silent, or its
answers are free and leave a gap (log 4); it is not the endless peer of I13. -/
abbrev State.peerLetsLoopsEnd (s : State) : Prop := s.rx.tail.isEndless = false

/-- The peer of a state after an operation that polled `drawn` past the listed answers: none of those is left then, and
the tail has gone on by their number (R57; logs 3 and 5). -/
def drewOn (s t : State) (drawn : List (Option Byte)) : Prop :=
  (drawn ≠ [] → t.rx.answers = []) ∧
  (s.rx.tail = .silent → t.rx.tail = .silent ∧ ∀ a ∈ drawn, a = none) ∧
  (∀ k, s.rx.tail = .unlisted k → t.rx.tail = .unlisted (k + drawn.length)) ∧
  (∀ k, s.rx.tail = .endless k → t.rx.tail = .endless (k + drawn.length) ∧ ∀ a ∈ drawn, a ≠ none)

/-- The outcomes the block may have (R220): a next state, or the stuck state of a loop that an endless peer keeps busy. -/
def safeOutcome : Host.Outcome State Fault Refusal → Prop
  | .next _ => True
  | .fault .peerNotDone => True
  | .fault .noSuchBufferByte => False
  | .refused _ => False

/-- No operation has this command word. -/
abbrev illegalWord (w : Word) : Prop := ∀ i : Instr, decode w ≠ .ok i

/-- The signals of the decoder for wire bytes taken one after another, and the state afterwards (R103). -/
def decodeAll : List Byte → State → List Signal × State
  | [], s => ([], s)
  | b :: bs, s => ((s.decodeIn b).1 :: (decodeAll bs (s.decodeIn b).2).1, (decodeAll bs (s.decodeIn b).2).2)

/-- How the wait of a SYNC procedure ends, by the rule's loop (R181): receives with the budget SYNC_RX_TIMEOUT, made
while SYNCING = 1, until one surfaces no packet, or the version response. -/
inductive WaitEnds : State → Bool → State → Prop where
  | nopacket {s t : State} : exec (.recv s.cfg.syncRxTimeout) s = .next t → t.evt = 0x02 → WaitEnds s false t
  | version {s t : State} : exec (.recv s.cfg.syncRxTimeout) s = .next t → t.evt = 0x01 →
      t.packetCmd = s.cfg.versionCmd → WaitEnds s true t
  | other {s t u : State} {ok : Bool} : exec (.recv s.cfg.syncRxTimeout) s = .next t → t.evt = 0x01 →
      t.packetCmd ≠ s.cfg.versionCmd → WaitEnds t ok u → WaitEnds s ok u

/-- The bytes a SYNC procedure writes: the marker, a bare END, the SYNC request (R181, R186). -/
def syncBytes (c : Config) : List Byte := syncMarker ++ [slipEnd] ++ wireFrame (syncBody c)

/-- The command identifier a body carries in its first two bytes (R72). -/
def bodyCmd (body : List Byte) : Half := u16le (body.getD 0 0) (body.getD 1 0)

/-- A body that makes a frame the validator accepts and the buffer can hold (R165). -/
abbrev bodyFits (c : Config) (body : List Byte) : Prop := 6 ≤ body.length ∧ body.length + 2 ≤ c.cap

/-- Poll answers that hand over the given wire bytes without a gap. -/
def handOver (ws : List Byte) : List (Option Byte) := ws.map some

/-- Poll answers of a peer that leaves so many gaps and then sends the frame of a body, again and again. -/
def gapsAndFrames (rounds : List (Nat × List Byte)) : List (Option Byte) :=
  rounds.flatMap fun r => List.replicate r.1 none ++ handOver (wireFrame r.2)

/-- Every such round is received within the budget of one receive of the sync wait, and is no version response. -/
abbrev roundsWithin (c : Config) (rounds : List (Nat × List Byte)) : Prop :=
  ∀ r ∈ rounds, r.1 < c.syncRxTimeout.toNat ∧ bodyFits c r.2 ∧ bodyCmd r.2 ≠ c.versionCmd

end Sys2Proof.Machine
end

