-- ==== Sys2Proof/Certificates/Slice0/Obligations.lean ====
section
/-! DEFINITION. The statements about the block, each from the numbered rules its docstring names. -/

open Sys2Proof Sys2Proof.Machine

/-! Reset and the invariant -/

/-- R250, R38: the reset input sets every register to its reset value, leaves the buffer's bytes unspecified (none is
listed), empties the TX log, and neither reads nor writes the transport; `State.reset` has the same values. -/
def Obligations.ResetSetsEveryRegister : Prop :=
  (∀ (s : State) (q : List HostInput), s.hostq = .rst :: q →
    ∃ t, step s = .next t ∧
      t.crc = 0x0000 ∧ t.esc = false ∧ t.idx = 0 ∧ t.ovf = false ∧ t.flen = 0 ∧ t.pktValid = false ∧
      t.syncing = false ∧ t.syncLast = 0 ∧ t.lastDrop = 0 ∧ t.evt = 0x00 ∧ t.result = 0x00000000 ∧
      t.txLog = [] ∧ (∀ a, t.buf.read? a = none) ∧ t.rx = s.rx ∧ t.cfg = s.cfg ∧ t.hostq = q) ∧
  State.reset.crc = 0x0000 ∧ State.reset.esc = false ∧ State.reset.idx = 0 ∧ State.reset.ovf = false ∧
  State.reset.flen = 0 ∧ State.reset.pktValid = false ∧ State.reset.syncing = false ∧ State.reset.syncLast = 0 ∧
  State.reset.lastDrop = 0 ∧ State.reset.evt = 0x00 ∧ State.reset.result = 0x00000000 ∧ State.reset.txLog = [] ∧
  (∀ a, State.reset.buf.read? a = none)

/-- The state right after reset meets the invariant, whose clauses are R37's and those that StepKeepsInvariant names. That
FRAME_CAP is legal there rests on log 2. -/
def Obligations.ResetMeetsInvariant : Prop := State.reset.Inv

/-- Every step that answers a next state keeps the invariant, from every state that meets it: the clauses of R37, the
parameter range of R5, the written bytes of R24, the codes of R30 and R221, the bound of R151 and the hidden SYNC packet
of R184. The clauses on the buffer's canonical form and on written bytes speak of the model's list of them (log 8). -/
def Obligations.StepKeepsInvariant : Prop :=
  ∀ s t : State, s.Inv → step s = .next t → t.Inv

/-- R220, R256: in every state between operations a step ends in a next state or, in a peer-bounded loop that an endless
peer keeps busy, does not end, which is the model's fault `peerNotDone` (log 4); the fault of a missing buffer byte does
not occur (log 9); and where the peer is not endless the step ends. -/
def Obligations.BlockNeverStopsByItself : Prop :=
  ∀ s : State, s.Inv → safeOutcome (step s) ∧ (s.peerLetsLoopsEnd → ∃ t, step s = .next t)

/-! Command words -/

/-- Decode and encode agree on every well-formed operation (R76, R77, R78). -/
def Obligations.DecodeOfEncode : Prop :=
  ∀ i : Instr, i.WellFormed → decode (encode i) = .ok i

/-- Every word the decoder accepts is the one encoding of a well-formed operation: no bit is dropped (R76, R79). -/
def Obligations.EncodeOfDecode : Prop :=
  ∀ (w : Word) (i : Instr), decode w = .ok i → i.WellFormed ∧ encode i = w

/-- R78: the 16 rows of the opcode map, with every operand of their class; from OPC 0x10 on there is none. -/
def Obligations.OpcodeMapRows : Prop :=
  (∀ w : Word, 0x10 ≤ w.toNat / 2 ^ 24 → illegalWord w) ∧
  decode 0x00000000 = .ok .nop ∧ decode 0x01000000 = .ok .crcClr ∧
  (∀ b : Byte, decode (0x02000000 + b.setWidth 32) = .ok (.crcAdd b)) ∧
  (∀ b : Byte, decode (0x03000000 + b.setWidth 32) = .ok (.enc b)) ∧
  decode 0x04000000 = .ok .txEnd ∧ decode 0x05000000 = .ok .txBegin ∧
  (∀ b : Byte, decode (0x06000000 + b.setWidth 32) = .ok (.txByte b)) ∧
  (∀ n : Half, decode (0x07000000 + n.setWidth 32) = .ok (.txPad n)) ∧
  decode 0x08000000 = .ok .txFinal ∧ decode 0x09000000 = .ok .rxStep ∧ decode 0x0A000000 = .ok .tryRecv ∧
  (∀ n : Half, decode (0x0B000000 + n.setWidth 32) = .ok (.recv n)) ∧
  decode 0x0C000000 = .ok .rxFlush ∧ decode 0x0D000000 = .ok .sync ∧
  (∀ n : Half, n.toNat ≤ 11 → decode (0x0E000000 + n.setWidth 32) = .ok (.rdreg n)) ∧
  (∀ n : Half, decode (0x0F000000 + n.setWidth 32) = .ok (.rdbuf n))

/-- R79: exactly the listed command words are illegal, and one changes EVT and RESULT and nothing else. -/
def Obligations.IllegalWordsChangeNothing : Prop :=
  ∀ w : Word,
    let opc := w.toNat / 2 ^ 24
    let rsv := w.toNat / 2 ^ 16 % 2 ^ 8
    let imm := w.toNat % 2 ^ 16
    let listed := 0x10 ≤ opc ∨ rsv ≠ 0 ∨
      (opc ∈ [0x00, 0x01, 0x04, 0x05, 0x08, 0x09, 0x0A, 0x0C, 0x0D] ∧ imm ≠ 0) ∨
      (opc ∈ [0x02, 0x03, 0x06] ∧ imm / 2 ^ 8 ≠ 0) ∨ (opc = 0x0E ∧ 11 < imm)
    (listed ↔ illegalWord w) ∧
    ∀ (s : State) (q : List HostInput), s.hostq = .command w :: q → listed →
      step s = .next { s with hostq := q, evt := 0xFF, result := 0 }

/-- Words written out from R76 and R78, and the operations they stand for (R83's examples among them). -/
def Obligations.SpecWordsDecode : Prop :=
  decode 0x030000C0 = .ok (.enc 0xC0) ∧ decode 0x02000041 = .ok (.crcAdd 0x41) ∧
  decode 0x06000041 = .ok (.txByte 0x41) ∧ decode 0x0B000064 = .ok (.recv 100) ∧
  decode 0x0E000004 = .ok (.rdreg 4) ∧ decode 0x0F00000A = .ok (.rdbuf 10) ∧ decode 0x0D000000 = .ok .sync

/-- A step at a state whose host presents a command word runs the operation the word decodes to, the word taken
(R12, R257). Only where that operation does not complete and the host presents reset, reset ends it (I13), whatever words
are held meanwhile: the block is reset, and of the peer and of the held words nothing is known but that those still held
are some of them in their order. When the reset comes, and that both are free then, is the model's (logs 13 and 18). -/
def Obligations.StepRunsDecodedOperation : Prop :=
  ∀ (s : State) (w : Word) (q : List HostInput) (i : Instr),
    s.hostq = .command w :: q → decode w = .ok i →
    (.rst ∉ q ∨ exec i { s with hostq := q } ≠ .fault .peerNotDone → step s = exec i { s with hostq := q }) ∧
    (∀ (held : List Word) (q' : List HostInput), q = held.map .command ++ .rst :: q' →
      exec i { s with hostq := q } = .fault .peerNotDone →
      ∃ (peer : Peer) (kept : List Word), kept.Sublist held ∧
        step s = .next (State.afterReset s.cfg peer (kept.map .command ++ q') (s.resets + 1)))

/-- R251: with nothing presented the block performs nothing. -/
def Obligations.IdleStepChangesNothing : Prop :=
  ∀ s : State, s.hostq = [] → step s = .next s

/-- R83, on the words of a line (log 16 says how a line falls into words and digits): each of the 16 mnemonics with the
operand words of its class gives its operation, the operand whole; an operand that does not fit its class is refused,
never truncated; RDREG takes the names of R81 and the numbers below 12; whatever line is accepted is a well-formed
operation. -/
def Obligations.AssembledLinesAreOperations : Prop :=
  (assemble "TX_BYTE 0x41".toList).map (·.map encode) = .ok (some 0x06000041) ∧
  (assemble "RECV 100".toList).map (·.map encode) = .ok (some 0x0B000064) ∧
  (assemble "RDREG PKT_CMD".toList).map (·.map encode) = .ok (some 0x0E000004) ∧
  (∀ (line : List Char) (i : Instr), assemble line = .ok (some i) → i.WellFormed) ∧
  (∀ (line : List Char) (m : String) (i : Instr) (operands : List (List Char)),
    (m, i) ∈ [("NOP", Instr.nop), ("CRC_CLR", .crcClr), ("TX_END", .txEnd), ("TX_BEGIN", .txBegin),
      ("TX_FINAL", .txFinal), ("RX_STEP", .rxStep), ("TRY_RECV", .tryRecv), ("RX_FLUSH", .rxFlush), ("SYNC", .sync)] →
    asmWords [] line = m.toList :: operands →
    assemble line = if operands = [] then .ok (some i) else .error .operandExtra) ∧
  (∀ (line w : List Char) (m : String) (i : Byte → Instr),
    (m, i) ∈ [("CRC_ADD", Instr.crcAdd), ("ENC", .enc), ("TX_BYTE", .txByte)] → asmWords [] line = [m.toList, w] →
    (∀ n, asmNumber w = some n →
      assemble line = if n < 2 ^ 8 then .ok (some (i (BitVec.ofNat 8 n))) else .error .operandRange) ∧
    (asmNumber w = none → assemble line = .error .operandForm)) ∧
  (∀ (line w : List Char) (m : String) (i : Half → Instr),
    (m, i) ∈ [("TX_PAD", Instr.txPad), ("RECV", .recv), ("RDBUF", .rdbuf)] → asmWords [] line = [m.toList, w] →
    (∀ n, asmNumber w = some n →
      assemble line = if n < 2 ^ 16 then .ok (some (i (BitVec.ofNat 16 n))) else .error .operandRange) ∧
    (asmNumber w = none → assemble line = .error .operandForm)) ∧
  (∀ line w : List Char, asmWords [] line = ["RDREG".toList, w] →
    let names := ["STATUS", "CRC", "IDX", "FLEN", "PKT_CMD", "PKT_ARGC", "PKT_VALUE", "CFG_CAP", "CFG_SYNC_CMD",
      "CFG_VERSION_CMD", "CFG_SYNC_TIMEOUT", "CFG_SYNC_VALUE"]
    (∀ k name, names[k]? = some name → w = name.toList → assemble line = .ok (some (.rdreg (BitVec.ofNat 16 k)))) ∧
    (∀ n, asmNumber w = some n →
      assemble line = if n < 12 then .ok (some (.rdreg (BitVec.ofNat 16 n))) else .error .operandRange) ∧
    (asmNumber w = none → (∀ name ∈ names, w ≠ name.toList) → assemble line = .error .operandForm)) ∧
  (∀ (line : List Char) (m : String) (operands : List (List Char)),
    m ∈ ["CRC_ADD", "ENC", "TX_BYTE", "TX_PAD", "RECV", "RDBUF", "RDREG"] →
    asmWords [] line = m.toList :: operands →
    (operands = [] → assemble line = .error .operandMissing) ∧
    (1 < operands.length → assemble line = .error .operandExtra))

/-! Operations that do not read the transport: each result with its frame, every field not named unchanged -/

/-- R204: NOP. -/
def Obligations.NopResult : Prop :=
  (∀ s : State, exec .nop s = .next { s with evt := 0x00, result := 0 }) ∧
  encode .nop = 0x00000000 ∧ (∀ n : Half, n ≠ 0 → illegalWord (n.setWidth 32))

/-- R121: CRC_CLR. -/
def Obligations.CrcClrResult : Prop :=
  (∀ s : State, exec .crcClr s = .next { s with crc := 0x0000, evt := 0x00, result := 0 }) ∧
  encode .crcClr = 0x01000000 ∧ (∀ n : Half, n ≠ 0 → illegalWord (0x01000000 + n.setWidth 32))

/-- R122: CRC_ADD folds the byte, and RESULT is the new CRC. -/
def Obligations.CrcAddResult : Prop :=
  (∀ (b : Byte) (s : State), exec (.crcAdd b) s =
    .next { s with crc := crcStep s.crc b, evt := 0x00, result := (crcStep s.crc b).setWidth 32 }) ∧
  (∀ b : Byte, encode (.crcAdd b) = 0x02000000 + b.setWidth 32) ∧
  (∀ n : Half, 0xFF < n.toNat → illegalWord (0x02000000 + n.setWidth 32)) ∧
  crcStep 0x0000 0x00 = 0x0000 ∧ crcStep 0x0000 0x41 = 0x538D

/-- R101: ENC writes the escaped form of the byte and leaves the CRC and everything else alone. -/
def Obligations.EncResult : Prop :=
  (∀ (b : Byte) (s : State),
    let wire : List Byte := if b = 0xC0 then [0xDB, 0xDC] else if b = 0xDB then [0xDB, 0xDD] else [b]
    exec (.enc b) s =
      .next { s with txLog := s.txLog ++ wire, evt := 0x00, result := if b = 0xC0 ∨ b = 0xDB then 2 else 1 }) ∧
  (∀ b : Byte, encode (.enc b) = 0x03000000 + b.setWidth 32) ∧
  (∀ n : Half, 0xFF < n.toNat → illegalWord (0x03000000 + n.setWidth 32))

/-- R102: TX_END writes a bare END; CRC unchanged. -/
def Obligations.TxEndResult : Prop :=
  (∀ s : State, exec .txEnd s = .next { s with txLog := s.txLog ++ [0xC0], evt := 0x00, result := 1 }) ∧
  encode .txEnd = 0x04000000 ∧ (∀ n : Half, n ≠ 0 → illegalWord (0x04000000 + n.setWidth 32))

/-- R130: TX_BEGIN writes a bare END and clears the CRC. -/
def Obligations.TxBeginResult : Prop :=
  (∀ s : State, exec .txBegin s =
    .next { s with txLog := s.txLog ++ [0xC0], crc := 0x0000, evt := 0x00, result := 1 }) ∧
  encode .txBegin = 0x05000000 ∧ (∀ n : Half, n ≠ 0 → illegalWord (0x05000000 + n.setWidth 32))

/-- R131: TX_BYTE writes the escaped form of the byte and folds the byte itself. -/
def Obligations.TxByteResult : Prop :=
  (∀ (b : Byte) (s : State),
    let wire : List Byte := if b = 0xC0 then [0xDB, 0xDC] else if b = 0xDB then [0xDB, 0xDD] else [b]
    exec (.txByte b) s =
      .next { s with txLog := s.txLog ++ wire, crc := crcStep s.crc b, evt := 0x00,
                     result := if b = 0xC0 ∨ b = 0xDB then 2 else 1 }) ∧
  (∀ b : Byte, encode (.txByte b) = 0x06000000 + b.setWidth 32) ∧
  (∀ n : Half, 0xFF < n.toNat → illegalWord (0x06000000 + n.setWidth 32)) ∧
  crcStep 0x0000 0x41 = 0x538D

/-- R132: TX_PAD n writes `(4 - (n mod 4)) mod 4` unescaped zeros and folds each; every n is legal. -/
def Obligations.TxPadResult : Prop :=
  (∀ (n : Half) (s : State),
    let k := (4 - n.toNat % 4) % 4
    exec (.txPad n) s =
      .next { s with txLog := s.txLog ++ List.replicate k 0x00, crc := (List.replicate k 0x00).foldl crcStep s.crc,
                     evt := 0x00, result := BitVec.ofNat 32 k }) ∧
  (∀ n : Half, encode (.txPad n) = 0x07000000 + n.setWidth 32 ∧
    decode (0x07000000 + n.setWidth 32) = .ok (.txPad n))

/-- R133: TX_FINAL sends the CRC snapshot, low byte first and escaped, then END; CRC keeps its value. -/
def Obligations.TxFinalResult : Prop :=
  (∀ s : State, exec .txFinal s =
    .next { s with txLog := s.txLog ++ escape (s.crc.setWidth 8) ++ escape ((s.crc >>> 8).setWidth 8) ++ [0xC0],
                   evt := 0x00, result := s.crc.setWidth 32 }) ∧
  encode .txFinal = 0x08000000 ∧ (∀ n : Half, n ≠ 0 → illegalWord (0x08000000 + n.setWidth 32))

/-- R201: RDREG reads each register of its table; the packet fields need a view; a number above 11 is illegal. -/
def Obligations.RdregResults : Prop :=
  ∀ s : State,
    let ok (v : Word) : Host.Outcome State Fault Refusal := .next { s with evt := 0x00, result := v }
    let range : Host.Outcome State Fault Refusal := .next { s with evt := 0x0A, result := 0 }
    exec (.rdreg 0) s = ok (statusWord s) ∧
    exec (.rdreg 1) s = ok (s.crc.setWidth 32) ∧
    exec (.rdreg 2) s = ok (s.idx.setWidth 32) ∧
    exec (.rdreg 3) s = ok (s.flen.setWidth 32) ∧
    (s.pktValid = false → exec (.rdreg 4) s = range ∧ exec (.rdreg 5) s = range ∧ exec (.rdreg 6) s = range) ∧
    (s.pktValid = true → s.cfg.legal →
      exec (.rdreg 4) s = ok (BitVec.ofNat 32 ((s.byteAt 0).toNat + (s.byteAt 1).toNat * 2 ^ 8)) ∧
      exec (.rdreg 5) s = ok (BitVec.ofNat 32 ((s.byteAt 2).toNat + (s.byteAt 3).toNat * 2 ^ 8)) ∧
      exec (.rdreg 6) s = ok (BitVec.ofNat 32 ((s.byteAt 4).toNat + (s.byteAt 5).toNat * 2 ^ 8 +
        (s.byteAt 6).toNat * 2 ^ 16 + (s.byteAt 7).toNat * 2 ^ 24))) ∧
    exec (.rdreg 7) s = ok (s.cfg.frameCap.setWidth 32) ∧
    exec (.rdreg 8) s = ok (s.cfg.syncCmd.setWidth 32) ∧
    exec (.rdreg 9) s = ok (s.cfg.versionCmd.setWidth 32) ∧
    exec (.rdreg 10) s = ok (s.cfg.syncRxTimeout.setWidth 32) ∧
    exec (.rdreg 11) s = ok s.cfg.syncReqValue ∧
    (∀ n : Half, n.toNat ≤ 11 → encode (.rdreg n) = 0x0E000000 + n.setWidth 32) ∧
    (∀ n : Half, 11 < n.toNat → illegalWord (0x0E000000 + n.setWidth 32))

/-- R34: STATUS is the sum of its fields at their bit positions, bits 31 to 16 zero; RDREG 0 reads it; between
operations its SYNCING bit reads 0. -/
def Obligations.StatusIsComposite : Prop :=
  ∀ s : State,
    (statusWord s).toNat =
      s.evt.toNat + s.esc.toNat * 2 ^ 8 + s.ovf.toNat * 2 ^ 9 + s.pktValid.toNat * 2 ^ 10 + s.syncing.toNat * 2 ^ 11
        + s.syncLast.toNat * 2 ^ 12 + s.lastDrop.toNat * 2 ^ 14 ∧
    exec (.rdreg 0) s = .next { s with evt := 0x00, result := statusWord s } ∧
    (s.Inv → (statusWord s).getLsbD 11 = false)

/-- R202: RDBUF gives byte n of the view, RANGE without a view or past its end; no 16-bit n is illegal. The premise
of the first clause is R37's bound on FLEN. -/
def Obligations.RdbufResult : Prop :=
  ∀ (s : State) (n : Half),
    (s.pktValid = true → n.toNat < s.flen.toNat → s.flen.toNat ≤ s.cfg.cap →
      exec (.rdbuf n) s = .next { s with evt := 0x00, result := (s.byteAt n.toNat).setWidth 32 }) ∧
    (s.pktValid = false ∨ s.flen.toNat ≤ n.toNat →
      exec (.rdbuf n) s = .next { s with evt := 0x0A, result := 0 }) ∧
    encode (.rdbuf n) = 0x0F000000 + n.setWidth 32 ∧ decode (0x0F000000 + n.setWidth 32) = .ok (.rdbuf n)

/-- R54: the reads of the buffer are idempotent: operations that do not receive leave what RDBUF and the packet
registers answer. -/
def Obligations.ReadsRepeatUntilReceive : Prop :=
  ∀ (s t : State) (is : List Instr), (∀ i ∈ is, receiveFamily i = false) → issue is s = .next t →
    (∀ a, t.byteAt a = s.byteAt a) ∧
    ∀ (i : Instr) (u : State), ((∃ n, i = .rdbuf n) ∨ i = .rdreg 4 ∨ i = .rdreg 5 ∨ i = .rdreg 6) →
      exec i s = .next u → ∃ v, exec i t = .next v ∧ v.evt = u.evt ∧ v.result = u.result

/-- The frame of every operation that does not read the transport: at most CRC, the TX log, EVT and RESULT change, and
CRC and the TX log only by the operations that name them (R52 to R54, R101, R102, R121, R122, R130 to R133, R200 to
R204). -/
def Obligations.NonReceiveFrame : Prop :=
  ∀ (i : Instr) (s t : State), receiveFamily i = false → exec i s = .next t →
    t = { s with crc := t.crc, txLog := t.txLog, evt := t.evt, result := t.result } ∧
    (t.crc ≠ s.crc → i = .crcClr ∨ (∃ b, i = .crcAdd b) ∨ i = .txBegin ∨ (∃ b, i = .txByte b) ∨ ∃ n, i = .txPad n) ∧
    (t.txLog ≠ s.txLog →
      (∃ b, i = .enc b) ∨ i = .txEnd ∨ i = .txBegin ∨ (∃ b, i = .txByte b) ∨ (∃ n, i = .txPad n) ∨ i = .txFinal)

/-! The CRC engine and the SLIP codec -/

/-- R125: zero input leaves the accumulator at zero, however long. -/
def Obligations.CrcOfZeros : Prop :=
  crcStep 0x0000 0x00 = 0x0000 ∧ ∀ n : Nat, crc16 (List.replicate n 0x00) = 0x0000

/-- The transform is linear over exclusive or (a property of the transform of R120). -/
def Obligations.CrcStepIsLinear : Prop :=
  ∀ (a b : Half) (v w : Byte), crcStep (a ^^^ b) (v ^^^ w) = crcStep a v ^^^ crcStep b w

/-- R124: CRC_CLR and then CRC_ADD of each byte leave the checksum of the bytes in CRC, RESULT the last value. -/
def Obligations.CrcAddsComputeChecksum : Prop :=
  ∀ (bs : List Byte) (s : State), ∃ r,
    issue (.crcClr :: bs.map .crcAdd) s =
      .next { s with crc := bs.foldl crcStep 0x0000, evt := 0x00, result := r } ∧
    (bs ≠ [] → r = (bs.foldl crcStep 0x0000).setWidth 32)

/-- R108: the wire bytes EncodeOut writes for a byte decode to exactly that byte and leave ESC clear, and there are two
of them exactly for 0xC0 and 0xDB. -/
def Obligations.SlipRoundTrip : Prop :=
  ∀ (d : Byte) (s u : State), s.esc = false →
    ∃ (ws : List Byte) (t : State), exec (.enc d) u = .next t ∧ t.txLog = u.txLog ++ ws ∧
      decodeAll ws s = (if d = 0xC0 ∨ d = 0xDB then [.nothing, .data d] else [.data d], s) ∧
      (t.result = 2 ↔ d = 0xC0 ∨ d = 0xDB) ∧ (t.result = 2 ↔ ws.length = 2)

/-- R71: an escaped stream holds no END, and decodes to the data bytes in order with no boundary. -/
def Obligations.EscapedStreamDecodes : Prop :=
  ∀ (bs : List Byte) (s : State), s.esc = false →
    (0xC0 : Byte) ∉ escapeAll bs ∧ (decodeAll (escapeAll bs) s).2 = s ∧
    (decodeAll (escapeAll bs) s).1.filter (· ≠ .nothing) = bs.map .data

/-! RX_STEP -/

/-- R160: a poll that finds no byte gives EMPTY; only the view is invalidated. -/
def Obligations.RxStepWithoutByte : Prop :=
  ∀ (s : State) (rest : List (Option Byte)),
    (s.rx.answers = none :: rest ∨ (s.rx.answers = [] ∧ rest = [] ∧ s.rx.tail = .silent)) →
      exec .rxStep s = .next { s with rx := ⟨rest, s.rx.tail⟩, pktValid := false, flen := 0, evt := 0x04, result := 0 }

/-- Polls past the listed answers draw free answers, whatever they are (R57; that they are `Config.rxOracle`,
`Config.endlessByte` and a gap after `Config.rxHorizon` polls of a loop is the model's, logs 4 and 5). RX_STEP makes one
such poll and goes on as for a listed answer; TRY_RECV, but for a SYNC procedure it intercepts, and RX_FLUSH make such
polls one after another, up to the gap, and do what they do where those answers are listed. -/
def Obligations.UnlistedPollsDrawFreeAnswers : Prop :=
  (∀ (s : State) (k : Nat), s.rx = ⟨[], .unlisted k⟩ →
    exec .rxStep s = exec .rxStep { s with rx := ⟨[Config.rxOracle s.resets k], .unlisted (k + 1)⟩ }) ∧
  (∀ (s : State) (k : Nat), s.rx = ⟨[], .endless k⟩ →
    exec .rxStep s = exec .rxStep { s with rx := ⟨[some (Config.endlessByte s.resets k)], .endless (k + 1)⟩ }) ∧
  (∀ (s : State) (k : Nat), s.rx = ⟨[], .unlisted k⟩ → s.idx.toNat ≤ s.cfg.cap →
    let polls := (List.range (Config.rxHorizon s.resets k)).map (fun j => Config.rxOracle s.resets (k + j)) ++ [none]
    ∀ i ∈ [Instr.tryRecv, .rxFlush], ∃ t, exec i { s with rx := ⟨polls, .silent⟩ } = .next t ∧
      (t.evt = 0x07 ∨ t.evt = 0x08 ∨
        exec i s = .next { t with rx := ⟨[], .unlisted (k + (polls.length - t.rx.answers.length))⟩ }))

/-- R104, R105, R151: an ESC byte arms or re-arms the flag and stores nothing; any other byte but END is decoded
(after an ESC, 0xDC stands for END, 0xDD for ESC, every other byte for itself) and stored at `BUF[IDX]`; a byte past
FRAME_CAP marks the frame oversized, and while it is marked nothing is stored. No other byte of the buffer changes. -/
def Obligations.RxStepDecodesAndStores : Prop :=
  (∀ (s : State) (rest : List (Option Byte)), s.rx.answers = some 0xDB :: rest →
    exec .rxStep s = .next { s with rx := ⟨rest, s.rx.tail⟩, rxTaken := s.rxTaken + 1, pktValid := false, flen := 0,
                                    esc := true, evt := 0x03, result := 0 }) ∧
  (∀ (s : State) (b : Byte) (rest : List (Option Byte)),
    s.rx.answers = some b :: rest → b ≠ 0xC0 → b ≠ 0xDB →
    let v : Byte := if s.esc = true ∧ b = 0xDC then 0xC0 else if s.esc = true ∧ b = 0xDD then 0xDB else b
    let stored := s.ovf = false ∧ s.idx.toNat < s.cfg.cap
    ∃ t, exec .rxStep s = .next t ∧
      t = { s with rx := ⟨rest, s.rx.tail⟩, rxTaken := s.rxTaken + 1, pktValid := false, flen := 0, esc := false,
                   buf := t.buf, idx := t.idx, ovf := t.ovf, evt := 0x03, result := 0 } ∧
      (stored → t.byteAt s.idx.toNat = v ∧ t.idx.toNat = s.idx.toNat + 1 ∧ t.ovf = false ∧
        ∀ a, a ≠ s.idx.toNat → t.byteAt a = s.byteAt a) ∧
      (¬ stored → t.buf = s.buf ∧ t.idx = s.idx ∧ t.ovf = true))

/-- R153, with the other ends of R152 that compute no checksum: an END after an oversized frame, after nothing and
after a frame of 1 to 7 bytes: the drop is recorded, or nothing for the empty frame; the assembler is cleared, a
pending escape with it (R106), and CRC is not written. -/
def Obligations.RxStepEndWithoutChecksum : Prop :=
  ∀ (s : State) (rest : List (Option Byte)), s.rx.answers = some 0xC0 :: rest → s.cfg.legal →
    let t : State := { s with rx := ⟨rest, s.rx.tail⟩, rxTaken := s.rxTaken + 1, pktValid := false, flen := 0,
                              idx := 0, esc := false, ovf := false, result := 0 }
    if s.ovf = true then exec .rxStep s = .next { t with lastDrop := 3, evt := 0x05 }
    else if s.idx = 0 then exec .rxStep s = .next { t with evt := 0x06 }
    else if s.idx.toNat < 8 then exec .rxStep s = .next { t with lastDrop := 1, evt := 0x05 }
    else True

/-- R154, R155: an END after a frame of at least 8 stored bytes: CRC becomes the checksum of all but the last two; on
a match with those two, low byte first, the view spans the frame (unless SYNC intercepts it, R180), else the frame is
dropped. -/
def Obligations.RxStepEndValidates : Prop :=
  ∀ (s : State) (rest : List (Option Byte)), s.rx.answers = some 0xC0 :: rest → s.ovf = false →
    8 ≤ s.idx.toNat → s.idx.toNat ≤ s.cfg.cap →
    let m := s.idx.toNat
    let c := (List.range (m - 2)).foldl (fun a i => crcStep a (s.byteAt i)) 0x0000
    let t : State := { s with rx := ⟨rest, s.rx.tail⟩, rxTaken := s.rxTaken + 1, idx := 0, esc := false, crc := c }
    (c.toNat ≠ (s.byteAt (m - 2)).toNat + (s.byteAt (m - 1)).toNat * 2 ^ 8 →
      exec .rxStep s = .next { t with pktValid := false, flen := 0, lastDrop := 2, evt := 0x05, result := 0 }) ∧
    (c.toNat = (s.byteAt (m - 2)).toNat + (s.byteAt (m - 1)).toNat * 2 ^ 8 →
      s.syncing = true ∨ s.packetCmd ≠ s.cfg.syncCmd →
      exec .rxStep s = .next { t with pktValid := true, flen := s.idx, evt := 0x01, result := 1 })

/-! The receive operations -/

/-- R158, R161: TRY_RECV is RX_STEP repeated until a step reports a packet, a SYNC procedure or no byte. -/
def Obligations.TryRecvIsRepeatedRxStep : Prop :=
  (∀ (s t : State) (b : Byte) (rest : List (Option Byte)), s.rx.answers = some b :: rest →
    exec .rxStep s = .next t →
    (t.evt ∈ [0x03, 0x05, 0x06] → exec .tryRecv s = exec .tryRecv t) ∧
    (t.evt ∈ [0x01, 0x07, 0x08] → exec .tryRecv s = .next t) ∧
    (t.evt ∈ [0x03, 0x05, 0x06] ∨ t.evt ∈ [0x01, 0x07, 0x08])) ∧
  (∀ (s : State) (b : Byte) (rest : List (Option Byte)) (r : Fault), s.rx.answers = some b :: rest →
    exec .rxStep s = .fault r → exec .tryRecv s = .fault r) ∧
  (∀ (s : State) (rest : List (Option Byte)),
    (s.rx.answers = none :: rest ∨ (s.rx.answers = [] ∧ rest = [] ∧ s.rx.tail = .silent)) →
    exec .tryRecv s =
      .next { s with rx := ⟨rest, s.rx.tail⟩, pktValid := false, flen := 0, evt := 0x02, result := 0 })

/-- R159, R162: RECV 0 polls nothing; RECV n is one TRY_RECV and then, unless that surfaced a packet, RECV n - 1. -/
def Obligations.RecvIsBoundedTryRecv : Prop :=
  (∀ s : State, exec (.recv 0) s = .next { s with pktValid := false, flen := 0, evt := 0x02, result := 0 }) ∧
  (∀ (s t : State) (n : Half), n ≠ 0 → exec .tryRecv s = .next t →
    exec (.recv n) s = if t.evt = 0x01 then .next t else exec (.recv (n - 1)) t) ∧
  (∀ (s : State) (n : Half) (r : Fault), n ≠ 0 → exec .tryRecv s = .fault r → exec (.recv n) s = .fault r)

/-- R163, R164: RX_FLUSH consumes the available bytes undecoded up to the first `none`, clears the partial frame and
answers their number; CRC, LASTDROP and SYNC_LAST are unchanged, nothing is written. -/
def Obligations.RxFlushDiscards : Prop :=
  (∀ (s : State) (bs : List Byte) (rest : List (Option Byte)),
    (s.rx.answers = handOver bs ++ none :: rest ∨
      (s.rx.answers = handOver bs ∧ rest = [] ∧ s.rx.tail = .silent)) →
    exec .rxFlush s =
      .next { s with rx := ⟨rest, s.rx.tail⟩, rxTaken := s.rxTaken + bs.length, pktValid := false, flen := 0,
                     idx := 0, esc := false, ovf := false, evt := 0x00, result := BitVec.ofNat 32 bs.length }) ∧
  encode .rxFlush = 0x0C000000 ∧ (∀ n : Half, n ≠ 0 → illegalWord (0x0C000000 + n.setWidth 32))

/-- R256: bytes without end keep RX_FLUSH from completing, and, with no END among those listed, TRY_RECV and RECV. The
endless peer is the model's form of them (log 4). -/
def Obligations.EndlessBytesKeepPolling : Prop :=
  ∀ (s : State) (bs : List Byte) (k : Nat), s.rx = ⟨handOver bs, .endless k⟩ →
    exec .rxFlush s = .fault .peerNotDone ∧
    ((0xC0 : Byte) ∉ bs → exec .tryRecv s = .fault .peerNotDone ∧
      ∀ n : Half, n ≠ 0 → exec (.recv n) s = .fault .peerNotDone)

/-- R256: unless the peer is endless every receive operation completes, with an event of its own list (R221): where the
peer falls silent, and, in the model's form of answers not listed, where these are free (log 4). -/
def Obligations.ReceiveCompletesUnlessPeerEndless : Prop :=
  ∀ s : State, s.peerLetsLoopsEnd → s.idx.toNat ≤ s.cfg.cap →
    (∃ t, exec .rxStep s = .next t ∧ t.evt ∈ [0x01, 0x03, 0x04, 0x05, 0x06, 0x07, 0x08]) ∧
    (∃ t, exec .tryRecv s = .next t ∧ t.evt ∈ [0x01, 0x02, 0x07, 0x08]) ∧
    (∀ n : Half, ∃ t, exec (.recv n) s = .next t ∧ t.evt ∈ [0x01, 0x02]) ∧
    (∃ t, exec .rxFlush s = .next t ∧ t.evt = 0x00) ∧
    (s.syncing = false → ∃ t, exec .sync s = .next t ∧ t.evt ∈ [0x07, 0x08])

/-- R165, first half: the wire form of any body of 6 to FRAME_CAP - 2 bytes with its checksum is received as a packet
whose view is that body and checksum; what follows stays with the peer. Its command is not SYNC_CMD (R180). -/
def Obligations.IntactFrameIsReceived : Prop :=
  ∀ (s : State) (body : List Byte) (rest : List (Option Byte)),
    s.idx = 0 → s.ovf = false → bodyFits s.cfg body → (bodyCmd body ≠ s.cfg.syncCmd ∨ s.syncing = true) →
    s.rx.answers = handOver (wireFrame body) ++ rest →
    ∃ t, exec .tryRecv s = .next t ∧
      t = { s with rx := ⟨rest, s.rx.tail⟩, rxTaken := s.rxTaken + (wireFrame body).length, buf := t.buf, esc := false,
                   crc := crc16 body, pktValid := true, flen := BitVec.ofNat 16 (body.length + 2),
                   evt := 0x01, result := 1 } ∧
      t.span (body.length + 2) = body ++ bytes16 (crc16 body)

/-- R165, second half: a frame that validates no longer does when any single bit of it is flipped: it is dropped for
its checksum. -/
def Obligations.SingleBitFlipIsDropped : Prop :=
  ∀ (s : State) (rest : List (Option Byte)) (k j : Nat),
    s.rx.answers = some 0xC0 :: rest → s.ovf = false → 8 ≤ s.idx.toNat → s.idx.toNat ≤ s.cfg.cap →
    crc16 (s.span (s.idx.toNat - 2)) = u16le (s.byteAt (s.idx.toNat - 2)) (s.byteAt (s.idx.toNat - 1)) →
    k < s.idx.toNat → j < 8 →
    ∃ t, exec .rxStep { s with buf := s.buf.write k (s.byteAt k ^^^ BitVec.twoPow 8 j) } = .next t ∧
      t.evt = 0x05 ∧ t.lastDrop = 2 ∧ t.pktValid = false

/-- R166: any frame shorter than 8 bytes is rejected regardless of content: no packet, CRC unchanged, LASTDROP = SHORT
unless the frame is empty (R152). -/
def Obligations.ShortFrameIsRejected : Prop :=
  ∀ (s : State) (body : List Byte) (rest : List (Option Byte)),
    s.idx = 0 → s.esc = false → s.ovf = false → s.cfg.legal → body.length < 8 →
    s.rx.answers = handOver (escapeAll body ++ [0xC0]) ++ none :: rest →
    ∃ t, exec .tryRecv s = .next t ∧
      t = { s with rx := ⟨rest, s.rx.tail⟩, rxTaken := s.rxTaken + (escapeAll body).length + 1, buf := t.buf,
                   pktValid := false, flen := 0, lastDrop := if body = [] then s.lastDrop else 1,
                   evt := 0x02, result := 0 }

/-- R151, R152: a frame of more than FRAME_CAP bytes is dropped whole, CRC unchanged, and no byte is written at or past
FRAME_CAP. -/
def Obligations.OversizeFrameIsDropped : Prop :=
  ∀ (s : State) (body : List Byte) (rest : List (Option Byte)),
    s.idx = 0 → s.esc = false → s.ovf = false → s.cfg.cap < body.length →
    s.rx.answers = handOver (escapeAll body ++ [0xC0]) ++ none :: rest →
    ∃ t, exec .tryRecv s = .next t ∧
      t = { s with rx := ⟨rest, s.rx.tail⟩, rxTaken := s.rxTaken + (escapeAll body).length + 1, buf := t.buf,
                   pktValid := false, flen := 0, lastDrop := 3, evt := 0x02, result := 0 } ∧
      ∀ a, s.cfg.cap ≤ a → t.byteAt a = s.byteAt a

/-- R150: a receive operation leaves a view exactly where it reports a packet, and no FLEN without one; every other
operation keeps the view and its bytes. -/
def Obligations.ViewLivesUntilReceive : Prop :=
  ∀ (i : Instr) (s t : State), exec i s = .next t →
    (receiveFamily i = true → (i = .sync → s.syncing = false) →
      (t.pktValid = true ↔ t.evt = 0x01) ∧ (t.pktValid = false → t.flen = 0)) ∧
    (receiveFamily i = false → t.pktValid = s.pktValid ∧ t.flen = s.flen ∧ ∀ a, t.byteAt a = s.byteAt a)

/-- R255: after a receive operation that reports no packet the reads of the view give RANGE, also where the state
before it had a view. -/
def Obligations.StaleViewIsOutOfRange : Prop :=
  ∀ (i : Instr) (s t : State), receiveFamily i = true → s.syncing = false → exec i s = .next t → t.evt ≠ 0x01 →
    (∀ n : Half, exec (.rdbuf n) t = .next { t with evt := 0x0A, result := 0 }) ∧
    (∀ n : Half, 4 ≤ n.toNat → n.toNat ≤ 6 → exec (.rdreg n) t = .next { t with evt := 0x0A, result := 0 })

/-- The frame of RX_STEP and TRY_RECV where no SYNC procedure ran, and of RX_FLUSH: nothing is transmitted, and the
controller, the parameters and the host's queue are as before (R160, R161, R164, R30). RECV transmits a whole number of
SYNC procedures, and where that number is 0 the same holds of it (R162, R180, R181). -/
def Obligations.ReceiveFrame : Prop :=
  (∀ (i : Instr) (s t : State), i ∈ [Instr.rxStep, .tryRecv, .rxFlush] → exec i s = .next t →
    t.evt ≠ 0x07 → t.evt ≠ 0x08 →
    t.txLog = s.txLog ∧ t.syncLast = s.syncLast ∧ t.syncing = s.syncing ∧ t.cfg = s.cfg ∧ t.hostq = s.hostq ∧
    t.resets = s.resets) ∧
  (∀ (n : Half) (s t : State), exec (.recv n) s = .next t →
    ∃ k : Nat, k ≤ n.toNat ∧ t.txLog = s.txLog ++ (List.replicate k (syncBytes s.cfg)).flatten ∧
      (k = 0 → t.syncLast = s.syncLast) ∧ (k ≠ 0 → t.syncLast = 1 ∨ t.syncLast = 2) ∧
      t.syncing = s.syncing ∧ t.cfg = s.cfg ∧ t.hostq = s.hostq ∧ t.resets = s.resets)

/-- R57, R58: an operation only appends to the TX log, and the bytes it takes are the peer's, the listed ones and then
those drawn, in order and each once; one outside the receive family takes none. -/
def Obligations.TransportKeepsOrder : Prop :=
  ∀ (i : Instr) (s t : State), exec i s = .next t →
    (∃ ws, t.txLog = s.txLog ++ ws) ∧
    (∃ drawn taken, s.rx.answers ++ drawn = taken ++ t.rx.answers ∧ drewOn s t drawn ∧
      t.rxTaken = s.rxTaken + (taken.filter Option.isSome).length) ∧
    (t.rx.tail = s.rx.tail →
      ∃ taken, s.rx.answers = taken ++ t.rx.answers ∧
        t.rxTaken = s.rxTaken + (taken.filter Option.isSome).length) ∧
    (receiveFamily i = false → t.rx = s.rx)

/-- The answers an operation has not asked for do not matter (R57, R59): an operation that completes does the same where
the answers it drew are listed, whatever the peer goes on to answer after them, and leaves that to the next. So every
completing run has a list of answers that shows it, and a listed answer and a drawn one are met in the same way (the
form of the peer is the model's, log 3). -/
def Obligations.LaterAnswersDoNotMatter : Prop :=
  ∀ (i : Instr) (s t : State), exec i s = .next t →
    ∃ drawn, drewOn s t drawn ∧
      ∀ (more : List (Option Byte)) (tail : Tail),
        exec i { s with rx := ⟨s.rx.answers ++ drawn ++ more, tail⟩ } = .next { t with rx := ⟨t.rx.answers ++ more, tail⟩ }

/-! Synchronisation -/

/-- R182, R181, R186: with nothing from the peer SYNC writes the marker, a bare END and the SYNC request, and fails;
the request's checksum stays in CRC. It fails also where, after any number of other packets each received within its
budget, SYNC_RX_TIMEOUT polls find no byte: what follows stays with the peer, and CRC is the checksum of the last frame
validated (R159, R186). With SYNC_RX_TIMEOUT = 0 every SYNC that completes has failed, its request's checksum in CRC. -/
def Obligations.SyncWithoutPeerFails : Prop :=
  (∀ s : State, s.syncing = false → s.rx = ⟨[], .silent⟩ →
    let c := s.cfg
    let body : List Byte := [c.syncCmd.setWidth 8, (c.syncCmd >>> 8).setWidth 8, 0x00, 0x00,
      c.syncReqValue.setWidth 8, (c.syncReqValue >>> 8).setWidth 8,
      (c.syncReqValue >>> 16).setWidth 8, (c.syncReqValue >>> 24).setWidth 8]
    let crc := body.foldl crcStep 0x0000
    exec .sync s =
      .next { s with txLog := s.txLog ++ ([0x73, 0x79, 0x6E, 0x63, 0x0A, 0xC0, 0xC0] : List Byte) ++ body.flatMap escape ++
                       escape (crc.setWidth 8) ++ escape ((crc >>> 8).setWidth 8) ++ [0xC0],
                     crc := crc, pktValid := false, flen := 0, idx := 0, esc := false, ovf := false, syncLast := 2,
                     evt := 0x08, result := 0 }) ∧
  (∀ (s : State) (early late : List Byte) (rounds : List (Nat × List Byte)) (rest : List (Option Byte)),
    s.syncing = false → roundsWithin s.cfg rounds →
    s.rx.answers = handOver early ++ [none] ++ handOver late ++ [none] ++ gapsAndFrames rounds ++
      List.replicate s.cfg.syncRxTimeout.toNat none ++ rest →
    ∃ t, exec .sync s = .next t ∧
      t = { s with rx := ⟨rest, s.rx.tail⟩,
                   rxTaken := s.rxTaken + early.length + late.length +
                     ((gapsAndFrames rounds).filter Option.isSome).length,
                   txLog := s.txLog ++ syncBytes s.cfg, buf := t.buf,
                   crc := crc16 ((rounds.getLast?.map Prod.snd).getD (syncBody s.cfg)), pktValid := false, flen := 0,
                   idx := 0, esc := false, ovf := false, syncLast := 2, evt := 0x08, result := 0 }) ∧
  (∀ s t : State, s.syncing = false → s.cfg.syncRxTimeout = 0 → exec .sync s = .next t →
    t.evt = 0x08 ∧ t.result = 0 ∧ t.syncLast = 2 ∧ t.crc = crc16 (syncBody s.cfg) ∧ t.buf = s.buf ∧
    t.txLog = s.txLog ++ syncBytes s.cfg)

/-- R181, R182, R159: SYNC succeeds when, after the two discards, any number of other packets and fewer than
SYNC_RX_TIMEOUT gaps before each packet, the peer sends the version response: each packet has a budget of its own. The
response is not surfaced (D27) and what follows it stays with the peer. -/
def Obligations.SyncSucceedsOnVersion : Prop :=
  ∀ (s : State) (early late body : List Byte) (rounds : List (Nat × List Byte)) (gaps : Nat)
    (rest : List (Option Byte)),
    s.syncing = false → roundsWithin s.cfg rounds → gaps < s.cfg.syncRxTimeout.toNat → bodyFits s.cfg body →
    bodyCmd body = s.cfg.versionCmd →
    s.rx.answers = handOver early ++ [none] ++ handOver late ++ [none] ++ gapsAndFrames rounds ++
      List.replicate gaps none ++ handOver (wireFrame body) ++ rest →
    ∃ t, exec .sync s = .next t ∧
      t = { s with rx := ⟨rest, s.rx.tail⟩,
                   rxTaken := s.rxTaken + early.length + late.length +
                     ((gapsAndFrames rounds).filter Option.isSome).length + (wireFrame body).length,
                   txLog := s.txLog ++ syncBytes s.cfg, buf := t.buf, crc := crc16 body, pktValid := false, flen := 0,
                   idx := 0, esc := false, ovf := false, syncLast := 1, evt := 0x07, result := 1 }

/-- R181, R182, R185: whatever the peer does, a SYNC that completes has written exactly one procedure's bytes, is back
to Idle without a view, and its three reports agree. Its outcome is that of its wait: RECV SYNC_RX_TIMEOUT repeated, from
the state that the two discards and the request leave, until it surfaces no packet or the version response (`WaitEnds`).
-/
def Obligations.SyncWritesOneProcedure : Prop :=
  (∀ s t : State, s.syncing = false → exec .sync s = .next t →
    t.txLog = s.txLog ++ syncBytes s.cfg ∧ t.syncing = false ∧ t.pktValid = false ∧ t.flen = 0 ∧
    ((t.syncLast = 1 ∧ t.evt = 0x07 ∧ t.result = 1) ∨ (t.syncLast = 2 ∧ t.evt = 0x08 ∧ t.result = 0)) ∧
    t.cfg = s.cfg ∧ t.hostq = s.hostq ∧ t.resets = s.resets) ∧
  (∀ (s t : State) (early late : List Byte) (rest : List (Option Byte)) (ok : Bool),
    s.syncing = false → s.rx.answers = handOver early ++ [none] ++ handOver late ++ [none] ++ rest →
    WaitEnds { s with rx := ⟨rest, s.rx.tail⟩, rxTaken := s.rxTaken + early.length + late.length,
                      txLog := s.txLog ++ syncBytes s.cfg, crc := crc16 (syncBody s.cfg), pktValid := false, flen := 0,
                      idx := 0, esc := false, ovf := false, syncing := true } ok t →
    t.rx.tail = s.rx.tail →
    exec .sync s = .next { t with pktValid := false, flen := 0, syncing := false, syncLast := if ok then 1 else 2,
                                  evt := if ok then 0x07 else 0x08, result := if ok then 1 else 0 })

/-- R183, R185: SYNC while already syncing reports failure and does nothing else. -/
def Obligations.ReentrantSyncIsRefused : Prop :=
  ∀ s : State, s.syncing = true → exec .sync s = .next { s with evt := 0x09, result := 0 }

/-- R256: packets other than the version response, without end, keep the sync wait going. The endless peer is the model's
form of what follows those listed (log 4). -/
def Obligations.SyncWaitOutlastsOtherPackets : Prop :=
  ∀ (s : State) (bodies : List (List Byte)) (k : Nat),
    s.syncing = false → s.cfg.syncRxTimeout ≠ 0 →
    (∀ body ∈ bodies, bodyFits s.cfg body ∧ bodyCmd body ≠ s.cfg.versionCmd) →
    s.rx = ⟨[none, none] ++ handOver (bodies.flatMap wireFrame), .endless k⟩ →
    exec .sync s = .fault .peerNotDone

/-- R180: a valid packet with SYNC_CMD, met while Idle, is consumed and runs the procedure, whatever the peer answers
after it: from the state u in which the frame is taken, its checksum is in CRC and no view is shown, the operation does
what SYNC does, but for RESULT, which is 0 (R160, R161). First for TRY_RECV on the wire form of the frame, then for
RX_STEP on the END of a frame already stored, then the bytes of the case in which the peer falls silent. -/
def Obligations.SyncPacketRunsProcedure : Prop :=
  let reports (i : Instr) (s u : State) : Prop :=
    (∀ t, exec .sync u = .next t →
      exec i s = .next { t with result := 0 } ∧
        (t.syncLast = 1 ∧ t.evt = 0x07 ∨ t.syncLast = 2 ∧ t.evt = 0x08) ∧ t.pktValid = false) ∧
    (∀ r, exec .sync u = .fault r → exec i s = .fault r)
  (∀ (s : State) (body : List Byte) (rest : List (Option Byte)),
    s.idx = 0 → s.ovf = false → s.syncing = false → bodyFits s.cfg body → bodyCmd body = s.cfg.syncCmd →
    s.rx.answers = handOver (wireFrame body) ++ rest →
    ∃ u, u = { s with rx := ⟨rest, s.rx.tail⟩, rxTaken := s.rxTaken + (wireFrame body).length, buf := u.buf, esc := false,
                      crc := crc16 body, pktValid := false, flen := 0 } ∧
      u.span (body.length + 2) = body ++ bytes16 (crc16 body) ∧ reports .tryRecv s u) ∧
  (∀ (s : State) (rest : List (Option Byte)),
    s.rx.answers = some 0xC0 :: rest → s.ovf = false → s.syncing = false → 8 ≤ s.idx.toNat → s.idx.toNat ≤ s.cfg.cap →
    crc16 (s.span (s.idx.toNat - 2)) = u16le (s.byteAt (s.idx.toNat - 2)) (s.byteAt (s.idx.toNat - 1)) →
    s.packetCmd = s.cfg.syncCmd →
    reports .rxStep s { s with rx := ⟨rest, s.rx.tail⟩, rxTaken := s.rxTaken + 1, idx := 0, esc := false,
                               crc := crc16 (s.span (s.idx.toNat - 2)), pktValid := false, flen := 0 }) ∧
  (∀ (s : State) (body : List Byte),
    s.idx = 0 → s.ovf = false → s.syncing = false → bodyFits s.cfg body → bodyCmd body = s.cfg.syncCmd →
    s.rx = ⟨handOver (wireFrame body), .silent⟩ →
    ∃ t, exec .tryRecv s = .next t ∧
      t = { s with rx := ⟨[], .silent⟩, rxTaken := s.rxTaken + (wireFrame body).length,
                   txLog := s.txLog ++ syncBytes s.cfg, buf := t.buf, crc := crc16 (syncBody s.cfg),
                   pktValid := false, flen := 0, esc := false, syncLast := 2, evt := 0x08, result := 0 })

/-- R184: a receive operation begun while Idle never surfaces a packet that carries SYNC_CMD. -/
def Obligations.SyncPacketNeverSurfaces : Prop :=
  ∀ (i : Instr) (s t : State), receiveFamily i = true → s.syncing = false → exec i s = .next t →
    t.pktValid = true → t.packetCmd ≠ s.cfg.syncCmd

/-! The whole machine -/

/-- R8: no step writes the parameters. -/
def Obligations.ParametersNeverWritten : Prop :=
  ∀ s t : State, step s = .next t → t.cfg = s.cfg

/-! The request builder -/

/-- R134: the operations of TX_REQUEST write END, the escaped body, the escaped checksum of the body low byte first,
and END; the checksum stays in CRC and is the last RESULT. Every parameter is below 65536 bytes where TX_REQUEST has
operations (log 17). -/
def Obligations.RequestIsWrittenAsFrame : Prop :=
  ∀ (s : State) (cmd argc : Half) (value : Word) (ps : List (List Byte)) (ops : List Instr),
    txRequest cmd argc value ps = some ops →
    let body := requestBody cmd argc value ps
    issue ops s =
      .next { s with txLog := s.txLog ++ ([0xC0] ++ body.flatMap escape ++
                       (bytes16 (body.foldl crcStep 0x0000)).flatMap escape ++ [0xC0]),
                     crc := body.foldl crcStep 0x0000, evt := 0x00,
                     result := (body.foldl crcStep 0x0000).setWidth 32 }

/-- R135: the bytes a request builder writes, fed to a receiver, give a packet with the same command, argument count,
value and parameter bytes; and the request of the source's example is the 18 bytes the rule lists. Every parameter is
below 65536 bytes where TX_REQUEST has operations (log 17). -/
def Obligations.RequestRoundTrip : Prop :=
  (∀ (a b : State) (cmd argc : Half) (value : Word) (ps : List (List Byte)) (ops : List Instr)
      (rest : List (Option Byte)),
    let body := requestBody cmd argc value ps
    txRequest cmd argc value ps = some ops → a.txLog = [] →
    b.idx = 0 → b.ovf = false → body.length + 2 ≤ b.cfg.cap → cmd ≠ b.cfg.syncCmd →
    ∃ sent, issue ops a = .next sent ∧
      (b.rx.answers = handOver sent.txLog ++ rest →
        ∃ t, exec .tryRecv b = .next t ∧ t.evt = 0x01 ∧ t.flen.toNat = body.length + 2 ∧
          exec (.rdreg 4) t = .next { t with evt := 0x00, result := cmd.setWidth 32 } ∧
          exec (.rdreg 5) t = .next { t with evt := 0x00, result := argc.setWidth 32 } ∧
          exec (.rdreg 6) t = .next { t with evt := 0x00, result := value } ∧
          t.span body.length = body)) ∧
  (∀ s : State, s.txLog = [] → ∃ ops t, txRequest 0x0005 1 0 [[0x41]] = some ops ∧ issue ops s = .next t ∧
    t.txLog = [0xC0, 0x05, 0x00, 0x01, 0x00, 0x00, 0x00, 0x00, 0x00, 0x01, 0x00, 0x41, 0x00, 0x00, 0x00, 0x21, 0x06,
               0xC0])
end

