-- ==== Sys2Proof/Laws/Assembler.lean ====
section
/-! SUPPORT. What the assembler's operand reading can do (30_encoding.md R83). -/

namespace Sys2Proof.Machine

/-- An operand is accepted exactly where it has a value below its bound, and the value stands whole. -/
theorem asmOperand_eq_ok {limit n : Nat} {v : Option Nat} : asmOperand limit v = .ok n ↔ v = some n ∧ n < limit := by
  cases v with
  | none => simp [asmOperand]
  | some m =>
    by_cases h : m < limit
    · simp only [asmOperand, h, if_true, Except.ok.injEq, Option.some.injEq]
      exact ⟨fun e => ⟨e, e ▸ h⟩, fun e => e.1⟩
    · simp only [asmOperand, h, if_false, reduceCtorEq, Option.some.injEq, false_iff, not_and]
      exact fun e => e ▸ h

/-- A digit's value is below its base. -/
theorem asmDigit_lt {base d : Nat} {c : Char} (h : asmDigit base c = some d) : d < base := by
  have h' : d < (asmDigitChars.take base).length := by
    simp only [asmDigit, List.idxOf?, List.findIdx?_eq_some_iff_getElem] at h
    exact h.1
  exact h'.trans_le (List.length_take_le _ _)

end Sys2Proof.Machine
end

