-- ==== Sys2Proof/Laws/State.lean ====
section
/-! SUPPORT. What each named update of the state does to each field, one lemma a field, so that no proof unfolds a
record update; and what each does to the bytes of the buffer. -/

namespace Sys2Proof.Machine

/-! `State.finish` -/

@[simp] theorem State.finish_cfg (e : Event) (r : Word) (s : State) : (s.finish e r).cfg = s.cfg := rfl
@[simp] theorem State.finish_crc (e : Event) (r : Word) (s : State) : (s.finish e r).crc = s.crc := rfl
@[simp] theorem State.finish_esc (e : Event) (r : Word) (s : State) : (s.finish e r).esc = s.esc := rfl
@[simp] theorem State.finish_buf (e : Event) (r : Word) (s : State) : (s.finish e r).buf = s.buf := rfl
@[simp] theorem State.finish_idx (e : Event) (r : Word) (s : State) : (s.finish e r).idx = s.idx := rfl
@[simp] theorem State.finish_ovf (e : Event) (r : Word) (s : State) : (s.finish e r).ovf = s.ovf := rfl
@[simp] theorem State.finish_flen (e : Event) (r : Word) (s : State) : (s.finish e r).flen = s.flen := rfl
@[simp] theorem State.finish_pktValid (e : Event) (r : Word) (s : State) : (s.finish e r).pktValid = s.pktValid := rfl
@[simp] theorem State.finish_syncing (e : Event) (r : Word) (s : State) : (s.finish e r).syncing = s.syncing := rfl
@[simp] theorem State.finish_syncLast (e : Event) (r : Word) (s : State) : (s.finish e r).syncLast = s.syncLast := rfl
@[simp] theorem State.finish_lastDrop (e : Event) (r : Word) (s : State) : (s.finish e r).lastDrop = s.lastDrop := rfl
@[simp] theorem State.finish_evt (e : Event) (r : Word) (s : State) : (s.finish e r).evt = e.code := rfl
@[simp] theorem State.finish_result (e : Event) (r : Word) (s : State) : (s.finish e r).result = r := rfl
@[simp] theorem State.finish_txLog (e : Event) (r : Word) (s : State) : (s.finish e r).txLog = s.txLog := rfl
@[simp] theorem State.finish_rx (e : Event) (r : Word) (s : State) : (s.finish e r).rx = s.rx := rfl
@[simp] theorem State.finish_rxTaken (e : Event) (r : Word) (s : State) : (s.finish e r).rxTaken = s.rxTaken := rfl
@[simp] theorem State.finish_hostq (e : Event) (r : Word) (s : State) : (s.finish e r).hostq = s.hostq := rfl
@[simp] theorem State.finish_resets (e : Event) (r : Word) (s : State) : (s.finish e r).resets = s.resets := rfl
@[simp] theorem State.finish_byteAt (e : Event) (r : Word) (s : State) (x : Nat) : (s.finish e r).byteAt x = s.byteAt x := rfl
@[simp] theorem State.finish_span (e : Event) (r : Word) (s : State) (len : Nat) : (s.finish e r).span len = s.span len := rfl
@[simp] theorem State.finish_packetCmd (e : Event) (r : Word) (s : State) : (s.finish e r).packetCmd = s.packetCmd := rfl

/-! `State.invalidateView` -/

@[simp] theorem State.invalidateView_cfg (s : State) : (s.invalidateView).cfg = s.cfg := rfl
@[simp] theorem State.invalidateView_crc (s : State) : (s.invalidateView).crc = s.crc := rfl
@[simp] theorem State.invalidateView_esc (s : State) : (s.invalidateView).esc = s.esc := rfl
@[simp] theorem State.invalidateView_buf (s : State) : (s.invalidateView).buf = s.buf := rfl
@[simp] theorem State.invalidateView_idx (s : State) : (s.invalidateView).idx = s.idx := rfl
@[simp] theorem State.invalidateView_ovf (s : State) : (s.invalidateView).ovf = s.ovf := rfl
@[simp] theorem State.invalidateView_flen (s : State) : (s.invalidateView).flen = 0 := rfl
@[simp] theorem State.invalidateView_pktValid (s : State) : (s.invalidateView).pktValid = false := rfl
@[simp] theorem State.invalidateView_syncing (s : State) : (s.invalidateView).syncing = s.syncing := rfl
@[simp] theorem State.invalidateView_syncLast (s : State) : (s.invalidateView).syncLast = s.syncLast := rfl
@[simp] theorem State.invalidateView_lastDrop (s : State) : (s.invalidateView).lastDrop = s.lastDrop := rfl
@[simp] theorem State.invalidateView_evt (s : State) : (s.invalidateView).evt = s.evt := rfl
@[simp] theorem State.invalidateView_result (s : State) : (s.invalidateView).result = s.result := rfl
@[simp] theorem State.invalidateView_txLog (s : State) : (s.invalidateView).txLog = s.txLog := rfl
@[simp] theorem State.invalidateView_rx (s : State) : (s.invalidateView).rx = s.rx := rfl
@[simp] theorem State.invalidateView_rxTaken (s : State) : (s.invalidateView).rxTaken = s.rxTaken := rfl
@[simp] theorem State.invalidateView_hostq (s : State) : (s.invalidateView).hostq = s.hostq := rfl
@[simp] theorem State.invalidateView_resets (s : State) : (s.invalidateView).resets = s.resets := rfl
@[simp] theorem State.invalidateView_byteAt (s : State) (x : Nat) : (s.invalidateView).byteAt x = s.byteAt x := rfl
@[simp] theorem State.invalidateView_span (s : State) (len : Nat) : (s.invalidateView).span len = s.span len := rfl
@[simp] theorem State.invalidateView_packetCmd (s : State) : (s.invalidateView).packetCmd = s.packetCmd := rfl

/-! `State.showView` -/

@[simp] theorem State.showView_cfg (m : Half) (s : State) : (s.showView m).cfg = s.cfg := rfl
@[simp] theorem State.showView_crc (m : Half) (s : State) : (s.showView m).crc = s.crc := rfl
@[simp] theorem State.showView_esc (m : Half) (s : State) : (s.showView m).esc = s.esc := rfl
@[simp] theorem State.showView_buf (m : Half) (s : State) : (s.showView m).buf = s.buf := rfl
@[simp] theorem State.showView_idx (m : Half) (s : State) : (s.showView m).idx = s.idx := rfl
@[simp] theorem State.showView_ovf (m : Half) (s : State) : (s.showView m).ovf = s.ovf := rfl
@[simp] theorem State.showView_flen (m : Half) (s : State) : (s.showView m).flen = m := rfl
@[simp] theorem State.showView_pktValid (m : Half) (s : State) : (s.showView m).pktValid = true := rfl
@[simp] theorem State.showView_syncing (m : Half) (s : State) : (s.showView m).syncing = s.syncing := rfl
@[simp] theorem State.showView_syncLast (m : Half) (s : State) : (s.showView m).syncLast = s.syncLast := rfl
@[simp] theorem State.showView_lastDrop (m : Half) (s : State) : (s.showView m).lastDrop = s.lastDrop := rfl
@[simp] theorem State.showView_evt (m : Half) (s : State) : (s.showView m).evt = s.evt := rfl
@[simp] theorem State.showView_result (m : Half) (s : State) : (s.showView m).result = s.result := rfl
@[simp] theorem State.showView_txLog (m : Half) (s : State) : (s.showView m).txLog = s.txLog := rfl
@[simp] theorem State.showView_rx (m : Half) (s : State) : (s.showView m).rx = s.rx := rfl
@[simp] theorem State.showView_rxTaken (m : Half) (s : State) : (s.showView m).rxTaken = s.rxTaken := rfl
@[simp] theorem State.showView_hostq (m : Half) (s : State) : (s.showView m).hostq = s.hostq := rfl
@[simp] theorem State.showView_resets (m : Half) (s : State) : (s.showView m).resets = s.resets := rfl
@[simp] theorem State.showView_byteAt (m : Half) (s : State) (x : Nat) : (s.showView m).byteAt x = s.byteAt x := rfl
@[simp] theorem State.showView_span (m : Half) (s : State) (len : Nat) : (s.showView m).span len = s.span len := rfl
@[simp] theorem State.showView_packetCmd (m : Half) (s : State) : (s.showView m).packetCmd = s.packetCmd := rfl

/-! `State.clearFrame` -/

@[simp] theorem State.clearFrame_cfg (s : State) : (s.clearFrame).cfg = s.cfg := rfl
@[simp] theorem State.clearFrame_crc (s : State) : (s.clearFrame).crc = s.crc := rfl
@[simp] theorem State.clearFrame_esc (s : State) : (s.clearFrame).esc = false := rfl
@[simp] theorem State.clearFrame_buf (s : State) : (s.clearFrame).buf = s.buf := rfl
@[simp] theorem State.clearFrame_idx (s : State) : (s.clearFrame).idx = 0 := rfl
@[simp] theorem State.clearFrame_ovf (s : State) : (s.clearFrame).ovf = false := rfl
@[simp] theorem State.clearFrame_flen (s : State) : (s.clearFrame).flen = s.flen := rfl
@[simp] theorem State.clearFrame_pktValid (s : State) : (s.clearFrame).pktValid = s.pktValid := rfl
@[simp] theorem State.clearFrame_syncing (s : State) : (s.clearFrame).syncing = s.syncing := rfl
@[simp] theorem State.clearFrame_syncLast (s : State) : (s.clearFrame).syncLast = s.syncLast := rfl
@[simp] theorem State.clearFrame_lastDrop (s : State) : (s.clearFrame).lastDrop = s.lastDrop := rfl
@[simp] theorem State.clearFrame_evt (s : State) : (s.clearFrame).evt = s.evt := rfl
@[simp] theorem State.clearFrame_result (s : State) : (s.clearFrame).result = s.result := rfl
@[simp] theorem State.clearFrame_txLog (s : State) : (s.clearFrame).txLog = s.txLog := rfl
@[simp] theorem State.clearFrame_rx (s : State) : (s.clearFrame).rx = s.rx := rfl
@[simp] theorem State.clearFrame_rxTaken (s : State) : (s.clearFrame).rxTaken = s.rxTaken := rfl
@[simp] theorem State.clearFrame_hostq (s : State) : (s.clearFrame).hostq = s.hostq := rfl
@[simp] theorem State.clearFrame_resets (s : State) : (s.clearFrame).resets = s.resets := rfl
@[simp] theorem State.clearFrame_byteAt (s : State) (x : Nat) : (s.clearFrame).byteAt x = s.byteAt x := rfl
@[simp] theorem State.clearFrame_span (s : State) (len : Nat) : (s.clearFrame).span len = s.span len := rfl
@[simp] theorem State.clearFrame_packetCmd (s : State) : (s.clearFrame).packetCmd = s.packetCmd := rfl

/-! `State.store` -/

@[simp] theorem State.store_cfg (v : Byte) (s : State) : (s.store v).cfg = s.cfg := rfl
@[simp] theorem State.store_crc (v : Byte) (s : State) : (s.store v).crc = s.crc := rfl
@[simp] theorem State.store_esc (v : Byte) (s : State) : (s.store v).esc = s.esc := rfl
@[simp] theorem State.store_buf (v : Byte) (s : State) : (s.store v).buf = s.buf.write s.idx.toNat v := rfl
@[simp] theorem State.store_idx (v : Byte) (s : State) : (s.store v).idx = s.idx + 1 := rfl
@[simp] theorem State.store_ovf (v : Byte) (s : State) : (s.store v).ovf = s.ovf := rfl
@[simp] theorem State.store_flen (v : Byte) (s : State) : (s.store v).flen = s.flen := rfl
@[simp] theorem State.store_pktValid (v : Byte) (s : State) : (s.store v).pktValid = s.pktValid := rfl
@[simp] theorem State.store_syncing (v : Byte) (s : State) : (s.store v).syncing = s.syncing := rfl
@[simp] theorem State.store_syncLast (v : Byte) (s : State) : (s.store v).syncLast = s.syncLast := rfl
@[simp] theorem State.store_lastDrop (v : Byte) (s : State) : (s.store v).lastDrop = s.lastDrop := rfl
@[simp] theorem State.store_evt (v : Byte) (s : State) : (s.store v).evt = s.evt := rfl
@[simp] theorem State.store_result (v : Byte) (s : State) : (s.store v).result = s.result := rfl
@[simp] theorem State.store_txLog (v : Byte) (s : State) : (s.store v).txLog = s.txLog := rfl
@[simp] theorem State.store_rx (v : Byte) (s : State) : (s.store v).rx = s.rx := rfl
@[simp] theorem State.store_rxTaken (v : Byte) (s : State) : (s.store v).rxTaken = s.rxTaken := rfl
@[simp] theorem State.store_hostq (v : Byte) (s : State) : (s.store v).hostq = s.hostq := rfl
@[simp] theorem State.store_resets (v : Byte) (s : State) : (s.store v).resets = s.resets := rfl

/-! `State.setEsc` -/

@[simp] theorem State.setEsc_cfg (e : Bool) (s : State) : (s.setEsc e).cfg = s.cfg := rfl
@[simp] theorem State.setEsc_crc (e : Bool) (s : State) : (s.setEsc e).crc = s.crc := rfl
@[simp] theorem State.setEsc_esc (e : Bool) (s : State) : (s.setEsc e).esc = e := rfl
@[simp] theorem State.setEsc_buf (e : Bool) (s : State) : (s.setEsc e).buf = s.buf := rfl
@[simp] theorem State.setEsc_idx (e : Bool) (s : State) : (s.setEsc e).idx = s.idx := rfl
@[simp] theorem State.setEsc_ovf (e : Bool) (s : State) : (s.setEsc e).ovf = s.ovf := rfl
@[simp] theorem State.setEsc_flen (e : Bool) (s : State) : (s.setEsc e).flen = s.flen := rfl
@[simp] theorem State.setEsc_pktValid (e : Bool) (s : State) : (s.setEsc e).pktValid = s.pktValid := rfl
@[simp] theorem State.setEsc_syncing (e : Bool) (s : State) : (s.setEsc e).syncing = s.syncing := rfl
@[simp] theorem State.setEsc_syncLast (e : Bool) (s : State) : (s.setEsc e).syncLast = s.syncLast := rfl
@[simp] theorem State.setEsc_lastDrop (e : Bool) (s : State) : (s.setEsc e).lastDrop = s.lastDrop := rfl
@[simp] theorem State.setEsc_evt (e : Bool) (s : State) : (s.setEsc e).evt = s.evt := rfl
@[simp] theorem State.setEsc_result (e : Bool) (s : State) : (s.setEsc e).result = s.result := rfl
@[simp] theorem State.setEsc_txLog (e : Bool) (s : State) : (s.setEsc e).txLog = s.txLog := rfl
@[simp] theorem State.setEsc_rx (e : Bool) (s : State) : (s.setEsc e).rx = s.rx := rfl
@[simp] theorem State.setEsc_rxTaken (e : Bool) (s : State) : (s.setEsc e).rxTaken = s.rxTaken := rfl
@[simp] theorem State.setEsc_hostq (e : Bool) (s : State) : (s.setEsc e).hostq = s.hostq := rfl
@[simp] theorem State.setEsc_resets (e : Bool) (s : State) : (s.setEsc e).resets = s.resets := rfl
@[simp] theorem State.setEsc_byteAt (e : Bool) (s : State) (x : Nat) : (s.setEsc e).byteAt x = s.byteAt x := rfl
@[simp] theorem State.setEsc_span (e : Bool) (s : State) (len : Nat) : (s.setEsc e).span len = s.span len := rfl
@[simp] theorem State.setEsc_packetCmd (e : Bool) (s : State) : (s.setEsc e).packetCmd = s.packetCmd := rfl

/-! `State.markOversize` -/

@[simp] theorem State.markOversize_cfg (s : State) : (s.markOversize).cfg = s.cfg := rfl
@[simp] theorem State.markOversize_crc (s : State) : (s.markOversize).crc = s.crc := rfl
@[simp] theorem State.markOversize_esc (s : State) : (s.markOversize).esc = s.esc := rfl
@[simp] theorem State.markOversize_buf (s : State) : (s.markOversize).buf = s.buf := rfl
@[simp] theorem State.markOversize_idx (s : State) : (s.markOversize).idx = s.idx := rfl
@[simp] theorem State.markOversize_ovf (s : State) : (s.markOversize).ovf = true := rfl
@[simp] theorem State.markOversize_flen (s : State) : (s.markOversize).flen = s.flen := rfl
@[simp] theorem State.markOversize_pktValid (s : State) : (s.markOversize).pktValid = s.pktValid := rfl
@[simp] theorem State.markOversize_syncing (s : State) : (s.markOversize).syncing = s.syncing := rfl
@[simp] theorem State.markOversize_syncLast (s : State) : (s.markOversize).syncLast = s.syncLast := rfl
@[simp] theorem State.markOversize_lastDrop (s : State) : (s.markOversize).lastDrop = s.lastDrop := rfl
@[simp] theorem State.markOversize_evt (s : State) : (s.markOversize).evt = s.evt := rfl
@[simp] theorem State.markOversize_result (s : State) : (s.markOversize).result = s.result := rfl
@[simp] theorem State.markOversize_txLog (s : State) : (s.markOversize).txLog = s.txLog := rfl
@[simp] theorem State.markOversize_rx (s : State) : (s.markOversize).rx = s.rx := rfl
@[simp] theorem State.markOversize_rxTaken (s : State) : (s.markOversize).rxTaken = s.rxTaken := rfl
@[simp] theorem State.markOversize_hostq (s : State) : (s.markOversize).hostq = s.hostq := rfl
@[simp] theorem State.markOversize_resets (s : State) : (s.markOversize).resets = s.resets := rfl
@[simp] theorem State.markOversize_byteAt (s : State) (x : Nat) : (s.markOversize).byteAt x = s.byteAt x := rfl
@[simp] theorem State.markOversize_span (s : State) (len : Nat) : (s.markOversize).span len = s.span len := rfl
@[simp] theorem State.markOversize_packetCmd (s : State) : (s.markOversize).packetCmd = s.packetCmd := rfl

/-! `State.setCrc` -/

@[simp] theorem State.setCrc_cfg (c : Half) (s : State) : (s.setCrc c).cfg = s.cfg := rfl
@[simp] theorem State.setCrc_crc (c : Half) (s : State) : (s.setCrc c).crc = c := rfl
@[simp] theorem State.setCrc_esc (c : Half) (s : State) : (s.setCrc c).esc = s.esc := rfl
@[simp] theorem State.setCrc_buf (c : Half) (s : State) : (s.setCrc c).buf = s.buf := rfl
@[simp] theorem State.setCrc_idx (c : Half) (s : State) : (s.setCrc c).idx = s.idx := rfl
@[simp] theorem State.setCrc_ovf (c : Half) (s : State) : (s.setCrc c).ovf = s.ovf := rfl
@[simp] theorem State.setCrc_flen (c : Half) (s : State) : (s.setCrc c).flen = s.flen := rfl
@[simp] theorem State.setCrc_pktValid (c : Half) (s : State) : (s.setCrc c).pktValid = s.pktValid := rfl
@[simp] theorem State.setCrc_syncing (c : Half) (s : State) : (s.setCrc c).syncing = s.syncing := rfl
@[simp] theorem State.setCrc_syncLast (c : Half) (s : State) : (s.setCrc c).syncLast = s.syncLast := rfl
@[simp] theorem State.setCrc_lastDrop (c : Half) (s : State) : (s.setCrc c).lastDrop = s.lastDrop := rfl
@[simp] theorem State.setCrc_evt (c : Half) (s : State) : (s.setCrc c).evt = s.evt := rfl
@[simp] theorem State.setCrc_result (c : Half) (s : State) : (s.setCrc c).result = s.result := rfl
@[simp] theorem State.setCrc_txLog (c : Half) (s : State) : (s.setCrc c).txLog = s.txLog := rfl
@[simp] theorem State.setCrc_rx (c : Half) (s : State) : (s.setCrc c).rx = s.rx := rfl
@[simp] theorem State.setCrc_rxTaken (c : Half) (s : State) : (s.setCrc c).rxTaken = s.rxTaken := rfl
@[simp] theorem State.setCrc_hostq (c : Half) (s : State) : (s.setCrc c).hostq = s.hostq := rfl
@[simp] theorem State.setCrc_resets (c : Half) (s : State) : (s.setCrc c).resets = s.resets := rfl
@[simp] theorem State.setCrc_byteAt (c : Half) (s : State) (x : Nat) : (s.setCrc c).byteAt x = s.byteAt x := rfl
@[simp] theorem State.setCrc_span (c : Half) (s : State) (len : Nat) : (s.setCrc c).span len = s.span len := rfl
@[simp] theorem State.setCrc_packetCmd (c : Half) (s : State) : (s.setCrc c).packetCmd = s.packetCmd := rfl

/-! `State.recordDrop` -/

@[simp] theorem State.recordDrop_cfg (r : DropReason) (s : State) : (s.recordDrop r).cfg = s.cfg := rfl
@[simp] theorem State.recordDrop_crc (r : DropReason) (s : State) : (s.recordDrop r).crc = s.crc := rfl
@[simp] theorem State.recordDrop_esc (r : DropReason) (s : State) : (s.recordDrop r).esc = s.esc := rfl
@[simp] theorem State.recordDrop_buf (r : DropReason) (s : State) : (s.recordDrop r).buf = s.buf := rfl
@[simp] theorem State.recordDrop_idx (r : DropReason) (s : State) : (s.recordDrop r).idx = s.idx := rfl
@[simp] theorem State.recordDrop_ovf (r : DropReason) (s : State) : (s.recordDrop r).ovf = s.ovf := rfl
@[simp] theorem State.recordDrop_flen (r : DropReason) (s : State) : (s.recordDrop r).flen = s.flen := rfl
@[simp] theorem State.recordDrop_pktValid (r : DropReason) (s : State) : (s.recordDrop r).pktValid = s.pktValid := rfl
@[simp] theorem State.recordDrop_syncing (r : DropReason) (s : State) : (s.recordDrop r).syncing = s.syncing := rfl
@[simp] theorem State.recordDrop_syncLast (r : DropReason) (s : State) : (s.recordDrop r).syncLast = s.syncLast := rfl
@[simp] theorem State.recordDrop_lastDrop (r : DropReason) (s : State) : (s.recordDrop r).lastDrop = r.code := rfl
@[simp] theorem State.recordDrop_evt (r : DropReason) (s : State) : (s.recordDrop r).evt = s.evt := rfl
@[simp] theorem State.recordDrop_result (r : DropReason) (s : State) : (s.recordDrop r).result = s.result := rfl
@[simp] theorem State.recordDrop_txLog (r : DropReason) (s : State) : (s.recordDrop r).txLog = s.txLog := rfl
@[simp] theorem State.recordDrop_rx (r : DropReason) (s : State) : (s.recordDrop r).rx = s.rx := rfl
@[simp] theorem State.recordDrop_rxTaken (r : DropReason) (s : State) : (s.recordDrop r).rxTaken = s.rxTaken := rfl
@[simp] theorem State.recordDrop_hostq (r : DropReason) (s : State) : (s.recordDrop r).hostq = s.hostq := rfl
@[simp] theorem State.recordDrop_resets (r : DropReason) (s : State) : (s.recordDrop r).resets = s.resets := rfl
@[simp] theorem State.recordDrop_byteAt (r : DropReason) (s : State) (x : Nat) : (s.recordDrop r).byteAt x = s.byteAt x := rfl
@[simp] theorem State.recordDrop_span (r : DropReason) (s : State) (len : Nat) : (s.recordDrop r).span len = s.span len := rfl
@[simp] theorem State.recordDrop_packetCmd (r : DropReason) (s : State) : (s.recordDrop r).packetCmd = s.packetCmd := rfl

/-! `State.beginSync` -/

@[simp] theorem State.beginSync_cfg (s : State) : (s.beginSync).cfg = s.cfg := rfl
@[simp] theorem State.beginSync_crc (s : State) : (s.beginSync).crc = s.crc := rfl
@[simp] theorem State.beginSync_esc (s : State) : (s.beginSync).esc = s.esc := rfl
@[simp] theorem State.beginSync_buf (s : State) : (s.beginSync).buf = s.buf := rfl
@[simp] theorem State.beginSync_idx (s : State) : (s.beginSync).idx = s.idx := rfl
@[simp] theorem State.beginSync_ovf (s : State) : (s.beginSync).ovf = s.ovf := rfl
@[simp] theorem State.beginSync_flen (s : State) : (s.beginSync).flen = s.flen := rfl
@[simp] theorem State.beginSync_pktValid (s : State) : (s.beginSync).pktValid = s.pktValid := rfl
@[simp] theorem State.beginSync_syncing (s : State) : (s.beginSync).syncing = true := rfl
@[simp] theorem State.beginSync_syncLast (s : State) : (s.beginSync).syncLast = s.syncLast := rfl
@[simp] theorem State.beginSync_lastDrop (s : State) : (s.beginSync).lastDrop = s.lastDrop := rfl
@[simp] theorem State.beginSync_evt (s : State) : (s.beginSync).evt = s.evt := rfl
@[simp] theorem State.beginSync_result (s : State) : (s.beginSync).result = s.result := rfl
@[simp] theorem State.beginSync_txLog (s : State) : (s.beginSync).txLog = s.txLog := rfl
@[simp] theorem State.beginSync_rx (s : State) : (s.beginSync).rx = s.rx := rfl
@[simp] theorem State.beginSync_rxTaken (s : State) : (s.beginSync).rxTaken = s.rxTaken := rfl
@[simp] theorem State.beginSync_hostq (s : State) : (s.beginSync).hostq = s.hostq := rfl
@[simp] theorem State.beginSync_resets (s : State) : (s.beginSync).resets = s.resets := rfl
@[simp] theorem State.beginSync_byteAt (s : State) (x : Nat) : (s.beginSync).byteAt x = s.byteAt x := rfl
@[simp] theorem State.beginSync_span (s : State) (len : Nat) : (s.beginSync).span len = s.span len := rfl
@[simp] theorem State.beginSync_packetCmd (s : State) : (s.beginSync).packetCmd = s.packetCmd := rfl

/-! `State.endSync` -/

@[simp] theorem State.endSync_cfg (ok : Bool) (s : State) : (s.endSync ok).cfg = s.cfg := rfl
@[simp] theorem State.endSync_crc (ok : Bool) (s : State) : (s.endSync ok).crc = s.crc := rfl
@[simp] theorem State.endSync_esc (ok : Bool) (s : State) : (s.endSync ok).esc = s.esc := rfl
@[simp] theorem State.endSync_buf (ok : Bool) (s : State) : (s.endSync ok).buf = s.buf := rfl
@[simp] theorem State.endSync_idx (ok : Bool) (s : State) : (s.endSync ok).idx = s.idx := rfl
@[simp] theorem State.endSync_ovf (ok : Bool) (s : State) : (s.endSync ok).ovf = s.ovf := rfl
@[simp] theorem State.endSync_flen (ok : Bool) (s : State) : (s.endSync ok).flen = s.flen := rfl
@[simp] theorem State.endSync_pktValid (ok : Bool) (s : State) : (s.endSync ok).pktValid = s.pktValid := rfl
@[simp] theorem State.endSync_syncing (ok : Bool) (s : State) : (s.endSync ok).syncing = false := rfl
@[simp] theorem State.endSync_syncLast (ok : Bool) (s : State) : (s.endSync ok).syncLast = syncOutcomeCode ok := rfl
@[simp] theorem State.endSync_lastDrop (ok : Bool) (s : State) : (s.endSync ok).lastDrop = s.lastDrop := rfl
@[simp] theorem State.endSync_evt (ok : Bool) (s : State) : (s.endSync ok).evt = s.evt := rfl
@[simp] theorem State.endSync_result (ok : Bool) (s : State) : (s.endSync ok).result = s.result := rfl
@[simp] theorem State.endSync_txLog (ok : Bool) (s : State) : (s.endSync ok).txLog = s.txLog := rfl
@[simp] theorem State.endSync_rx (ok : Bool) (s : State) : (s.endSync ok).rx = s.rx := rfl
@[simp] theorem State.endSync_rxTaken (ok : Bool) (s : State) : (s.endSync ok).rxTaken = s.rxTaken := rfl
@[simp] theorem State.endSync_hostq (ok : Bool) (s : State) : (s.endSync ok).hostq = s.hostq := rfl
@[simp] theorem State.endSync_resets (ok : Bool) (s : State) : (s.endSync ok).resets = s.resets := rfl
@[simp] theorem State.endSync_byteAt (ok : Bool) (s : State) (x : Nat) : (s.endSync ok).byteAt x = s.byteAt x := rfl
@[simp] theorem State.endSync_span (ok : Bool) (s : State) (len : Nat) : (s.endSync ok).span len = s.span len := rfl
@[simp] theorem State.endSync_packetCmd (ok : Bool) (s : State) : (s.endSync ok).packetCmd = s.packetCmd := rfl

/-! `State.txWrite` -/

@[simp] theorem State.txWrite_cfg (bs : List Byte) (s : State) : (s.txWrite bs).cfg = s.cfg := rfl
@[simp] theorem State.txWrite_crc (bs : List Byte) (s : State) : (s.txWrite bs).crc = s.crc := rfl
@[simp] theorem State.txWrite_esc (bs : List Byte) (s : State) : (s.txWrite bs).esc = s.esc := rfl
@[simp] theorem State.txWrite_buf (bs : List Byte) (s : State) : (s.txWrite bs).buf = s.buf := rfl
@[simp] theorem State.txWrite_idx (bs : List Byte) (s : State) : (s.txWrite bs).idx = s.idx := rfl
@[simp] theorem State.txWrite_ovf (bs : List Byte) (s : State) : (s.txWrite bs).ovf = s.ovf := rfl
@[simp] theorem State.txWrite_flen (bs : List Byte) (s : State) : (s.txWrite bs).flen = s.flen := rfl
@[simp] theorem State.txWrite_pktValid (bs : List Byte) (s : State) : (s.txWrite bs).pktValid = s.pktValid := rfl
@[simp] theorem State.txWrite_syncing (bs : List Byte) (s : State) : (s.txWrite bs).syncing = s.syncing := rfl
@[simp] theorem State.txWrite_syncLast (bs : List Byte) (s : State) : (s.txWrite bs).syncLast = s.syncLast := rfl
@[simp] theorem State.txWrite_lastDrop (bs : List Byte) (s : State) : (s.txWrite bs).lastDrop = s.lastDrop := rfl
@[simp] theorem State.txWrite_evt (bs : List Byte) (s : State) : (s.txWrite bs).evt = s.evt := rfl
@[simp] theorem State.txWrite_result (bs : List Byte) (s : State) : (s.txWrite bs).result = s.result := rfl
@[simp] theorem State.txWrite_txLog (bs : List Byte) (s : State) : (s.txWrite bs).txLog = s.txLog ++ bs := rfl
@[simp] theorem State.txWrite_rx (bs : List Byte) (s : State) : (s.txWrite bs).rx = s.rx := rfl
@[simp] theorem State.txWrite_rxTaken (bs : List Byte) (s : State) : (s.txWrite bs).rxTaken = s.rxTaken := rfl
@[simp] theorem State.txWrite_hostq (bs : List Byte) (s : State) : (s.txWrite bs).hostq = s.hostq := rfl
@[simp] theorem State.txWrite_resets (bs : List Byte) (s : State) : (s.txWrite bs).resets = s.resets := rfl
@[simp] theorem State.txWrite_byteAt (bs : List Byte) (s : State) (x : Nat) : (s.txWrite bs).byteAt x = s.byteAt x := rfl
@[simp] theorem State.txWrite_span (bs : List Byte) (s : State) (len : Nat) : (s.txWrite bs).span len = s.span len := rfl
@[simp] theorem State.txWrite_packetCmd (bs : List Byte) (s : State) : (s.txWrite bs).packetCmd = s.packetCmd := rfl

/-! `State.polled` -/

@[simp] theorem State.polled_cfg (rest : List (Option Byte)) (n : Nat) (s : State) : (s.polled rest n).cfg = s.cfg := rfl
@[simp] theorem State.polled_crc (rest : List (Option Byte)) (n : Nat) (s : State) : (s.polled rest n).crc = s.crc := rfl
@[simp] theorem State.polled_esc (rest : List (Option Byte)) (n : Nat) (s : State) : (s.polled rest n).esc = s.esc := rfl
@[simp] theorem State.polled_buf (rest : List (Option Byte)) (n : Nat) (s : State) : (s.polled rest n).buf = s.buf := rfl
@[simp] theorem State.polled_idx (rest : List (Option Byte)) (n : Nat) (s : State) : (s.polled rest n).idx = s.idx := rfl
@[simp] theorem State.polled_ovf (rest : List (Option Byte)) (n : Nat) (s : State) : (s.polled rest n).ovf = s.ovf := rfl
@[simp] theorem State.polled_flen (rest : List (Option Byte)) (n : Nat) (s : State) : (s.polled rest n).flen = s.flen := rfl
@[simp] theorem State.polled_pktValid (rest : List (Option Byte)) (n : Nat) (s : State) : (s.polled rest n).pktValid = s.pktValid := rfl
@[simp] theorem State.polled_syncing (rest : List (Option Byte)) (n : Nat) (s : State) : (s.polled rest n).syncing = s.syncing := rfl
@[simp] theorem State.polled_syncLast (rest : List (Option Byte)) (n : Nat) (s : State) : (s.polled rest n).syncLast = s.syncLast := rfl
@[simp] theorem State.polled_lastDrop (rest : List (Option Byte)) (n : Nat) (s : State) : (s.polled rest n).lastDrop = s.lastDrop := rfl
@[simp] theorem State.polled_evt (rest : List (Option Byte)) (n : Nat) (s : State) : (s.polled rest n).evt = s.evt := rfl
@[simp] theorem State.polled_result (rest : List (Option Byte)) (n : Nat) (s : State) : (s.polled rest n).result = s.result := rfl
@[simp] theorem State.polled_txLog (rest : List (Option Byte)) (n : Nat) (s : State) : (s.polled rest n).txLog = s.txLog := rfl
@[simp] theorem State.polled_rx (rest : List (Option Byte)) (n : Nat) (s : State) : (s.polled rest n).rx = ⟨rest, s.rx.tail⟩ := rfl
@[simp] theorem State.polled_rxTaken (rest : List (Option Byte)) (n : Nat) (s : State) : (s.polled rest n).rxTaken = s.rxTaken + n := rfl
@[simp] theorem State.polled_hostq (rest : List (Option Byte)) (n : Nat) (s : State) : (s.polled rest n).hostq = s.hostq := rfl
@[simp] theorem State.polled_resets (rest : List (Option Byte)) (n : Nat) (s : State) : (s.polled rest n).resets = s.resets := rfl
@[simp] theorem State.polled_byteAt (rest : List (Option Byte)) (n : Nat) (s : State) (x : Nat) : (s.polled rest n).byteAt x = s.byteAt x := rfl
@[simp] theorem State.polled_span (rest : List (Option Byte)) (n : Nat) (s : State) (len : Nat) : (s.polled rest n).span len = s.span len := rfl
@[simp] theorem State.polled_packetCmd (rest : List (Option Byte)) (n : Nat) (s : State) : (s.polled rest n).packetCmd = s.packetCmd := rfl

/-! `State.abandon` -/

@[simp] theorem State.abandon_cfg (held : List Word) (q : List HostInput) (s : State) : (s.abandon held q).cfg = s.cfg := rfl
@[simp] theorem State.abandon_crc (held : List Word) (q : List HostInput) (s : State) : (s.abandon held q).crc = s.crc := rfl
@[simp] theorem State.abandon_esc (held : List Word) (q : List HostInput) (s : State) : (s.abandon held q).esc = s.esc := rfl
@[simp] theorem State.abandon_buf (held : List Word) (q : List HostInput) (s : State) : (s.abandon held q).buf = s.buf := rfl
@[simp] theorem State.abandon_idx (held : List Word) (q : List HostInput) (s : State) : (s.abandon held q).idx = s.idx := rfl
@[simp] theorem State.abandon_ovf (held : List Word) (q : List HostInput) (s : State) : (s.abandon held q).ovf = s.ovf := rfl
@[simp] theorem State.abandon_flen (held : List Word) (q : List HostInput) (s : State) : (s.abandon held q).flen = s.flen := rfl
@[simp] theorem State.abandon_pktValid (held : List Word) (q : List HostInput) (s : State) : (s.abandon held q).pktValid = s.pktValid := rfl
@[simp] theorem State.abandon_syncing (held : List Word) (q : List HostInput) (s : State) : (s.abandon held q).syncing = s.syncing := rfl
@[simp] theorem State.abandon_syncLast (held : List Word) (q : List HostInput) (s : State) : (s.abandon held q).syncLast = s.syncLast := rfl
@[simp] theorem State.abandon_lastDrop (held : List Word) (q : List HostInput) (s : State) : (s.abandon held q).lastDrop = s.lastDrop := rfl
@[simp] theorem State.abandon_evt (held : List Word) (q : List HostInput) (s : State) : (s.abandon held q).evt = s.evt := rfl
@[simp] theorem State.abandon_result (held : List Word) (q : List HostInput) (s : State) : (s.abandon held q).result = s.result := rfl
@[simp] theorem State.abandon_txLog (held : List Word) (q : List HostInput) (s : State) : (s.abandon held q).txLog = s.txLog := rfl
@[simp] theorem State.abandon_rx (held : List Word) (q : List HostInput) (s : State) : (s.abandon held q).rx = Peer.afterStuck (s.resets + 1) := rfl
@[simp] theorem State.abandon_rxTaken (held : List Word) (q : List HostInput) (s : State) : (s.abandon held q).rxTaken = s.rxTaken := rfl
@[simp] theorem State.abandon_hostq (held : List Word) (q : List HostInput) (s : State) : (s.abandon held q).hostq = (heldAfter (s.resets + 1) 0 held).map .command ++ q := rfl
@[simp] theorem State.abandon_resets (held : List Word) (q : List HostInput) (s : State) : (s.abandon held q).resets = s.resets := rfl
@[simp] theorem State.abandon_byteAt (held : List Word) (q : List HostInput) (s : State) (x : Nat) : (s.abandon held q).byteAt x = s.byteAt x := rfl
@[simp] theorem State.abandon_span (held : List Word) (q : List HostInput) (s : State) (len : Nat) : (s.abandon held q).span len = s.span len := rfl
@[simp] theorem State.abandon_packetCmd (held : List Word) (q : List HostInput) (s : State) : (s.abandon held q).packetCmd = s.packetCmd := rfl

/-! `State.drew` -/

@[simp] theorem State.drew_cfg (tl : Tail) (a : Option Byte) (s : State) : (s.drew tl a).cfg = s.cfg := rfl
@[simp] theorem State.drew_crc (tl : Tail) (a : Option Byte) (s : State) : (s.drew tl a).crc = s.crc := rfl
@[simp] theorem State.drew_esc (tl : Tail) (a : Option Byte) (s : State) : (s.drew tl a).esc = s.esc := rfl
@[simp] theorem State.drew_buf (tl : Tail) (a : Option Byte) (s : State) : (s.drew tl a).buf = s.buf := rfl
@[simp] theorem State.drew_idx (tl : Tail) (a : Option Byte) (s : State) : (s.drew tl a).idx = s.idx := rfl
@[simp] theorem State.drew_ovf (tl : Tail) (a : Option Byte) (s : State) : (s.drew tl a).ovf = s.ovf := rfl
@[simp] theorem State.drew_flen (tl : Tail) (a : Option Byte) (s : State) : (s.drew tl a).flen = s.flen := rfl
@[simp] theorem State.drew_pktValid (tl : Tail) (a : Option Byte) (s : State) : (s.drew tl a).pktValid = s.pktValid := rfl
@[simp] theorem State.drew_syncing (tl : Tail) (a : Option Byte) (s : State) : (s.drew tl a).syncing = s.syncing := rfl
@[simp] theorem State.drew_syncLast (tl : Tail) (a : Option Byte) (s : State) : (s.drew tl a).syncLast = s.syncLast := rfl
@[simp] theorem State.drew_lastDrop (tl : Tail) (a : Option Byte) (s : State) : (s.drew tl a).lastDrop = s.lastDrop := rfl
@[simp] theorem State.drew_evt (tl : Tail) (a : Option Byte) (s : State) : (s.drew tl a).evt = s.evt := rfl
@[simp] theorem State.drew_result (tl : Tail) (a : Option Byte) (s : State) : (s.drew tl a).result = s.result := rfl
@[simp] theorem State.drew_txLog (tl : Tail) (a : Option Byte) (s : State) : (s.drew tl a).txLog = s.txLog := rfl
@[simp] theorem State.drew_rx (tl : Tail) (a : Option Byte) (s : State) : (s.drew tl a).rx = ⟨[], tl⟩ := rfl
@[simp] theorem State.drew_rxTaken (tl : Tail) (a : Option Byte) (s : State) : (s.drew tl a).rxTaken = s.rxTaken + a.toList.length := rfl
@[simp] theorem State.drew_hostq (tl : Tail) (a : Option Byte) (s : State) : (s.drew tl a).hostq = s.hostq := rfl
@[simp] theorem State.drew_resets (tl : Tail) (a : Option Byte) (s : State) : (s.drew tl a).resets = s.resets := rfl
@[simp] theorem State.drew_byteAt (tl : Tail) (a : Option Byte) (s : State) (x : Nat) : (s.drew tl a).byteAt x = s.byteAt x := rfl
@[simp] theorem State.drew_span (tl : Tail) (a : Option Byte) (s : State) (len : Nat) : (s.drew tl a).span len = s.span len := rfl
@[simp] theorem State.drew_packetCmd (tl : Tail) (a : Option Byte) (s : State) : (s.drew tl a).packetCmd = s.packetCmd := rfl

/-! `State.afterReset` -/

@[simp] theorem State.afterReset_cfg (c : Config) (p : Peer) (q : List HostInput) (n : Nat) :
    (State.afterReset c p q n).cfg = c := rfl
@[simp] theorem State.afterReset_crc (c : Config) (p : Peer) (q : List HostInput) (n : Nat) :
    (State.afterReset c p q n).crc = 0 := rfl
@[simp] theorem State.afterReset_esc (c : Config) (p : Peer) (q : List HostInput) (n : Nat) :
    (State.afterReset c p q n).esc = false := rfl
@[simp] theorem State.afterReset_buf (c : Config) (p : Peer) (q : List HostInput) (n : Nat) :
    (State.afterReset c p q n).buf = [] := rfl
@[simp] theorem State.afterReset_idx (c : Config) (p : Peer) (q : List HostInput) (n : Nat) :
    (State.afterReset c p q n).idx = 0 := rfl
@[simp] theorem State.afterReset_ovf (c : Config) (p : Peer) (q : List HostInput) (n : Nat) :
    (State.afterReset c p q n).ovf = false := rfl
@[simp] theorem State.afterReset_flen (c : Config) (p : Peer) (q : List HostInput) (n : Nat) :
    (State.afterReset c p q n).flen = 0 := rfl
@[simp] theorem State.afterReset_pktValid (c : Config) (p : Peer) (q : List HostInput) (n : Nat) :
    (State.afterReset c p q n).pktValid = false := rfl
@[simp] theorem State.afterReset_syncing (c : Config) (p : Peer) (q : List HostInput) (n : Nat) :
    (State.afterReset c p q n).syncing = false := rfl
@[simp] theorem State.afterReset_syncLast (c : Config) (p : Peer) (q : List HostInput) (n : Nat) :
    (State.afterReset c p q n).syncLast = 0 := rfl
@[simp] theorem State.afterReset_lastDrop (c : Config) (p : Peer) (q : List HostInput) (n : Nat) :
    (State.afterReset c p q n).lastDrop = 0 := rfl
@[simp] theorem State.afterReset_evt (c : Config) (p : Peer) (q : List HostInput) (n : Nat) :
    (State.afterReset c p q n).evt = 0 := rfl
@[simp] theorem State.afterReset_result (c : Config) (p : Peer) (q : List HostInput) (n : Nat) :
    (State.afterReset c p q n).result = 0 := rfl
@[simp] theorem State.afterReset_txLog (c : Config) (p : Peer) (q : List HostInput) (n : Nat) :
    (State.afterReset c p q n).txLog = [] := rfl
@[simp] theorem State.afterReset_rx (c : Config) (p : Peer) (q : List HostInput) (n : Nat) :
    (State.afterReset c p q n).rx = p := rfl
@[simp] theorem State.afterReset_rxTaken (c : Config) (p : Peer) (q : List HostInput) (n : Nat) :
    (State.afterReset c p q n).rxTaken = 0 := rfl
@[simp] theorem State.afterReset_hostq (c : Config) (p : Peer) (q : List HostInput) (n : Nat) :
    (State.afterReset c p q n).hostq = q := rfl
@[simp] theorem State.afterReset_resets (c : Config) (p : Peer) (q : List HostInput) (n : Nat) :
    (State.afterReset c p q n).resets = n := rfl

/-! Updates that overwrite one another -/

@[simp] theorem State.finish_finish (e e' : Event) (r r' : Word) (s : State) :
    (s.finish e r).finish e' r' = s.finish e' r' := rfl

@[simp] theorem State.invalidateView_invalidateView (s : State) :
    s.invalidateView.invalidateView = s.invalidateView := rfl

@[simp] theorem State.clearFrame_clearFrame (s : State) : s.clearFrame.clearFrame = s.clearFrame := rfl

@[simp] theorem State.setCrc_setCrc (c c' : Half) (s : State) : (s.setCrc c).setCrc c' = s.setCrc c' := rfl

@[simp] theorem State.setEsc_setEsc (e e' : Bool) (s : State) : (s.setEsc e).setEsc e' = s.setEsc e' := rfl

@[simp] theorem State.txWrite_txWrite (bs cs : List Byte) (s : State) :
    (s.txWrite bs).txWrite cs = s.txWrite (bs ++ cs) := by
  simp [State.txWrite]

@[simp] theorem State.txWrite_nil (s : State) : s.txWrite [] = s := by
  simp [State.txWrite]

@[simp] theorem State.setEsc_self (s : State) : s.setEsc s.esc = s := rfl

/-- What the buffer reads does not depend on any field but the buffer and the reset count. -/
theorem State.byteAt_congr {s t : State} (hb : t.buf = s.buf) (hr : t.resets = s.resets) (a : Nat) :
    t.byteAt a = s.byteAt a := by
  simp [State.byteAt, hb, hr]

/-- A span reads the bytes below its bound. -/
theorem State.span_length (s : State) (n : Nat) : (s.span n).length = n := by
  simp [State.span]

theorem State.span_congr {s t : State} {n : Nat} (h : ∀ a < n, t.byteAt a = s.byteAt a) : t.span n = s.span n := by
  simp only [State.span]
  exact List.map_congr_left fun a ha => h a (List.mem_range.mp ha)

/-! Procedures -/

@[simp] theorem Proc.andThen_ends {α β : Type} (a : α) (s : State) (k : α → State → Proc β) :
    (Proc.ends a s).andThen k = k a s := rfl

@[simp] theorem Proc.andThen_stops {α β : Type} (r : Fault) (k : α → State → Proc β) :
    (Proc.stops r : Proc α).andThen k = .stops r := rfl

@[simp] theorem Proc.finally_ends {α : Type} (a : α) (s : State) (k : α → State → State) :
    (Proc.ends a s).finally k = .next (k a s) := rfl

@[simp] theorem Proc.finally_stops {α : Type} (r : Fault) (k : α → State → State) :
    (Proc.stops r : Proc α).finally k = .fault r := rfl

/-- A sequence ends only where its first part ends and its second part ends from there. -/
theorem Proc.andThen_eq_ends {α β : Type} {p : Proc α} {k : α → State → Proc β} {b : β} {t : State} :
    p.andThen k = .ends b t ↔ ∃ a s, p = .ends a s ∧ k a s = .ends b t := by
  cases p <;> simp

/-- An operation over a procedure answers a next state only where the procedure ends. -/
theorem Proc.finally_eq_next {α : Type} {p : Proc α} {k : α → State → State} {t : State} :
    p.finally k = .next t ↔ ∃ a s, p = .ends a s ∧ k a s = t := by
  cases p <;> simp

/-- It stops only where the procedure stops. -/
theorem Proc.finally_eq_fault {α : Type} {p : Proc α} {k : α → State → State} {r : Fault} :
    p.finally k = .fault r ↔ p = .stops r := by
  cases p <;> simp

end Sys2Proof.Machine
end

