-- ==== Sys2Proof/Laws/Codec.lean ====
section
/-! SUPPORT. The SLIP codec: what the encoder writes and what one decoder step can do. -/

namespace Sys2Proof.Machine

/-- The escaped form of each byte, case by case (R71). -/
theorem escape_cases (b : Byte) :
    (b = slipEnd ∧ escape b = [slipEsc, slipEscEnd]) ∨ (b = slipEsc ∧ escape b = [slipEsc, slipEscEsc]) ∨
    (b ≠ slipEnd ∧ b ≠ slipEsc ∧ escape b = [b]) := by
  unfold escape
  split
  · exact .inl ⟨‹_›, rfl⟩
  · split
    · exact .inr (.inl ⟨‹_›, rfl⟩)
    · exact .inr (.inr ⟨‹_›, ‹_›, rfl⟩)

@[simp] theorem escape_zero : escape 0 = [0] := by decide

/-- No escaped form is empty. -/
theorem escape_ne_nil (b : Byte) : escape b ≠ [] := by
  obtain ⟨-, h⟩ | ⟨-, h⟩ | ⟨-, -, h⟩ := escape_cases b <;> simp [h]

/-- Everything one decoder step can do (R104 to R106). -/
theorem decodeByte_cases (esc : Bool) (b : Byte) :
    (b = slipEnd ∧ decodeByte esc b = (.boundary, false)) ∨
    (b = slipEsc ∧ decodeByte esc b = (.nothing, true)) ∨
    (b ≠ slipEnd ∧ b ≠ slipEsc ∧ decodeByte esc b = (.data (if esc then unescape b else b), false)) := by
  unfold decodeByte
  split
  · exact .inl ⟨‹_›, rfl⟩
  · split
    · exact .inr (.inl ⟨‹_›, rfl⟩)
    · refine .inr (.inr ⟨‹_›, ‹_›, ?_⟩)
      cases esc <;> rfl

@[simp] theorem unescape_escEnd : unescape slipEscEnd = slipEnd := by decide

@[simp] theorem unescape_escEsc : unescape slipEscEsc = slipEsc := by decide

/-- Encoding only appends to the TX log. -/
theorem State.encodeOut_eq (b : Byte) (s : State) : s.encodeOut b = s.txWrite (escape b) := rfl

end Sys2Proof.Machine
end

