-- ==== Sys2Proof/Laws/Crc.lean ====
section
/-! SUPPORT. The CRC engine: folding a sequence in parts. -/

namespace Sys2Proof.Machine

@[simp] theorem crcFold_nil (a : Half) : crcFold a [] = a := rfl

@[simp] theorem crcFold_cons (a : Half) (b : Byte) (bs : List Byte) :
    crcFold a (b :: bs) = crcFold (crcStep a b) bs := rfl

/-- The accumulator streams: a sequence in two parts is folded one part after the other (R123). -/
theorem crcFold_append (a : Half) (bs cs : List Byte) : crcFold a (bs ++ cs) = crcFold (crcFold a bs) cs :=
  List.foldl_append

theorem crc16_append (bs cs : List Byte) : crc16 (bs ++ cs) = crcFold (crc16 bs) cs := crcFold_append 0 bs cs

/-- Folding the byte enters the accumulator by exclusive or, so the transform has one argument in effect. -/
theorem crcStep_eq_xor (a : Half) (v : Byte) : crcStep a v = crcStep (a ^^^ v.setWidth 16) 0 := by
  simp [crcStep]

/-- Folding one byte writes CRC and nothing else. -/
theorem State.foldCrc_eq (b : Byte) (s : State) : s.foldCrc b = s.setCrc (crcStep s.crc b) := rfl

end Sys2Proof.Machine
end

