-- ==== Sys2Proof/Laws/Builder.lean ====
section
/-! SUPPORT. The outbound primitives, each as one write to the TX log and one value of CRC. -/

namespace Sys2Proof.Machine

/-- The writes of the TX log and of CRC do not meet. -/
theorem State.txWrite_setCrc (bs : List Byte) (c : Half) (s : State) :
    (s.setCrc c).txWrite bs = (s.txWrite bs).setCrc c := rfl

theorem State.openFrame_eq (s : State) : s.openFrame = (s.txWrite [slipEnd]).setCrc 0 := rfl

theorem State.sendByte_eq (b : Byte) (s : State) :
    s.sendByte b = (s.txWrite (escape b)).setCrc (crcStep s.crc b) := rfl

theorem State.sendPad_eq (s : State) : s.sendPad = (s.txWrite [0]).setCrc (crcStep s.crc 0) := rfl

/-- Body bytes in order: their escaped forms on the log, all of them folded (R131). -/
theorem State.sendBytes_eq (bs : List Byte) (s : State) :
    s.sendBytes bs = (s.txWrite (bs.flatMap escape)).setCrc (crcFold s.crc bs) := by
  induction bs generalizing s with
  | nil => simp [State.sendBytes, State.setCrc]
  | cons b bs ih =>
    have h : s.sendBytes (b :: bs) = (s.sendByte b).sendBytes bs := rfl
    rw [h, ih, State.sendByte_eq]
    simp [State.txWrite_setCrc]

/-- k pad bytes: k zeros on the log, all of them folded (R132). -/
theorem State.sendPads_eq (k : Nat) (s : State) :
    s.sendPads k = (s.txWrite (List.replicate k 0)).setCrc (crcFold s.crc (List.replicate k 0)) := by
  induction k generalizing s with
  | zero => simp [State.sendPads, State.setCrc]
  | succ k ih =>
    have h : s.sendPads (k + 1) = s.sendPad.sendPads k := rfl
    rw [h, ih, State.sendPad_eq]
    simp [State.txWrite_setCrc, List.replicate_succ]

/-- Closing a frame writes the snapshot low byte first and END, and leaves CRC (R133). -/
theorem State.closeFrame_eq (s : State) :
    s.closeFrame = s.txWrite (escape (lo8 s.crc) ++ escape (hi8 s.crc) ++ [slipEnd]) := by
  simp [State.closeFrame, State.encodeOut]

end Sys2Proof.Machine
end

