-- ==== Sys2Proof/Laws/Decode.lean ====
section
/-! SUPPORT. The fields of an encoded command word (30_encoding.md R76). -/

namespace Sys2Proof

/-- Bit k of a word put together from its fields. -/
theorem getLsbD_fields (a b : Byte) (c : Half) (k : Nat) :
    BitVec.getLsbD (w := 32) (a ++ b ++ c) k =
      if k < 16 then c.getLsbD k else if k - 16 < 8 then b.getLsbD (k - 16) else a.getLsbD (k - 16 - 8) := by
  change BitVec.getLsbD (w := 8 + 8 + 16) (a ++ b ++ c) k = _
  rw [BitVec.getLsbD_append, BitVec.getLsbD_append]

/-- The three fields of a word put together from its parts are the parts. -/
theorem fields_append (a b : Byte) (c : Half) :
    opcField (a ++ b ++ c) = a ∧ rsvField (a ++ b ++ c) = b ∧ immField (a ++ b ++ c) = c := by
  refine ⟨?_, ?_, ?_⟩ <;> apply BitVec.eq_of_getLsbD_eq <;> intro j hj
  · have h1 : ¬ 24 + j < 16 := by omega
    have h2 : ¬ 24 + j - 16 < 8 := by omega
    have h3 : 24 + j - 16 - 8 = j := by omega
    rw [opcField, BitVec.getLsbD_extractLsb', getLsbD_fields, if_neg h1, if_neg h2, h3]
    simp [hj]
  · have h1 : ¬ 16 + j < 16 := by omega
    have h2 : 16 + j - 16 = j := by omega
    rw [rsvField, BitVec.getLsbD_extractLsb', getLsbD_fields, if_neg h1, h2]
    simp [hj]
  · rw [immField, BitVec.getLsbD_extractLsb', getLsbD_fields]
    simp [hj]

@[simp] theorem opcField_encode (i : Instr) : opcField (encode i) = opcodeOf i := (fields_append _ _ _).1

@[simp] theorem rsvField_encode (i : Instr) : rsvField (encode i) = 0 := (fields_append _ _ _).2.1

@[simp] theorem immField_encode (i : Instr) : immField (encode i) = operandOf i := (fields_append _ _ _).2.2

/-- Everything the decoder can do: a legal word has RSV zero, and its operation is the opcode map's (R79). -/
theorem decode_eq_ok {w : Word} {i : Instr} :
    decode w = .ok i ↔ rsvField w = 0 ∧ decodeOperation (opcField w) (immField w) = .ok i := by
  unfold decode
  split
  · simp [*]
  · simp only [reduceCtorEq, false_iff, not_and]
    intro h
    contradiction

end Sys2Proof
end

