-- ==== Sys2Proof/Laws/Memory.lean ====
section
/-! SUPPORT. The frame buffer: reading after writing, and the canonical form, which every memory operation keeps. -/

namespace Sys2Proof.Machine

/-- Reading the written index gives the written byte. -/
@[simp] theorem Memory.read?_write_same (m : Memory) (a : Nat) (v : Byte) : (m.write a v).read? a = some v := by
  induction m with
  | nil => simp [Memory.write, Memory.read?]
  | cons c m ih =>
    obtain ⟨b, w⟩ := c
    simp only [Memory.write]
    split
    · simp [Memory.read?]
    · split
      · simp [Memory.read?]
      · simp [Memory.read?, *]

/-- A write leaves every other index alone. -/
theorem Memory.read?_write_other (m : Memory) {a x : Nat} (v : Byte) (h : x ≠ a) :
    (m.write a v).read? x = m.read? x := by
  induction m with
  | nil => simp [Memory.write, Memory.read?, h]
  | cons c m ih =>
    obtain ⟨b, w⟩ := c
    simp only [Memory.write]
    split
    · simp [Memory.read?, h]
    · split
      · subst_vars; simp [Memory.read?, h]
      · simp [Memory.read?, ih]

/-- The indices after a write are the old ones and the written one. -/
theorem Memory.mem_write {m : Memory} {a : Nat} {v : Byte} {c : Host.Cell} (h : c ∈ m.write a v) :
    c = (a, v) ∨ c ∈ m := by
  induction m with
  | nil => simpa [Memory.write] using h
  | cons d m ih =>
    obtain ⟨b, w⟩ := d
    simp only [Memory.write] at h
    split at h
    · simpa using h
    · split at h
      · rcases List.mem_cons.mp h with h | h
        · exact .inl h
        · exact .inr (List.mem_cons_of_mem _ h)
      · rcases List.mem_cons.mp h with h | h
        · exact .inr (by simp [h])
        · exact (ih h).imp id (List.mem_cons_of_mem _)

/-- A write keeps the canonical form. -/
theorem Memory.wf_write {m : Memory} (h : m.wf) (a : Nat) (v : Byte) : (m.write a v).wf := by
  induction m with
  | nil => simp [Memory.write]
  | cons c m ih =>
    obtain ⟨b, w⟩ := c
    obtain ⟨hb, hm⟩ := List.pairwise_cons.mp h
    simp only [Memory.write]
    split
    · rename_i hab
      refine List.pairwise_cons.mpr ⟨?_, h⟩
      intro d hd
      rcases List.mem_cons.mp hd with rfl | hd
      · exact hab
      · exact Nat.lt_trans hab (hb d hd)
    · split
      · rename_i _ hab
        subst hab
        exact List.pairwise_cons.mpr ⟨hb, hm⟩
      · rename_i h1 h2
        refine List.pairwise_cons.mpr ⟨?_, ih hm⟩
        intro d hd
        rcases Memory.mem_write hd with rfl | hd
        · show b < a; omega
        · exact hb d hd

/-- The memory of the state after reset is in canonical form: nothing is listed. -/
theorem reset_buf_wf : State.reset.buf.wf := List.Pairwise.nil

/-- The assembler's store keeps the canonical form; it is the one write of the buffer. -/
theorem State.store_wf {s : State} (h : s.buf.wf) (v : Byte) : (s.store v).buf.wf := Memory.wf_write h _ _

@[simp] theorem State.store_byteAt_same (v : Byte) (s : State) : (s.store v).byteAt s.idx.toNat = v := by
  simp [State.byteAt]

theorem State.store_byteAt_other (v : Byte) (s : State) {a : Nat} (h : a ≠ s.idx.toNat) :
    (s.store v).byteAt a = s.byteAt a := by
  simp [State.byteAt, Memory.read?_write_other _ _ h]

/-- Storing at the fill level appends the byte to the span below it. -/
theorem State.store_span (v : Byte) (s : State) : (s.store v).span (s.idx.toNat + 1) = s.span s.idx.toNat ++ [v] := by
  simp only [State.span, List.range_succ, List.map_append, List.map_cons, List.map_nil, State.store_byteAt_same]
  congr 1
  refine List.map_congr_left fun a ha => State.store_byteAt_other v s ?_
  have := List.mem_range.mp ha
  omega

end Sys2Proof.Machine
end

