-- ==== Sys2Proof/Laws/Frames.lean ====
section
/-! SUPPORT. The frame assembler, the validator and the receive loops: for each procedure, everything it can do when
it ends, and the inductions over the loops packaged once. -/

namespace Sys2Proof.Machine

/-! The assembler and the validator -/

/-- Everything `ByteIn` can do (R151). -/
theorem State.byteIn_cases (v : Byte) (s : State) :
    (s.ovf = true ∧ s.byteIn v = s) ∨
    (s.ovf = false ∧ s.idx.toNat < s.cfg.cap ∧ s.byteIn v = s.store v) ∨
    (s.ovf = false ∧ s.cfg.cap ≤ s.idx.toNat ∧ s.byteIn v = s.markOversize) := by
  unfold State.byteIn
  split
  · exact .inl ⟨‹_›, rfl⟩
  · split
    · exact .inr (.inl ⟨by simpa using ‹¬ s.ovf = true›, ‹_›, rfl⟩)
    · exact .inr (.inr ⟨by simpa using ‹¬ s.ovf = true›, by omega, rfl⟩)

/-- The checksum the validator computes for a frame of m bytes (R154). -/
def State.frameCrc (s : State) (m : Half) : Half := crc16 (s.span (m.toNat - 2))

/-- The checksum a frame of m bytes carries, low byte first (R154, R51). -/
def State.carriedCrc (s : State) (m : Half) : Half :=
  u16le (s.byteAt (m.toNat - 2)) (s.byteAt (m.toNat - 1))

/-- Everything `Validate` can do: in both cases CRC becomes the computed checksum (R154). -/
theorem State.validate_cases (m : Half) (s : State) :
    (s.frameCrc m = s.carriedCrc m ∧ s.validate m = (.packet, (s.setCrc (s.frameCrc m)).showView m)) ∨
    (s.frameCrc m ≠ s.carriedCrc m ∧ s.validate m = (.dropped, (s.setCrc (s.frameCrc m)).recordDrop .crc)) := by
  by_cases h : s.frameCrc m = s.carriedCrc m
  · exact .inl ⟨h, if_pos h⟩
  · exact .inr ⟨h, if_neg h⟩

/-- Everything the verdict on a frame can be, its checks in order (R152, R224). -/
theorem State.judgeFrame_cases (s : State) :
    (s.ovf = true ∧ s.judgeFrame = (.dropped, s.recordDrop .oversize)) ∨
    (s.ovf = false ∧ s.idx = 0 ∧ s.judgeFrame = (.empty, s)) ∨
    (s.ovf = false ∧ s.idx ≠ 0 ∧ s.idx.toNat < 8 ∧ s.judgeFrame = (.dropped, s.recordDrop .short)) ∨
    (s.ovf = false ∧ 8 ≤ s.idx.toNat ∧ s.judgeFrame = s.validate s.idx) := by
  unfold State.judgeFrame
  split
  · exact .inl ⟨‹_›, rfl⟩
  · have ho : s.ovf = false := by simpa using ‹¬ s.ovf = true›
    split
    · exact .inr (.inl ⟨ho, ‹_›, rfl⟩)
    · split
      · exact .inr (.inr (.inl ⟨ho, ‹_›, ‹_›, rfl⟩))
      · exact .inr (.inr (.inr ⟨ho, by omega, rfl⟩))

/-- Everything a frame end can do; in every case the assembler is cleared (R152). -/
theorem State.frameEnd_cases (s : State) :
    (s.ovf = true ∧ s.frameEnd = (.dropped, (s.recordDrop .oversize).clearFrame)) ∨
    (s.ovf = false ∧ s.idx = 0 ∧ s.frameEnd = (.empty, s.clearFrame)) ∨
    (s.ovf = false ∧ s.idx ≠ 0 ∧ s.idx.toNat < 8 ∧ s.frameEnd = (.dropped, (s.recordDrop .short).clearFrame)) ∨
    (s.ovf = false ∧ 8 ≤ s.idx.toNat ∧ s.frameCrc s.idx ≠ s.carriedCrc s.idx ∧
      s.frameEnd = (.dropped, ((s.setCrc (s.frameCrc s.idx)).recordDrop .crc).clearFrame)) ∨
    (s.ovf = false ∧ 8 ≤ s.idx.toNat ∧ s.frameCrc s.idx = s.carriedCrc s.idx ∧
      s.frameEnd = (.packet, ((s.setCrc (s.frameCrc s.idx)).showView s.idx).clearFrame)) := by
  obtain ⟨h, e⟩ | ⟨h, h', e⟩ | ⟨h, h', h'', e⟩ | ⟨h, h', e⟩ := s.judgeFrame_cases
  · exact .inl ⟨h, by simp [State.frameEnd, e]⟩
  · exact .inr (.inl ⟨h, h', by simp [State.frameEnd, e]⟩)
  · exact .inr (.inr (.inl ⟨h, h', h'', by simp [State.frameEnd, e]⟩))
  · obtain ⟨hc, v⟩ | ⟨hc, v⟩ := s.validate_cases s.idx
    · exact .inr (.inr (.inr (.inr ⟨h, h', hc, by simp [State.frameEnd, e, v]⟩)))
    · exact .inr (.inr (.inr (.inl ⟨h, h', hc, by simp [State.frameEnd, e, v]⟩)))

/-! One wire byte -/

/-- Everything a boundary can do when it ends: a packet goes to the hook, the rest is reported (R157). -/
theorem rxBoundary_ends {hook : State → Proc ByteResult} {s t : State} {r : ByteResult}
    (h : rxBoundary hook s = .ends r t) :
    (s.ovf = true ∨ s.idx.toNat ≤ s.cfg.cap) ∧
    ((∃ u, s.frameEnd = (.packet, u) ∧ hook u = .ends r t) ∨
      (s.frameEnd = (.dropped, t) ∧ r = .dropped) ∨ (s.frameEnd = (.empty, t) ∧ r = .empty)) := by
  unfold rxBoundary at h
  split at h
  · rename_i hc
    refine ⟨by simpa [State.holds] using hc, ?_⟩
    split at h
    · exact .inl ⟨_, ‹_›, h⟩
    · cases h; exact .inr (.inl ⟨‹_›, rfl⟩)
    · cases h; exact .inr (.inr ⟨‹_›, rfl⟩)
  · cases h

/-- Everything one wire byte can do when its processing ends (R157). -/
theorem rxByte_ends {hook : State → Proc ByteResult} {b : Byte} {s t : State} {r : ByteResult}
    (h : rxByte hook b s = .ends r t) :
    (b = slipEnd ∧ rxBoundary hook (s.setEsc false) = .ends r t) ∨
    (b = slipEsc ∧ r = .byte ∧ t = s.setEsc true) ∨
    (b ≠ slipEnd ∧ b ≠ slipEsc ∧ r = .byte ∧
      t = (s.setEsc false).byteIn (if s.esc then unescape b else b)) := by
  obtain ⟨hb, e⟩ | ⟨hb, e⟩ | ⟨hb, hb', e⟩ := decodeByte_cases s.esc b
  · exact .inl ⟨hb, by simpa [rxByte, State.decodeIn, e] using h⟩
  · simp only [rxByte, State.decodeIn, e] at h
    cases h
    exact .inr (.inl ⟨hb, rfl, rfl⟩)
  · simp only [rxByte, State.decodeIn, e] at h
    cases h
    exact .inr (.inr ⟨hb, hb', rfl, rfl⟩)

/-- A wire byte at an END is the boundary (R104, R157). -/
theorem rxByte_end (hook : State → Proc ByteResult) (s : State) :
    rxByte hook slipEnd s = rxBoundary hook (s.setEsc false) := by
  simp [rxByte, State.decodeIn, decodeByte]

/-- An ESC arms the flag (R104, R105). -/
theorem rxByte_esc (hook : State → Proc ByteResult) (s : State) :
    rxByte hook slipEsc s = .ends .byte (s.setEsc true) := by
  simp [rxByte, State.decodeIn, decodeByte, slipEsc, slipEnd]

/-- Every other byte is decoded and stored (R104, R151). -/
theorem rxByte_data (hook : State → Proc ByteResult) {b : Byte} (h : b ≠ slipEnd) (h' : b ≠ slipEsc) (s : State) :
    rxByte hook b s = .ends .byte ((s.setEsc false).byteIn (if s.esc then unescape b else b)) := by
  obtain ⟨hb, -⟩ | ⟨hb, -⟩ | ⟨-, -, e⟩ := decodeByte_cases s.esc b
  · exact absurd hb h
  · exact absurd hb h'
  · simp [rxByte, State.decodeIn, e]

/-! Polls -/

theorem State.rxPoll_none {s : State} {rest : List (Option Byte)} (h : s.rx.answers = none :: rest) :
    s.rxPoll = (none, s.polled rest 0) := by
  simp [State.rxPoll, h]

theorem State.rxPoll_some {s : State} {b : Byte} {rest : List (Option Byte)} (h : s.rx.answers = some b :: rest) :
    s.rxPoll = (some b, s.polled rest 1) := by
  simp [State.rxPoll, h]

theorem State.rxPoll_silent {s : State} (h : s.rx = ⟨[], .silent⟩) : s.rxPoll = (none, s) := by
  simp [State.rxPoll, h]

theorem State.rxPoll_unlisted {s : State} {k : Nat} (h : s.rx = ⟨[], .unlisted k⟩) :
    s.rxPoll = (Config.rxOracle s.resets k, s.drew (.unlisted (k + 1)) (Config.rxOracle s.resets k)) := by
  simp [State.rxPoll, h]

theorem State.rxPoll_endless {s : State} {k : Nat} (h : s.rx = ⟨[], .endless k⟩) :
    s.rxPoll = (some (Config.endlessByte s.resets k),
      s.drew (.endless (k + 1)) (some (Config.endlessByte s.resets k))) := by
  simp [State.rxPoll, h]

/-- Everything a poll can do (R57): it takes a listed answer, finds the peer silent, or draws. -/
theorem State.rxPoll_cases (s : State) :
    (∃ a rest, s.rx.answers = a :: rest ∧ s.rxPoll = (a, s.polled rest a.toList.length)) ∨
    (s.rx = ⟨[], .silent⟩ ∧ s.rxPoll = (none, s)) ∨
    (∃ k a, s.rx = ⟨[], .unlisted k⟩ ∧ s.rxPoll = (a, s.drew (.unlisted (k + 1)) a)) ∨
    (∃ k b, s.rx = ⟨[], .endless k⟩ ∧ s.rxPoll = (some b, s.drew (.endless (k + 1)) (some b))) := by
  rcases h : s.rx with ⟨_ | ⟨_ | b, rest⟩, _ | k | k⟩
  case nil.silent => exact .inr (.inl ⟨rfl, State.rxPoll_silent h⟩)
  case nil.unlisted => exact .inr (.inr (.inl ⟨k, _, rfl, State.rxPoll_unlisted h⟩))
  case nil.endless => exact .inr (.inr (.inr ⟨k, _, rfl, State.rxPoll_endless h⟩))
  all_goals
    refine .inl ⟨_, _, rfl, ?_⟩
    first
      | exact State.rxPoll_none (by rw [h])
      | exact State.rxPoll_some (by rw [h])

/-- Everything the gap after the poll budget can be (R256; log 4). -/
theorem State.rxGap_eq_some {s t : State} {n : Nat} :
    s.rxGap n = some t ↔
      (s.rx.tail = .silent ∧ t = s) ∨ ∃ k, s.rx.tail = .unlisted k ∧ t = s.drew (.unlisted (k + n)) none := by
  unfold State.rxGap
  cases s.rx.tail <;> simp [eq_comm]

theorem State.rxGap_eq_none {s : State} {n : Nat} : s.rxGap n = none ↔ ∃ k, s.rx.tail = .endless k := by
  unfold State.rxGap
  cases s.rx.tail <;> simp

/-- The poll budget reaches past the listed answers. -/
theorem State.length_le_pollBudget (s : State) : s.rx.answers.length ≤ s.pollBudget := by
  unfold State.pollBudget
  cases s.rx.tail <;> simp

/-- A hook that reports a packet or a SYNC procedure, as `Intercept` and the sync wait do. -/
def HookReports (hook : State → Proc ByteResult) : Prop :=
  ∀ u r t, hook u = .ends r t → r = .packet ∨ ∃ ok, r = .synced ok

/-- A frame end polls nothing. -/
theorem State.frameEnd_rx (s : State) : s.frameEnd.2.rx = s.rx ∧ s.frameEnd.2.resets = s.resets := by
  obtain ⟨-, e⟩ | ⟨-, -, e⟩ | ⟨-, -, -, e⟩ | ⟨-, -, -, e⟩ | ⟨-, -, -, e⟩ := s.frameEnd_cases <;> simp [e]

/-- A wire byte after which the loop goes on polled nothing. -/
theorem rxByte_rx {hook : State → Proc ByteResult} (hh : HookReports hook) {b : Byte} {s t : State} {r : ByteResult}
    (h : rxByte hook b s = .ends r t) (hr : r = .byte ∨ r = .empty ∨ r = .dropped) :
    t.rx = s.rx ∧ t.resets = s.resets := by
  obtain ⟨-, hb⟩ | ⟨-, -, rfl⟩ | ⟨-, -, -, rfl⟩ := rxByte_ends h
  · have hf' := (s.setEsc false).frameEnd_rx
    obtain ⟨-, ⟨w, -, he⟩ | ⟨hw, -⟩ | ⟨hw, -⟩⟩ := rxBoundary_ends hb
    · obtain rfl | ⟨ok, rfl⟩ := hh _ _ _ he <;> simp at hr
    · simpa [hw] using hf'
    · simpa [hw] using hf'
  · simp
  · obtain ⟨-, e⟩ | ⟨-, -, e⟩ | ⟨-, -, e⟩ :=
      State.byteIn_cases (if s.esc then unescape b else b) (s.setEsc false) <;> rw [e] <;> simp

/-! The loops -/

/-- Induction over the loop of `TryReceive`: what holds at its start, and is kept by every poll, by the gap and by every
wire byte, holds where it ends. -/
theorem drain_keeps {hook : State → Proc ByteResult} (P : State → Prop)
    (hpoll : ∀ s, P s → P s.rxPoll.2)
    (hgap : ∀ s t, P s → s.rxGap 1 = some t → P t)
    (hbyte : ∀ b s r t, P s → rxByte hook b s = .ends r t → P t) :
    ∀ (n : Nat) (s : State) (r : RecvResult) (t : State), P s → drain hook n s = .ends r t → P t := by
  intro n
  induction n with
  | zero =>
    intro s r t hs h
    simp only [drain] at h
    split at h
    · cases h
    · cases h; exact hgap _ _ hs ‹_›
  | succ n ih =>
    intro s r t hs h
    have hp := hpoll s hs
    simp only [drain] at h
    split at h <;> rename_i u hu <;> rw [hu] at hp
    · cases h; exact hp
    · split at h
      · cases h
      all_goals rename_i v hv; have hP := hbyte _ _ _ _ hp hv
      · cases h; exact hP
      · cases h; exact hP
      · exact ih _ _ _ hP h
      · exact ih _ _ _ hP h
      · exact ih _ _ _ hP h

/-- The pseudocode of R158 on a listed answer: no byte. -/
theorem tryReceive_none (hook : State → Proc ByteResult) {s : State} {rest : List (Option Byte)}
    (h : s.rx.answers = none :: rest) : tryReceive hook s = .ends .nopacket (s.polled rest 0) := by
  obtain ⟨n, hn⟩ : ∃ n, s.pollBudget = n + 1 :=
    ⟨s.pollBudget - 1, by have := s.length_le_pollBudget; rw [h, List.length_cons] at this; omega⟩
  simp [tryReceive, hn, drain, State.rxPoll_none h]

/-- The pseudocode of R158 on a listed answer: a byte, after which the loop ends or goes on. -/
theorem tryReceive_some {hook : State → Proc ByteResult} (hh : HookReports hook) {s : State} {b : Byte}
    {rest : List (Option Byte)} (h : s.rx.answers = some b :: rest) :
    tryReceive hook s =
      match rxByte hook b (s.polled rest 1) with
      | .stops r => .stops r
      | .ends .packet t => .ends .packet t
      | .ends (.synced ok) t => .ends (.synced ok) t
      | .ends .byte t => tryReceive hook t
      | .ends .empty t => tryReceive hook t
      | .ends .dropped t => tryReceive hook t := by
  have hb : s.pollBudget = (s.polled rest 1).pollBudget + 1 := by
    simp only [State.pollBudget, State.polled_rx, State.polled_resets]
    cases s.rx.tail <;> (simp only [h, List.length_cons]; try omega)
  have hc : ∀ t : State, t.rx = (s.polled rest 1).rx ∧ t.resets = (s.polled rest 1).resets →
      (s.polled rest 1).pollBudget = t.pollBudget := by
    intro t ht
    simp only [State.pollBudget, ht.1, ht.2]
  rw [tryReceive, hb]
  simp only [drain, State.rxPoll_some h]
  cases hr : rxByte hook b (s.polled rest 1) with
  | stops r => rfl
  | ends r t =>
    cases r with
    | packet => rfl
    | synced ok => rfl
    | byte => simp only [tryReceive, hc t (rxByte_rx hh hr (by simp))]
    | empty => simp only [tryReceive, hc t (rxByte_rx hh hr (by simp))]
    | dropped => simp only [tryReceive, hc t (rxByte_rx hh hr (by simp))]

/-- An endless peer with nothing listed: the loop never completes (R256). -/
theorem tryReceive_endless (hook : State → Proc ByteResult) {s : State} {k : Nat} (h : s.rx = ⟨[], .endless k⟩) :
    tryReceive hook s = .stops .peerNotDone := by
  simp [tryReceive, State.pollBudget, h, drain, State.rxGap]

/-- The same for the iterations of `Receive`. -/
theorem receiveLoop_keeps {hook : State → Proc ByteResult} (P : State → Prop)
    (htry : ∀ s r t, P s → tryReceive hook s = .ends r t → P t) :
    ∀ (n : Nat) (s : State) (r : RecvResult) (t : State), P s → receiveLoop hook n s = .ends r t → P t := by
  intro n
  induction n with
  | zero => intro s r t hs h; cases h; exact hs
  | succ n ih =>
    intro s r t hs h
    simp only [receiveLoop] at h
    split at h
    · cases h
    all_goals rename_i u hu; have hP := htry _ _ _ hs hu
    · cases h; exact hP
    · exact ih _ _ _ hP h
    · exact ih _ _ _ hP h

/-- A silent peer with nothing listed yields no packet and changes nothing. -/
theorem tryReceive_quiet {hook : State → Proc ByteResult} {s : State} (h : s.rx = ⟨[], .silent⟩) :
    tryReceive hook s = .ends .nopacket s := by
  simp [tryReceive, State.pollBudget, h, drain, State.rxGap]

theorem receiveLoop_quiet {hook : State → Proc ByteResult} {s : State} (h : s.rx = ⟨[], .silent⟩) (n : Nat) :
    receiveLoop hook n s = .ends .nopacket s := by
  induction n with
  | zero => rfl
  | succ n ih => simp [receiveLoop, tryReceive_quiet h, ih]

/-- `Receive` is its iterations: passing over those of a peer that is silent for good changes nothing (R159). -/
theorem receive_eq_receiveLoop (hook : State → Proc ByteResult) (n : Nat) (s : State) :
    receive hook n s = receiveLoop hook n s := by
  unfold receive
  split
  · exact (receiveLoop_quiet (by simpa [State.quiet] using ‹s.quiet = true›) n).symm
  · rfl

/-- The pseudocode of R159, one iteration. -/
theorem receive_succ (hook : State → Proc ByteResult) (n : Nat) (s : State) :
    receive hook (n + 1) s =
      match tryReceive hook s with
      | .stops r => .stops r
      | .ends .packet t => .ends .packet t
      | .ends .nopacket t => receive hook n t
      | .ends (.synced _) t => receive hook n t := by
  rcases h : tryReceive hook s with ⟨_ | _ | _, _⟩ | _ <;> simp [receive_eq_receiveLoop, receiveLoop, h]

theorem receive_zero (hook : State → Proc ByteResult) (s : State) : receive hook 0 s = .ends .nopacket s := by
  rw [receive_eq_receiveLoop]; rfl

/-! Discard -/

/-- Induction over the loop of `Discard`: what every poll and the gap keep holds where it ends. -/
theorem discardLoop_keeps (P : State → Prop) (hpoll : ∀ s, P s → P s.rxPoll.2)
    (hgap : ∀ s t, P s → s.rxGap 1 = some t → P t) :
    ∀ (k n : Nat) (s : State) (m : Nat) (t : State), P s → discardLoop k n s = .ends m t → P t := by
  intro k
  induction k with
  | zero =>
    intro n s m t hs h
    simp only [discardLoop] at h
    split at h
    · cases h
    · cases h; exact hgap _ _ hs ‹_›
  | succ k ih =>
    intro n s m t hs h
    have hp := hpoll s hs
    simp only [discardLoop] at h
    split at h <;> rename_i u hu <;> rw [hu] at hp
    · cases h; exact hp
    · exact ih _ _ _ _ hp h

/-- The listed bytes are consumed one after another; then the loop goes on with the rest of its budget (R163). -/
theorem discardLoop_bytes (bs : List Byte) :
    ∀ (k n : Nat) (s : State) (rest : List (Option Byte)), s.rx.answers = bs.map some ++ rest →
      discardLoop (bs.length + k) n s = discardLoop k (n + bs.length) (s.polled rest bs.length) := by
  induction bs with
  | nil =>
    intro k n s rest h
    have e : s.polled rest 0 = s := by
      have hr : (⟨rest, s.rx.tail⟩ : Peer) = s.rx := by
        rw [show rest = s.rx.answers by simpa using h.symm]
      simp [State.polled, hr]
    simp [e]
  | cons b bs ih =>
    intro k n s rest h
    rw [show (b :: bs).length + k = (bs.length + k) + 1 by simp; omega]
    simp only [discardLoop, State.rxPoll_some (show s.rx.answers = some b :: (bs.map some ++ rest) by simpa using h)]
    rw [ih k (n + 1) (s.polled (bs.map some ++ rest) 1) rest (by simp)]
    rw [show n + 1 + bs.length = n + (b :: bs).length by simp; omega]
    congr 1
    simp only [State.polled, List.length_cons]
    congr 1
    omega

/-- `Discard` where the listed bytes are followed by a gap (R163). -/
theorem discard_gap {s : State} {bs : List Byte} {rest : List (Option Byte)}
    (h : s.rx.answers = bs.map some ++ none :: rest) :
    discard s = .ends bs.length (s.polled rest bs.length).clearFrame := by
  obtain ⟨k, hk⟩ : ∃ k, s.pollBudget = bs.length + (k + 1) :=
    ⟨s.pollBudget - (bs.length + 1), by
      have := s.length_le_pollBudget
      rw [h, List.length_append, List.length_map, List.length_cons] at this
      omega⟩
  rw [discard, hk, discardLoop_bytes bs _ 0 s _ h]
  simp [discardLoop, State.rxPoll, State.polled]

/-- `Discard` where the listed bytes are followed by silence (R163). -/
theorem discard_silent {s : State} {bs : List Byte} (h : s.rx = ⟨bs.map some, .silent⟩) :
    discard s = .ends bs.length (s.polled [] bs.length).clearFrame := by
  have hk : s.pollBudget = bs.length + 0 := by simp [State.pollBudget, h]
  rw [discard, hk, discardLoop_bytes bs _ 0 s [] (by simp [h])]
  simp [discardLoop, State.rxGap, h]

/-- `Discard` where the bytes do not end never completes (R256). -/
theorem discard_endless {s : State} {bs : List Byte} {k : Nat} (h : s.rx = ⟨bs.map some, .endless k⟩) :
    discard s = .stops .peerNotDone := by
  have hk : s.pollBudget = bs.length + 0 := by simp [State.pollBudget, h]
  rw [discard, hk, discardLoop_bytes bs _ 0 s [] (by simp [h])]
  simp [discardLoop, State.rxGap, h]

/-! What the receive path leaves alone when no packet is handed to a procedure that does more -/

/-- Which kind of tail a tail is: polls change only its count. -/
def Tail.kind : Tail → Tail
  | .silent => .silent
  | .unlisted _ => .unlisted 0
  | .endless _ => .endless 0

/-- The fields that polling, decoding, assembling and validating never write, and the kind of the peer's tail. -/
structure SameOutside (s t : State) : Prop where
  cfg : t.cfg = s.cfg
  syncing : t.syncing = s.syncing
  syncLast : t.syncLast = s.syncLast
  evt : t.evt = s.evt
  result : t.result = s.result
  txLog : t.txLog = s.txLog
  tail : t.rx.tail.kind = s.rx.tail.kind
  hostq : t.hostq = s.hostq
  resets : t.resets = s.resets

theorem SameOutside.rfl' (s : State) : SameOutside s s := ⟨rfl, rfl, rfl, rfl, rfl, rfl, rfl, rfl, rfl⟩

theorem SameOutside.trans {s t u : State} (h : SameOutside s t) (h' : SameOutside t u) : SameOutside s u :=
  ⟨h'.cfg.trans h.cfg, h'.syncing.trans h.syncing, h'.syncLast.trans h.syncLast, h'.evt.trans h.evt,
    h'.result.trans h.result, h'.txLog.trans h.txLog, h'.tail.trans h.tail, h'.hostq.trans h.hostq,
    h'.resets.trans h.resets⟩

theorem SameOutside.rxPoll (s : State) : SameOutside s s.rxPoll.2 := by
  obtain ⟨a, rest, -, e⟩ | ⟨-, e⟩ | ⟨k, a, h, e⟩ | ⟨k, b, h, e⟩ := s.rxPoll_cases <;> rw [e] <;> constructor <;>
    simp_all [Tail.kind]

theorem SameOutside.rxGap {s t : State} {n : Nat} (h : s.rxGap n = some t) : SameOutside s t := by
  obtain ⟨-, rfl⟩ | ⟨k, hk, rfl⟩ := State.rxGap_eq_some.mp h
  · exact SameOutside.rfl' _
  · constructor <;> simp [hk, Tail.kind]

theorem SameOutside.byteIn (v : Byte) (s : State) : SameOutside s (s.byteIn v) := by
  obtain ⟨-, e⟩ | ⟨-, -, e⟩ | ⟨-, -, e⟩ := s.byteIn_cases v <;> rw [e] <;> constructor <;> simp

theorem SameOutside.frameEnd (s : State) : SameOutside s s.frameEnd.2 := by
  obtain ⟨-, e⟩ | ⟨-, -, e⟩ | ⟨-, -, -, e⟩ | ⟨-, -, -, e⟩ | ⟨-, -, -, e⟩ := s.frameEnd_cases <;> rw [e] <;>
    constructor <;> simp

/-- One wire byte leaves those fields alone up to where a packet is handed over: it ended there, or the hook took it
from there. -/
theorem rxByte_same {hook : State → Proc ByteResult} {b : Byte} {s t : State} {r : ByteResult}
    (h : rxByte hook b s = .ends r t) :
    SameOutside s t ∨ ∃ u, SameOutside s u ∧ u.pktValid = true ∧ hook u = .ends r t := by
  have hset : ∀ e, SameOutside s (s.setEsc e) := fun e => by constructor <;> simp
  obtain ⟨-, hb⟩ | ⟨-, -, rfl⟩ | ⟨-, -, -, rfl⟩ := rxByte_ends h
  · obtain ⟨-, ⟨u, hu, hh⟩ | ⟨hu, -⟩ | ⟨hu, -⟩⟩ := rxBoundary_ends hb
    · refine .inr ⟨u, (hset false).trans (by simpa [hu] using SameOutside.frameEnd (s.setEsc false)), ?_, hh⟩
      obtain ⟨-, e⟩ | ⟨-, -, e⟩ | ⟨-, -, -, e⟩ | ⟨-, -, -, e⟩ | ⟨-, -, -, e⟩ := (s.setEsc false).frameEnd_cases <;>
        rw [e] at hu <;> cases hu
      rfl
    · exact .inl ((hset false).trans (by simpa [hu] using SameOutside.frameEnd (s.setEsc false)))
    · exact .inl ((hset false).trans (by simpa [hu] using SameOutside.frameEnd (s.setEsc false)))
  · exact .inl (hset true)
  · exact .inl ((hset false).trans (SameOutside.byteIn _ _))

end Sys2Proof.Machine
end

