-- ==== Sys2Proof/Laws/PerInstr.lean ====
section
/-! SUPPORT. Statements about each operation as syntax, one lemma for each constructor of `Instr`. -/

namespace Sys2Proof.Laws

/-- The command word of an operation has its opcode in the defined range and RSV = 0x00 (R76, R78, R79). -/
def CommandWord.Statement (i : Instr) : Prop :=
  (opcField (encode i)).toNat < 0x10 ∧ rsvField (encode i) = 0x00

theorem CommandWord.nop : CommandWord.Statement .nop := by
  simp [CommandWord.Statement, opcodeOf]

theorem CommandWord.crcClr : CommandWord.Statement .crcClr := by
  simp [CommandWord.Statement, opcodeOf]

theorem CommandWord.crcAdd (b : Byte) : CommandWord.Statement (.crcAdd b) := by
  simp [CommandWord.Statement, opcodeOf]

theorem CommandWord.enc (b : Byte) : CommandWord.Statement (.enc b) := by
  simp [CommandWord.Statement, opcodeOf]

theorem CommandWord.txEnd : CommandWord.Statement .txEnd := by
  simp [CommandWord.Statement, opcodeOf]

theorem CommandWord.txBegin : CommandWord.Statement .txBegin := by
  simp [CommandWord.Statement, opcodeOf]

theorem CommandWord.txByte (b : Byte) : CommandWord.Statement (.txByte b) := by
  simp [CommandWord.Statement, opcodeOf]

theorem CommandWord.txPad (n : Half) : CommandWord.Statement (.txPad n) := by
  simp [CommandWord.Statement, opcodeOf]

theorem CommandWord.txFinal : CommandWord.Statement .txFinal := by
  simp [CommandWord.Statement, opcodeOf]

theorem CommandWord.rxStep : CommandWord.Statement .rxStep := by
  simp [CommandWord.Statement, opcodeOf]

theorem CommandWord.tryRecv : CommandWord.Statement .tryRecv := by
  simp [CommandWord.Statement, opcodeOf]

theorem CommandWord.recv (n : Half) : CommandWord.Statement (.recv n) := by
  simp [CommandWord.Statement, opcodeOf]

theorem CommandWord.rxFlush : CommandWord.Statement .rxFlush := by
  simp [CommandWord.Statement, opcodeOf]

theorem CommandWord.sync : CommandWord.Statement .sync := by
  simp [CommandWord.Statement, opcodeOf]

theorem CommandWord.rdreg (n : Half) : CommandWord.Statement (.rdreg n) := by
  simp [CommandWord.Statement, opcodeOf]

theorem CommandWord.rdbuf (n : Half) : CommandWord.Statement (.rdbuf n) := by
  simp [CommandWord.Statement, opcodeOf]

end Sys2Proof.Laws
end

