-- ==== Sys2Proof/Laws/Port.lean ====
section
/-! SUPPORT. Everything the command port can do: a word that answers a next state, and a step. -/

namespace Sys2Proof.Machine

/-- The held words and the rest of the host's queue are what it splits into at its first reset input. -/
theorem hostUntilReset_eq_some {l : List HostInput} {held : List Word} {q : List HostInput} :
    hostUntilReset l = some (held, q) ↔ l = held.map .command ++ .rst :: q := by
  induction l generalizing held with
  | nil => simp [hostUntilReset]
  | cons i l ih =>
    cases i with
    | rst => cases held <;> simp [hostUntilReset]
    | command w =>
      cases held with
      | nil => simp [hostUntilReset]
      | cons v held =>
        simp only [hostUntilReset, Option.map_eq_some_iff, Prod.mk.injEq, List.cons.injEq, Prod.exists, List.map_cons,
          List.cons_append, HostInput.command.injEq]
        constructor
        · rintro ⟨h, q', e, ⟨rfl, rfl⟩, rfl⟩
          exact ⟨rfl, ih.mp e⟩
        · rintro ⟨rfl, e⟩
          exact ⟨held, q, ih.mpr e, ⟨rfl, rfl⟩, rfl⟩

/-- Where the host presents no reset input there is none to end an operation. -/
theorem hostUntilReset_eq_none {l : List HostInput} : hostUntilReset l = none ↔ .rst ∉ l := by
  induction l with
  | nil => simp [hostUntilReset]
  | cons i l ih => cases i <;> simp [hostUntilReset, ih]

/-- The words still held are some of those that were, in their order. -/
theorem heldAfter_sublist (n : Nat) (ws : List Word) : ∀ j, (heldAfter n j ws).Sublist ws := by
  induction ws with
  | nil => intro j; exact List.Sublist.refl _
  | cons w ws ih =>
    intro j
    simp only [heldAfter]
    split
    · exact (ih _).cons_cons w
    · exact (ih _).cons w

/-- A reset ends only an operation that does not complete, and leaves the reset state with the peer and the host that
`State.abandon` gives. -/
theorem endedByReset_eq_next {r : Fault} {s t : State} :
    endedByReset r s = .next t ↔
      r = .peerNotDone ∧ ∃ held q, s.hostq = held.map .command ++ .rst :: q ∧ t = (s.abandon held q).applyReset := by
  cases r with
  | noSuchBufferByte => simp [endedByReset]
  | peerNotDone =>
    simp only [endedByReset, true_and]
    cases h : hostUntilReset s.hostq with
    | none =>
      simp only [reduceCtorEq, false_iff, not_exists, not_and]
      intro held q e
      rw [hostUntilReset_eq_some.mpr e] at h
      cases h
    | some p =>
      obtain ⟨held, q⟩ := p
      simp only [Host.Outcome.next.injEq]
      constructor
      · exact fun e => ⟨held, q, hostUntilReset_eq_some.mp h, e.symm⟩
      · rintro ⟨held', q', e, rfl⟩
        rw [hostUntilReset_eq_some.mpr e] at h
        cases h
        rfl

/-- A command word answers a next state as an illegal word, by its operation, or by the reset that ends it. -/
theorem runWord_eq_next {w : Word} {s t : State} :
    runWord w s = .next t ↔
      ((∃ e, decode w = .error e) ∧ t = s.reportIllegal) ∨
      (∃ i, decode w = .ok i ∧ (exec i s = .next t ∨
        (exec i s = .fault .peerNotDone ∧
          ∃ held q, s.hostq = held.map .command ++ .rst :: q ∧ t = (s.abandon held q).applyReset))) := by
  unfold runWord
  cases hd : decode w with
  | error e =>
    simp only [Host.Outcome.next.injEq, Except.error.injEq, exists_eq', true_and, reduceCtorEq, false_and, exists_false,
      or_false]
    exact ⟨Eq.symm, Eq.symm⟩
  | ok i =>
    simp only [reduceCtorEq, exists_false, false_and, false_or, Except.ok.injEq, exists_eq_left']
    cases he : exec i s with
    | next u => simp
    | fault r => simp [endedByReset_eq_next]
    | refused r => simp

/-- A step answers a next state by waiting, by the reset input or by a command word. -/
theorem step_eq_next {s t : State} :
    step s = .next t ↔
      (s.hostq = [] ∧ t = s) ∨
      (∃ q, s.hostq = .rst :: q ∧ t = State.afterReset s.cfg s.rx q (s.resets + 1)) ∨
      (∃ w q, s.hostq = .command w :: q ∧ runWord w { s with hostq := q } = .next t) := by
  unfold step State.fetch
  cases hq : s.hostq with
  | nil =>
    simp only [Host.Outcome.next.injEq, true_and, reduceCtorEq, false_and, exists_false, or_false]
    exact ⟨Eq.symm, Eq.symm⟩
  | cons i q =>
    cases i with
    | rst =>
      simp only [reduceCtorEq, false_and, false_or, Host.Outcome.next.injEq, List.cons.injEq, true_and,
        exists_eq_left', exists_false, or_false]
      exact ⟨Eq.symm, Eq.symm⟩
    | command w =>
      simp only [reduceCtorEq, false_and, false_or, exists_false, List.cons.injEq, HostInput.command.injEq]
      exact ⟨fun h => ⟨w, q, ⟨rfl, rfl⟩, h⟩, fun ⟨_, _, ⟨hw, hq'⟩, h⟩ => by subst hw hq'; exact h⟩

end Sys2Proof.Machine
end

