-- ==== Sys2Proof/Laws/Sync.lean ====
section
/-! SUPPORT. The synchronisation controller: the wait needs no more packets than answers are listed, its receives are
those of the receive operations with SYNCING = 1, and the procedure's writes. -/

namespace Sys2Proof.Machine

/-! The hook of the wait -/

/-- While SYNCING = 1 every packet is surfaced (R180, R183). -/
theorem intercept_of_syncing {s : State} (h : s.syncing = true) : intercept s = surface s := by
  simp [intercept, surface, h]

/-- Everything `Intercept` can do when it ends (R180). -/
theorem intercept_ends {s t : State} {r : ByteResult} (h : intercept s = .ends r t) :
    (s.packetCmd = s.cfg.syncCmd ∧ s.syncing = false ∧
      ∃ ok, syncProc s.invalidateView = .ends ok t ∧ r = .synced ok) ∨
    ((s.packetCmd ≠ s.cfg.syncCmd ∨ s.syncing = true) ∧ r = .packet ∧ t = s) := by
  unfold intercept at h
  split at h
  · obtain ⟨hc, hs⟩ := ‹_ ∧ _›
    obtain ⟨ok, u, hu, e⟩ := Proc.andThen_eq_ends.mp h
    cases e
    exact .inl ⟨hc, hs, ok, hu, rfl⟩
  · rename_i hn
    cases h
    refine .inr ⟨?_, rfl, rfl⟩
    by_cases hc : s.packetCmd = s.cfg.syncCmd
    · exact .inr (by simpa [hc] using hn)
    · exact .inl hc

/-- The receive path agrees under both hooks on a byte met while SYNCING = 1. -/
theorem rxByte_intercept_of_syncing {b : Byte} {s : State} (h : s.syncing = true) :
    rxByte intercept b s = rxByte surface b s := by
  by_cases h1 : b = slipEnd
  · subst h1
    simp only [rxByte_end, rxBoundary]
    split
    · split
      · rename_i u hu
        refine intercept_of_syncing ?_
        have := (SameOutside.frameEnd (s.setEsc false)).syncing
        simp_all
      · rfl
      · rfl
    · rfl
  · by_cases h2 : b = slipEsc
    · subst h2; simp only [rxByte_esc]
    · simp only [rxByte_data _ h1 h2]

/-- A byte under the surfacing hook leaves the fields outside the receive path alone. -/
theorem rxByte_surface_same {b : Byte} {s t : State} {r : ByteResult} (h : rxByte surface b s = .ends r t) :
    SameOutside s t := by
  obtain h | ⟨u, hu, -, e⟩ := rxByte_same h
  · exact h
  · cases e; exact hu

/-- `TryReceive` of the wait is `TryReceive` of the receive operations, met while SYNCING = 1 (R180; log 14). -/
theorem drain_intercept_of_syncing (n : Nat) :
    ∀ s : State, s.syncing = true → drain intercept n s = drain surface n s := by
  induction n with
  | zero => intro s _; rfl
  | succ n ih =>
    intro s hs
    have hp : s.rxPoll.2.syncing = true := by rw [(SameOutside.rxPoll s).syncing]; exact hs
    simp only [drain]
    rcases hq : s.rxPoll with ⟨_ | b, u⟩
    · rfl
    · rw [hq] at hp
      simp only [rxByte_intercept_of_syncing hp]
      cases h : rxByte surface b u with
      | stops r => rfl
      | ends r t =>
        have ht : t.syncing = true := by rw [(rxByte_surface_same h).syncing]; exact hp
        cases r <;> simp only [ih t ht]

theorem tryReceive_intercept_of_syncing {s : State} (h : s.syncing = true) :
    tryReceive intercept s = tryReceive surface s := drain_intercept_of_syncing _ s h

/-- What `TryReceive` and `Receive` of the wait leave alone. -/
theorem drain_surface_same {n : Nat} {s t : State} {r : RecvResult}
    (h : drain surface n s = .ends r t) : SameOutside s t :=
  drain_keeps (SameOutside s) (fun u hu => hu.trans (SameOutside.rxPoll u))
    (fun _ _ hu hg => hu.trans (SameOutside.rxGap hg)) (fun _ _ _ _ hu hv => hu.trans (rxByte_surface_same hv))
    n s r t (SameOutside.rfl' s) h

theorem receive_surface_same {n : Nat} {s t : State} {r : RecvResult}
    (h : receive surface n s = .ends r t) : SameOutside s t := by
  rw [receive_eq_receiveLoop] at h
  refine receiveLoop_keeps (SameOutside s) ?_ n s r t (SameOutside.rfl' s) h
  intro u r' v hu hv
  exact hu.trans (drain_surface_same hv)

theorem syncWait_same : ∀ {k : Nat} {s t : State} {ok : Bool}, syncWait k s = .ends ok t → SameOutside s t := by
  intro k
  induction k with
  | zero =>
    intro s t ok h
    simp only [syncWait] at h
    split at h
    · cases h
    · cases h; exact SameOutside.rxGap ‹_›
  | succ k ih =>
    intro s t ok h
    simp only [syncWait] at h
    split at h
    · cases h
    all_goals rename_i u hu; have hs := receive_surface_same hu
    · cases h; exact hs
    · cases h; exact hs
    · split at h
      · cases h; exact hs
      · exact hs.trans (SameOutside.trans (by constructor <;> simp) (ih h))

/-! The number of packets -/

theorem surface_reports : HookReports surface := by
  intro u r t h
  cases h
  exact .inl rfl

theorem intercept_reports : HookReports intercept := by
  intro u r t h
  obtain ⟨-, -, ok, -, rfl⟩ | ⟨-, rfl, -⟩ := intercept_ends h
  · exact .inr ⟨ok, rfl⟩
  · exact .inl rfl

/-- A packet the wait surfaces polled nothing after its last byte. -/
theorem rxByte_surface_rx {b : Byte} {s t : State} {r : ByteResult} (h : rxByte surface b s = .ends r t) :
    t.rx = s.rx := by
  obtain ⟨-, hb⟩ | ⟨-, -, rfl⟩ | ⟨-, -, -, rfl⟩ := rxByte_ends h
  · have hf' := (s.setEsc false).frameEnd_rx.1
    obtain ⟨-, ⟨w, hw, hh⟩ | ⟨hw, -⟩ | ⟨hw, -⟩⟩ := rxBoundary_ends hb
    · cases hh; simpa [hw] using hf'
    · simpa [hw] using hf'
    · simpa [hw] using hf'
  · simp
  · obtain ⟨-, e⟩ | ⟨-, -, e⟩ | ⟨-, -, e⟩ :=
      State.byteIn_cases (if s.esc then unescape b else b) (s.setEsc false) <;> rw [e] <;> simp

/-- The poll budget of a peer whose answers are all listed. -/
theorem State.pollBudget_listed {s : State} (hs : ∀ k, s.rx.tail ≠ .unlisted k) :
    s.pollBudget = s.rx.answers.length := by
  unfold State.pollBudget
  cases h : s.rx.tail with
  | silent => rfl
  | unlisted k => exact absurd h (hs k)
  | endless k => rfl

/-- Within its budget `TryReceive` of the wait leaves no more of the listed answers than there was, and fewer after a
packet. -/
theorem drain_surface_rest (n : Nat) :
    ∀ {s t : State} {r : RecvResult}, (∀ k, s.rx.tail ≠ .unlisted k) → n ≤ s.rx.answers.length →
      drain surface n s = .ends r t →
      t.rx.tail = s.rx.tail ∧ t.rx.answers.length ≤ s.rx.answers.length ∧
        (r = .packet → t.rx.answers.length < s.rx.answers.length) := by
  induction n with
  | zero =>
    intro s t r hs _ h
    simp only [drain] at h
    split at h
    · cases h
    · cases h
      obtain ⟨-, rfl⟩ | ⟨k, hk, -⟩ := State.rxGap_eq_some.mp ‹_›
      · simp
      · exact absurd hk (hs k)
  | succ n ih =>
    intro s t r hs hn h
    obtain ⟨a, l, hl⟩ : ∃ a l, s.rx.answers = a :: l := by
      cases hl : s.rx.answers with
      | nil => simp [hl] at hn
      | cons a l => exact ⟨a, l, rfl⟩
    cases a with
    | none => simp only [drain, State.rxPoll_none hl] at h; cases h; simp [hl]
    | some b =>
      simp only [drain, State.rxPoll_some hl] at h
      split at h
      · cases h
      all_goals
        rename_i u hu
        have hx : u.rx = ⟨l, s.rx.tail⟩ := by rw [rxByte_surface_rx hu]; rfl
      · cases h; simp [hx, hl]
      · cases h; simp [hx, hl]
      all_goals
        have hi := ih (s := u) (by simpa [hx] using hs) (by simp [hl] at hn; simp [hx, hn]) h
        simp only [hx] at hi
        refine ⟨hi.1, ?_, fun hr => ?_⟩
        · have := hi.2.1; simp only [hl, List.length_cons]; omega
        · have := hi.2.2 hr; simp only [hl, List.length_cons]; omega

theorem receive_surface_rest (n : Nat) :
    ∀ {s t : State} {r : RecvResult}, (∀ k, s.rx.tail ≠ .unlisted k) → receive surface n s = .ends r t →
      t.rx.tail = s.rx.tail ∧ t.rx.answers.length ≤ s.rx.answers.length ∧
        (r = .packet → t.rx.answers.length < s.rx.answers.length) := by
  induction n with
  | zero => intro s t r _ h; rw [receive_zero] at h; cases h; simp
  | succ n ih =>
    intro s t r hs h
    rw [receive_succ] at h
    split at h
    · cases h
    all_goals
      rename_i u hu
      have hd := drain_surface_rest _ hs (State.pollBudget_listed hs).le hu
    · cases h; exact hd
    all_goals
      have hi := ih (s := u) (by simpa [hd.1] using hs) h
      exact ⟨hi.1.trans hd.1, hi.2.1.trans hd.2.1, fun hr => Nat.lt_of_lt_of_le (hi.2.2 hr) hd.2.1⟩

/-- The bound of the sync wait is never used up where the answers are all listed: any two bounds above their number give
the same result (R181; log 14). -/
theorem syncWait_fuel : ∀ {j k : Nat} {s : State}, (∀ k, s.rx.tail ≠ .unlisted k) → s.rx.answers.length < j →
    s.rx.answers.length < k → syncWait j s = syncWait k s := by
  intro j
  induction j with
  | zero => intro k s _ h; omega
  | succ j ih =>
    intro k s hs hj hk
    cases k with
    | zero => omega
    | succ k =>
      simp only [syncWait]
      cases h : receive surface s.cfg.syncRxTimeout.toNat s with
      | stops r => rfl
      | ends r t =>
        have hr := receive_surface_rest _ hs h
        cases r with
        | nopacket => rfl
        | synced ok => rfl
        | packet =>
          have hlt := hr.2.2 rfl
          simp only
          split
          · rfl
          · exact ih (by simpa [hr.1] using hs) (by simpa using by omega) (by simpa using by omega)

/-! What the procedure writes -/

/-- The marker needs no escaping: its five bytes are appended as they are (R181, D17). -/
theorem State.sendMarker_eq (s : State) : s.sendMarker = s.txWrite syncMarker := by
  have h : s.sendMarker = s.txWrite (syncMarker.flatMap escape) := by
    simp [State.sendMarker, syncMarker, State.encodeOut]
  rw [h]
  congr 1

/-- The SYNC request is an ordinary request frame; its checksum stays in CRC (R186). -/
theorem State.sendSyncRequest_eq (s : State) :
    s.sendSyncRequest =
      (s.txWrite ([slipEnd] ++ (syncBody s.cfg).flatMap escape ++ escape (lo8 (crc16 (syncBody s.cfg))) ++
        escape (hi8 (crc16 (syncBody s.cfg))) ++ [slipEnd])).setCrc (crc16 (syncBody s.cfg)) := by
  simp [State.sendSyncRequest, State.closeFrame_eq, State.sendBytes_eq, State.openFrame_eq, State.txWrite_setCrc,
    crc16]

/-- Everything a SYNC procedure can do when it ends (R181). -/
theorem syncProc_ends {s t : State} {ok : Bool} (h : syncProc s = .ends ok t) :
    ∃ n1 t1 n2 t2 t3, discard s.beginSync.sendMarker = .ends n1 t1 ∧ discard (t1.txWrite [slipEnd]) = .ends n2 t2 ∧
      syncWait (t2.pollBudget + 1) t2.sendSyncRequest = .ends ok t3 ∧ t = t3.invalidateView.endSync ok := by
  obtain ⟨n1, t1, h1, h⟩ := Proc.andThen_eq_ends.mp h
  obtain ⟨n2, t2, h2, h⟩ := Proc.andThen_eq_ends.mp h
  obtain ⟨ok', t3, h3, h⟩ := Proc.andThen_eq_ends.mp h
  cases h
  exact ⟨n1, t1, n2, t2, t3, h1, h2, h3, rfl⟩

end Sys2Proof.Machine
end

