-- ==== Sys2Proof/Tests/Slice0.lean ====
section
/-! SUPPORT. Tests of the model on the vectors of spec/95_test_vectors.md, and for every statement with hypotheses a
state that meets them. -/

namespace Sys2Proof.Tests

open Sys2Proof Sys2Proof.Machine

/-! Helpers -/

/-- The example parameters of 00_scope.md R9. -/
def exCfg : Config := ⟨16, 0x0001, 0x0002, 0x00000000, 4⟩

/-- The state after reset with the example parameters and the given poll answers, silence after them. -/
def exAt (answers : List (Option Byte)) : State := State.afterReset exCfg ⟨answers, .silent⟩ [] 0

/-- The same with more answers to come than are listed. -/
def exOpen (answers : List (Option Byte)) : State := State.afterReset exCfg ⟨answers, .unlisted 0⟩ [] 0

/-- The same with an endless peer after them. -/
def exEndless (answers : List (Option Byte)) : State := State.afterReset exCfg ⟨answers, .endless 0⟩ [] 0

/-- The same with words on the command port. -/
def exHost (ws : List HostInput) : State := State.afterReset exCfg ⟨[], .silent⟩ ws 0

/-- Whether an outcome is a next state of which p holds. -/
def nextIs (o : Host.Outcome State Fault Refusal) (p : State → Bool) : Bool :=
  match o with
  | .next t => p t
  | .fault _ => false
  | .refused _ => false

/-- Whether an outcome is a given fault. -/
def faultIs (o : Host.Outcome State Fault Refusal) (r : Fault) : Bool :=
  match o with
  | .fault f => decide (f = r)
  | .next _ => false
  | .refused _ => false

theorem exists_of_nextIs {o : Host.Outcome State Fault Refusal} {p : State → Bool} (h : nextIs o p = true) :
    ∃ t, o = .next t ∧ p t = true := by
  cases o with
  | next t => exact ⟨t, rfl, h⟩
  | fault r => cases h
  | refused r => cases h

theorem eq_of_faultIs {o : Host.Outcome State Fault Refusal} {r : Fault} (h : faultIs o r = true) :
    o = .fault r := by
  cases o with
  | next t => cases h
  | fault f => exact congrArg _ (of_decide_eq_true h)
  | refused r => cases h

/-- The decoded bytes of frame len8 of the vectors: a body of 6 and its checksum. -/
def len8 : List Byte := [0x10, 0x00, 0x00, 0x00, 0x11, 0x22, 0xE9, 0xCC]

/-- The wire bytes of len8. -/
def len8Wire : List (Option Byte) := handOver ([0xC0] ++ len8 ++ [0xC0])

/-- The bytes of a frame as a buffer. -/
def cells (bs : List Byte) : Memory := (List.range bs.length).zip bs

/-- A state that holds len8 as its packet view. -/
def exView : State := { exAt [] with buf := cells len8, flen := 8, pktValid := true }

/-- A state in which len8 is stored and its END comes next. -/
def exFrame : State := { exAt [some 0xC0] with buf := cells len8, idx := 8 }

/-- A frame that fills the buffer: a body of FRAME_CAP - 2 bytes and its checksum (len16 of the vectors). -/
def len16 : List Byte := [0x20, 0x00] ++ List.replicate 12 0x00 ++ [0xBF, 0xA5]

/-! WellFormed: the one check, and terms it refuses -/

theorem test_wellFormed_accepts_register_11 : (Instr.rdreg 11).WellFormed := by decide
theorem test_wellFormed_refuses_register_12 : ¬ (Instr.rdreg 12).WellFormed := by decide
theorem test_wellFormed_refuses_register_65535 : ¬ (Instr.rdreg 0xFFFF).WellFormed := by decide

/-! Decode: for every row of the opcode map a word written out from R76 and R78 -/

theorem test_decode_class_z :
    [0x00000000, 0x01000000, 0x04000000, 0x05000000, 0x08000000, 0x09000000, 0x0A000000, 0x0C000000, 0x0D000000].map decode
      = [.ok .nop, .ok .crcClr, .ok .txEnd, .ok .txBegin, .ok .txFinal, .ok .rxStep, .ok .tryRecv, .ok .rxFlush,
         .ok .sync] := by decide
theorem test_decode_class_b :
    [0x02000041, 0x030000C0, 0x060000DB].map decode
      = [.ok (.crcAdd 0x41), .ok (.enc 0xC0), .ok (.txByte 0xDB)] := by decide
theorem test_decode_class_h :
    [0x07000001, 0x0B000064, 0x0E00000B, 0x0F00FFFF].map decode
      = [.ok (.txPad 1), .ok (.recv 100), .ok (.rdreg 11), .ok (.rdbuf 0xFFFF)] := by decide
/-- V-I1 to V-I7. -/
theorem test_decode_illegal :
    [0x10000000, 0xFF000000, 0x00010000, 0x02000100, 0x00000001, 0x0900FFFF, 0x0E00000C].map decode
      = [.error .opcode, .error .opcode, .error .reservedField, .error .operandNotByte, .error .operandNotZero,
         .error .operandNotZero, .error .registerNumber] := by decide
theorem test_tableWord_rdbuf : decodeTableWord 32 0x0F00000A = some (.rdbuf 10) := by decide
theorem test_fetchWord_runs : nextIs (step (State.reset.withFetchWord 32 0x04000000)) (·.txLog == [0xC0]) = true := by
  decide
theorem test_assembler_comment : assemble "  ENC ';' ; a comment".toList = .ok (some (.enc 0x3B)) := by decide

/-! One step of each operation, expected values from 95_test_vectors.md -/

/-- V-O4. -/
theorem test_nop : nextIs (exec .nop exView) (fun t => t.evt == 0x00 && t.result == 0 && t.pktValid) = true := by decide
/-- V-C8. -/
theorem test_crcClr : nextIs (exec .crcClr { exAt [] with crc := 0x5A78 }) (·.crc == 0x0000) = true := by decide
/-- V-C7. -/
theorem test_crcAdd : nextIs (exec (.crcAdd 0x32) { exAt [] with crc := 0x200A })
    (fun t => t.crc == 0xBDEB && t.result == 0xBDEB) = true := by decide
/-- V-C4. -/
theorem test_crcStep : crcStep 0x1234 0x41 = 0x2438 := by decide
/-- V-E2. -/
theorem test_enc_end : nextIs (exec (.enc 0xC0) (exAt []))
    (fun t => t.txLog == [0xDB, 0xDC] && t.result == 2 && t.crc == 0x0000) = true := by decide
/-- V-E5. -/
theorem test_enc_escEsc : nextIs (exec (.enc 0xDD) (exAt [])) (fun t => t.txLog == [0xDD] && t.result == 1) = true := by
  decide
/-- V-E7. -/
theorem test_txEnd : nextIs (exec .txEnd (exAt [])) (fun t => t.txLog == [0xC0] && t.result == 1) = true := by decide
/-- V-T13. -/
theorem test_txBegin : nextIs (exec .txBegin { exAt [] with crc := 0x1234 })
    (fun t => t.txLog == [0xC0] && t.crc == 0x0000) = true := by decide
/-- V-T2, its second operation: 0xDB from crc_step(0, 0xC0) = 0xC60C. -/
theorem test_txByte : nextIs (exec (.txByte 0xDB) { exAt [] with crc := 0xC60C })
    (fun t => t.txLog == [0xDB, 0xDD] && t.crc == 0xA2F4 && t.result == 2) = true := by decide
/-- V-T8. -/
theorem test_txPad : nextIs (exec (.txPad 5) (exAt [])) (fun t => t.txLog == [0, 0, 0] && t.result == 3) = true := by
  decide
/-- V-T9. -/
theorem test_txPad_max : nextIs (exec (.txPad 0xFFFF) (exAt [])) (fun t => t.txLog == [0] && t.result == 1) = true := by
  decide
/-- V-T12: both checksum bytes escaped, the low one first. -/
theorem test_txFinal : nextIs (exec .txFinal { exAt [] with crc := 0xDBC0 })
    (fun t => t.txLog == [0xDB, 0xDC, 0xDB, 0xDD, 0xC0] && t.crc == 0xDBC0 && t.result == 0xDBC0) = true := by decide
/-- V-D4, its third step. -/
theorem test_rxStep_escaped : nextIs (exec .rxStep { exAt [some 0xDC] with esc := true })
    (fun t => t.evt == 0x03 && t.byteAt 0 == 0xC0 && t.idx == 1 && !t.esc) = true := by decide
/-- V-R7, its last step. -/
theorem test_rxStep_oversize : nextIs (exec .rxStep { exAt [some 0xC0] with idx := 16, ovf := true })
    (fun t => t.evt == 0x05 && t.lastDrop == 3 && t.idx == 0 && !t.ovf) = true := by decide
/-- V-R4. -/
theorem test_tryRecv : nextIs (exec .tryRecv (exAt len8Wire))
    (fun t => t.evt == 0x01 && t.result == 1 && t.flen == 8 && t.crc == 0xCCE9) = true := by decide
/-- V-R2. -/
theorem test_tryRecv_short :
    nextIs (exec .tryRecv (exAt (handOver [0xC0, 0x10, 0x00, 0x00, 0x00, 0x00, 0x40, 0xB4, 0xC0])))
      (fun t => statusWord t == 0x4002 && t.crc == 0x0000) = true := by decide
/-- V-R9 on len8. -/
theorem test_recv_2 : nextIs (exec (.recv 2) (exAt (none :: len8Wire))) (fun t => t.evt == 0x01 && t.flen == 8) = true := by
  decide
theorem test_recv_1 : nextIs (exec (.recv 1) (exAt (none :: len8Wire)))
    (fun t => t.evt == 0x02 && t.rx.answers == len8Wire) = true := by decide
/-- V-R10. -/
theorem test_rxFlush : nextIs (exec .rxFlush { exAt [none, some 0x33] with idx := 2, esc := true })
    (fun t => t.result == 0 && t.idx == 0 && !t.esc && t.rx.answers == [some 0x33]) = true := by decide
/-- V-R10, its second peer. -/
theorem test_rxFlush_counts : nextIs (exec .rxFlush (exAt (handOver [1, 2, 3]))) (·.result == 3) = true := by decide
/-- V-S2. -/
theorem test_sync_fails : nextIs (exec .sync (exAt []))
    (fun t => t.txLog == [0x73, 0x79, 0x6E, 0x63, 0x0A, 0xC0, 0xC0, 1, 0, 0, 0, 0, 0, 0, 0, 0xBF, 0x81, 0xC0] &&
      statusWord t == 0x2008 && t.crc == 0x81BF) = true := by decide
/-- V-S1. -/
theorem test_sync_succeeds :
    nextIs (exec .sync (exAt (handOver [0x55, 0x66] ++ [none, none] ++
        handOver [0xC0, 2, 0, 0, 0, 0x78, 0x56, 0x34, 0x12, 0x99, 3, 0xC0])))
      (fun t => t.result == 1 && statusWord t == 0x1007 && t.crc == 0x0399) = true := by decide
/-- V-R4: the value field of a view of 8 bytes overlaps the checksum (C1). -/
theorem test_rdreg_value : nextIs (exec (.rdreg 6) exView) (·.result == 0xCCE92211) = true := by decide
/-- V-D9. -/
theorem test_rdreg_status : nextIs (exec (.rdreg 0) { exAt [] with evt := 0x04, esc := true }) (·.result == 0x0104) = true := by
  decide
/-- V-O5. -/
theorem test_rdbuf : nextIs (exec (.rdbuf 7) exView) (·.result == 0xCC) = true := by decide
theorem test_rdbuf_range : nextIs (exec (.rdbuf 8) exView) (fun t => t.evt == 0x0A && t.result == 0) = true := by decide

/-! States that meet the hypotheses of the statements -/

theorem exView_inv : exView.Inv := by constructor <;> decide

theorem exFrame_inv : exFrame.Inv := by constructor <;> decide

/-- A full buffer is at the bound of IDX (R37). -/
theorem full_inv : ({ exAt [] with buf := cells len16, idx := 16, ovf := true } : State).Inv := by constructor <;> decide

theorem witness_ResetSetsEveryRegister : (exHost [.rst]).hostq = .rst :: [] := by decide

theorem witness_StepKeepsInvariant :
    ∃ t, ({ exView with hostq := [.command 0x0A000000] } : State).Inv ∧
      step { exView with hostq := [.command 0x0A000000] } = .next t := by
  obtain ⟨t, h, -⟩ := exists_of_nextIs
    (show nextIs (step { exView with hostq := [.command 0x0A000000] }) (·.evt == 0x02) = true by decide)
  exact ⟨t, by constructor <;> decide, h⟩

theorem witness_BlockNeverStopsByItself : exFrame.Inv ∧ exFrame.peerLetsLoopsEnd := ⟨exFrame_inv, by decide⟩

theorem witness_DecodeOfEncode : (Instr.rdreg 11).WellFormed ∧ (Instr.recv 0xFFFF).WellFormed := by decide

theorem witness_EncodeOfDecode : decode 0x0E00000B = .ok (.rdreg 11) := by decide

theorem witness_OpcodeMapRows : (11 : Half).toNat ≤ 11 ∧ 0x10 ≤ (0x10000000 : Word).toNat / 2 ^ 24 := by decide

/-- One word at the edge of each clause of R79, presented by a host. -/
theorem witness_IllegalWordsChangeNothing :
    0x10 ≤ (0x10000000 : Word).toNat / 2 ^ 24 ∧
    (0x00010000 : Word).toNat / 2 ^ 16 % 2 ^ 8 ≠ 0 ∧
    (0x0D000001 : Word).toNat / 2 ^ 24 ∈ [0x00, 0x01, 0x04, 0x05, 0x08, 0x09, 0x0A, 0x0C, 0x0D] ∧
    (0x06000100 : Word).toNat % 2 ^ 16 / 2 ^ 8 ≠ 0 ∧
    11 < (0x0E00000C : Word).toNat % 2 ^ 16 ∧
    (exHost [.command 0x10000000]).hostq = .command 0x10000000 :: [] := by decide

theorem witness_StepRunsDecodedOperation :
    (exHost [.command 0x0D000000]).hostq = .command 0x0D000000 :: [] ∧ decode 0x0D000000 = .ok .sync ∧
    .rst ∉ ([] : List HostInput) := by decide

/-- A TRY_RECV that a reset ends, behind a held NOP. -/
theorem witness_StepRunsDecodedOperation_reset :
    let s : State := { exEndless [some 0x41] with hostq := [.command 0x0A000000, .command 0x00000000, .rst] }
    s.hostq = .command 0x0A000000 :: ([0x00000000].map .command ++ .rst :: []) ∧ decode 0x0A000000 = .ok .tryRecv ∧
    exec .tryRecv { s with hostq := [.command 0x00000000, .rst] } = .fault .peerNotDone :=
  ⟨by decide, by decide, eq_of_faultIs (by decide)⟩

/-- The same as a step: the block is reset and what the host presents after the reset comes next. -/
theorem test_reset_ends_tryRecv :
    nextIs (step { exEndless [some 0x41] with hostq := [.command 0x0A000000, .rst, .command 0x00000000] })
      (fun t => t.idx == 0 && t.resets == 1 && t.hostq == [.command 0x00000000]) = true := by decide

theorem witness_IdleStepChangesNothing : exView.hostq = [] := by decide

/-- An accepted line, and for each class a line whose operand is at the edge of it or past it. -/
theorem witness_AssembledLinesAreOperations :
    assemble "RDREG 11".toList = .ok (some (.rdreg 11)) ∧
    asmWords [] "SYNC".toList = ["SYNC".toList] ∧
    asmWords [] "ENC 255".toList = ["ENC".toList, "255".toList] ∧ asmNumber "255".toList = some 255 ∧
    asmNumber "0x100".toList = some 256 ∧ asmNumber "0xG".toList = none ∧
    asmWords [] "RDBUF 65536".toList = ["RDBUF".toList, "65536".toList] ∧ asmNumber "65536".toList = some 65536 ∧
    asmWords [] "RDREG CRC".toList = ["RDREG".toList, "CRC".toList] ∧ asmNumber "12".toList = some 12 ∧
    asmWords [] "RECV 1 2".toList = ["RECV".toList, "1".toList, "2".toList] ∧ (1 < ["1".toList, "2".toList].length) := by
  decide

/-- A register number that would be 4 if it were cut to 16 bits. -/
theorem test_assembler_never_truncates : assemble "RDREG 65540".toList = .error .operandRange := by decide

/-- For the words of the class Z operations NOP, CRC_CLR, TX_END, TX_BEGIN and TX_FINAL, and for those of the class B
operations CRC_ADD, ENC and TX_BYTE, the least operands that are illegal. -/
theorem witness_results_operands : (1 : Half) ≠ 0 ∧ 0xFF < (0x100 : Half).toNat := by decide

theorem witness_RdregResults :
    exView.pktValid = true ∧ exView.cfg.legal ∧ (exAt []).pktValid = false ∧ (11 : Half).toNat ≤ 11 ∧
    11 < (12 : Half).toNat := by decide

theorem witness_StatusIsComposite : exView.Inv := exView_inv

/-- The last byte of a view that fills the buffer, the first past it, and no view. -/
theorem witness_RdbufResult :
    let s : State := { exAt [] with buf := cells len16, flen := 16, pktValid := true }
    s.pktValid = true ∧ (15 : Half).toNat < s.flen.toNat ∧ s.flen.toNat ≤ s.cfg.cap ∧
    s.flen.toNat ≤ (16 : Half).toNat ∧ (exAt []).pktValid = false := by decide

theorem witness_ReadsRepeatUntilReceive :
    (∀ i ∈ [Instr.nop, .txByte 0xC0, .rdreg 4], receiveFamily i = false) ∧
    (∃ t, issue [.nop, .txByte 0xC0, .rdreg 4] exView = .next t ∧ (t.result == 0x10) = true) ∧
    ∃ u, exec (.rdbuf 7) exView = .next u ∧ (u.result == 0xCC) = true :=
  ⟨by decide, exists_of_nextIs (by decide), exists_of_nextIs (by decide)⟩

theorem witness_NonReceiveFrame :
    receiveFamily (.txByte 0x41) = false ∧
    ∃ t, exec (.txByte 0x41) exView = .next t ∧ (t.crc != exView.crc && t.txLog != exView.txLog) = true :=
  ⟨by decide, exists_of_nextIs (by decide)⟩

theorem witness_CrcAddsComputeChecksum : ([0x31, 0x32] : List Byte) ≠ [] := by decide

theorem witness_SlipRoundTrip : (exAt []).esc = false := by decide

theorem witness_EscapedStreamDecodes : exView.esc = false := by decide

theorem witness_RxStepWithoutByte :
    (exAt [none]).rx.answers = none :: [] ∧ (exAt []).rx.answers = [] ∧ (exAt []).rx.tail = .silent := by decide

theorem witness_UnlistedPollsDrawFreeAnswers :
    (exOpen []).rx = ⟨[], .unlisted 0⟩ ∧ (exEndless []).rx = ⟨[], .endless 0⟩ ∧
    (exOpen []).idx.toNat ≤ (exOpen []).cfg.cap := by decide

theorem witness_RxStepDecodesAndStores_esc : (exAt [some 0xDB]).rx.answers = some 0xDB :: [] := by decide

/-- A byte stored at the last index, one past it, and one in a frame already marked. -/
theorem witness_RxStepDecodesAndStores_data :
    (exAt [some 0x41]).rx.answers = some 0x41 :: [] ∧ (0x41 : Byte) ≠ 0xC0 ∧ (0x41 : Byte) ≠ 0xDB ∧
    (({ exAt [some 0x41] with idx := 15 } : State).idx.toNat < exCfg.cap) ∧
    ¬ (({ exAt [some 0x41] with idx := 16 } : State).idx.toNat < exCfg.cap) ∧
    ({ exAt [some 0x41] with ovf := true } : State).ovf = true := by decide

/-- Each clause, at 0, 1 and 7 bytes. -/
theorem witness_RxStepEndWithoutChecksum :
    (exAt [some 0xC0]).rx.answers = some 0xC0 :: [] ∧ exCfg.legal ∧
    ({ exAt [some 0xC0] with idx := 16, ovf := true } : State).ovf = true ∧ (exAt [some 0xC0]).idx = 0 ∧
    (({ exAt [some 0xC0] with idx := 1 } : State).idx ≠ 0) ∧
    (({ exAt [some 0xC0] with idx := 7 } : State).idx.toNat < 8) := by decide

/-- A frame of 8 bytes that matches. -/
theorem witness_RxStepEndValidates_match :
    exFrame.rx.answers = some 0xC0 :: [] ∧ exFrame.ovf = false ∧ 8 ≤ exFrame.idx.toNat ∧
    exFrame.idx.toNat ≤ exFrame.cfg.cap ∧ exFrame.packetCmd ≠ exFrame.cfg.syncCmd ∧
    (crc16 (exFrame.span 6)).toNat = (exFrame.byteAt 6).toNat + (exFrame.byteAt 7).toNat * 2 ^ 8 := by decide

/-- One of FRAME_CAP bytes that matches. -/
theorem witness_RxStepEndValidates_full :
    let s : State := { exAt [some 0xC0] with buf := cells len16, idx := 16 }
    s.idx.toNat ≤ s.cfg.cap ∧ (crc16 (s.span 14)).toNat = (s.byteAt 14).toNat + (s.byteAt 15).toNat * 2 ^ 8 := by
  decide +kernel

/-- One of 8 bytes that does not. -/
theorem witness_RxStepEndValidates_mismatch :
    let s : State := { exFrame with buf := exFrame.buf.write 0 0x11 }
    (crc16 (s.span 6)).toNat ≠ (s.byteAt 6).toNat + (s.byteAt 7).toNat * 2 ^ 8 := by decide

/-- A step that goes on, one that ends with a packet, and one that stops in an intercepted SYNC procedure. -/
theorem witness_TryRecvIsRepeatedRxStep :
    (∃ t, exec .rxStep (exAt len8Wire) = .next t ∧ (t.evt == 0x06) = true) ∧
    (∃ t, exec .rxStep exFrame = .next t ∧ (t.evt == 0x01) = true) ∧
    exec .rxStep { exFrame with cfg := { exCfg with syncCmd := 0x0010 }, rx := ⟨[some 0xC0], .endless 0⟩ } =
      .fault .peerNotDone ∧
    (exAt [none]).rx.answers = none :: [] ∧ (exAt []).rx.answers = [] :=
  ⟨exists_of_nextIs (by decide), exists_of_nextIs (by decide), eq_of_faultIs (by decide), by decide⟩

theorem witness_RecvIsBoundedTryRecv :
    (1 : Half) ≠ 0 ∧ (∃ t, exec .tryRecv (exAt len8Wire) = .next t ∧ (t.evt == 0x01) = true) ∧
    (∃ t, exec .tryRecv (exAt [none]) = .next t ∧ (t.evt == 0x02) = true) ∧
    exec .tryRecv (exEndless []) = .fault .peerNotDone :=
  ⟨by decide, exists_of_nextIs (by decide), exists_of_nextIs (by decide), eq_of_faultIs (by decide)⟩

theorem witness_RxFlushDiscards :
    (exAt (handOver [1, 2] ++ [none, some 3])).rx.answers = handOver [1, 2] ++ none :: [some 3] ∧
    (exAt (handOver [1, 2])).rx.answers = handOver [1, 2] ∧ (exAt []).rx.tail = .silent ∧ (1 : Half) ≠ 0 := by decide

theorem witness_EndlessBytesKeepPolling :
    (exEndless (handOver [1, 2])).rx = ⟨handOver [1, 2], .endless 0⟩ ∧ (0xC0 : Byte) ∉ ([1, 2] : List Byte) ∧
    (0xFFFF : Half) ≠ 0 := by decide

/-- A silent peer, and one whose answers are not listed. -/
theorem witness_ReceiveCompletesUnlessPeerEndless :
    let s : State := { exAt len8Wire with idx := 16 }
    s.peerLetsLoopsEnd ∧ s.idx.toNat ≤ s.cfg.cap ∧ s.syncing = false ∧
    ({ exOpen len8Wire with idx := 16 } : State).peerLetsLoopsEnd := by decide

/-- The shortest body and the longest that fits. -/
theorem witness_IntactFrameIsReceived :
    let s := exAt (handOver (wireFrame (len8.take 6)) ++ [none])
    s.idx = 0 ∧ s.ovf = false ∧ bodyFits s.cfg (len8.take 6) ∧ bodyFits s.cfg (len16.take 14) ∧
    bodyCmd (len8.take 6) ≠ s.cfg.syncCmd ∧ s.rx.answers = handOver (wireFrame (len8.take 6)) ++ [none] := by decide

/-- The first bit of the first byte and the last bit of the last. -/
theorem witness_SingleBitFlipIsDropped :
    let s := exFrame
    s.rx.answers = some 0xC0 :: [] ∧ s.ovf = false ∧ 8 ≤ s.idx.toNat ∧ s.idx.toNat ≤ s.cfg.cap ∧
    crc16 (s.span (s.idx.toNat - 2)) = u16le (s.byteAt (s.idx.toNat - 2)) (s.byteAt (s.idx.toNat - 1)) ∧
    0 < s.idx.toNat ∧ 7 < s.idx.toNat ∧ 0 < 8 ∧ 7 < 8 := by decide

/-- Frames of 0 and of 7 bytes. -/
theorem witness_ShortFrameIsRejected :
    let s := exAt (handOver (escapeAll (len8.take 7) ++ [0xC0]) ++ none :: [])
    s.idx = 0 ∧ s.esc = false ∧ s.ovf = false ∧ s.cfg.legal ∧ (len8.take 7).length < 8 ∧
    ([] : List Byte).length < 8 ∧ s.rx.answers = handOver (escapeAll (len8.take 7) ++ [0xC0]) ++ none :: [] := by decide

/-- One byte more than the buffer holds. -/
theorem witness_OversizeFrameIsDropped :
    let body := len16 ++ [0x00]
    let s := exAt (handOver (escapeAll body ++ [0xC0]) ++ none :: [])
    s.idx = 0 ∧ s.esc = false ∧ s.ovf = false ∧ s.cfg.cap < body.length ∧
    s.rx.answers = handOver (escapeAll body ++ [0xC0]) ++ none :: [] := by decide

theorem witness_ViewLivesUntilReceive :
    (∃ t, exec .tryRecv exFrame = .next t ∧ (t.pktValid && t.evt == 0x01) = true) ∧
    (∃ t, exec .tryRecv exView = .next t ∧ (!t.pktValid && t.evt == 0x02) = true) ∧
    (∃ t, exec .sync exView = .next t ∧ (!t.pktValid && t.evt == 0x08) = true) ∧
    receiveFamily .sync = true ∧ exView.syncing = false ∧ receiveFamily .nop = false :=
  ⟨exists_of_nextIs (by decide), exists_of_nextIs (by decide), exists_of_nextIs (by decide), by decide⟩

theorem witness_StaleViewIsOutOfRange :
    receiveFamily .rxFlush = true ∧ exView.syncing = false ∧ 4 ≤ (4 : Half).toNat ∧ (6 : Half).toNat ≤ 6 ∧
    ∃ t, exec .rxFlush exView = .next t ∧ (t.evt != 0x01) = true :=
  ⟨by decide, by decide, by decide, by decide, exists_of_nextIs (by decide)⟩

theorem witness_ReceiveFrame :
    ∀ i ∈ [Instr.rxStep, .tryRecv, .rxFlush], ∃ t, exec i exFrame = .next t ∧ (t.evt != 0x07 && t.evt != 0x08) = true := by
  intro i hi
  simp only [List.mem_cons, List.not_mem_nil, or_false] at hi
  rcases hi with rfl | rfl | rfl <;> exact exists_of_nextIs (by decide)

/-- A RECV that runs no SYNC procedure and one that runs one. -/
theorem witness_ReceiveFrame_recv :
    (∃ t, exec (.recv 2) (exAt len8Wire) = .next t ∧ (t.txLog == []) = true) ∧
    ∃ t, exec (.recv 2) (exAt (handOver (wireFrame [1, 0, 0, 0, 0, 0]))) = .next t ∧
      (t.txLog == syncBytes exCfg && t.syncLast == 2) = true :=
  ⟨exists_of_nextIs (by decide), exists_of_nextIs (by decide)⟩

theorem witness_TransportKeepsOrder :
    ∃ t, exec .rxStep (exOpen len8Wire) = .next t ∧ (t.rx.tail == (exOpen len8Wire).rx.tail) = true :=
  exists_of_nextIs (by decide)

/-- A TRY_RECV that completes on the listed answers of a peer with more to come. -/
theorem witness_LaterAnswersDoNotMatter :
    ∃ t, exec .tryRecv (exOpen len8Wire) = .next t ∧ (t.evt == 0x01 && t.rx.tail == .unlisted 0) = true :=
  exists_of_nextIs (by decide)

/-- An RX_STEP that draws a byte of an endless peer completes, whatever the byte. -/
theorem witness_LaterAnswersDoNotMatter_drawn :
    ∃ t, exec .rxStep (exEndless []) = .next t ∧ t.rx = ⟨[], .endless 1⟩ := by
  have hp : (exEndless []).invalidateView.rxPoll = _ := State.rxPoll_endless rfl
  simp only [exec, execRxStep, hp]
  obtain h | h | h := decodeByte_cases false (Config.endlessByte (exEndless []).invalidateView.resets 0)
  · rw [h.1, rxByte_end]; exact ⟨_, rfl, rfl⟩
  · rw [h.1, rxByte_esc]; exact ⟨_, rfl, rfl⟩
  · rw [rxByte_data _ h.1 h.2.1]; exact ⟨_, rfl, rfl⟩

theorem witness_SyncWithoutPeerFails : exView.syncing = false ∧ exView.rx = ⟨[], .silent⟩ := by decide

/-- The greatest number of gaps before another packet, and then a gap in every iteration. -/
theorem witness_SyncWithoutPeerFails_gaps :
    let s := exAt (handOver [0x55] ++ [none] ++ handOver [] ++ [none] ++ gapsAndFrames [(3, len8.take 6)] ++
      List.replicate exCfg.syncRxTimeout.toNat none ++ [some 0x66])
    s.syncing = false ∧ roundsWithin s.cfg [(3, len8.take 6)] ∧
    s.rx.answers = handOver [0x55] ++ [none] ++ handOver [] ++ [none] ++ gapsAndFrames [(3, len8.take 6)] ++
      List.replicate s.cfg.syncRxTimeout.toNat none ++ [some 0x66] :=
  ⟨by decide, by decide, rfl⟩

/-- A timeout of 0 (V-S7). -/
theorem witness_SyncWithoutPeerFails_zero :
    let s : State := { exAt len8Wire with cfg := { exCfg with syncRxTimeout := 0 } }
    s.syncing = false ∧ s.cfg.syncRxTimeout = 0 ∧ ∃ t, exec .sync s = .next t ∧ (t.crc == 0x81BF) = true :=
  ⟨by decide, by decide, exists_of_nextIs (by decide)⟩

/-- The greatest number of gaps before another packet and before the response. -/
theorem witness_SyncSucceedsOnVersion :
    let body : List Byte := [2, 0, 0, 0, 0x78, 0x56]
    let s := exAt (handOver [0x55] ++ [none] ++ handOver [] ++ [none] ++ gapsAndFrames [(3, len8.take 6)] ++
      List.replicate 3 none ++ handOver (wireFrame body) ++ [none])
    s.syncing = false ∧ roundsWithin s.cfg [(3, len8.take 6)] ∧ 3 < s.cfg.syncRxTimeout.toNat ∧ bodyFits s.cfg body ∧
    bodyCmd body = s.cfg.versionCmd ∧
    s.rx.answers = handOver [0x55] ++ [none] ++ handOver [] ++ [none] ++ gapsAndFrames [(3, len8.take 6)] ++
      List.replicate 3 none ++ handOver (wireFrame body) ++ [none] :=
  ⟨by decide, by decide, by decide, by decide, by decide, rfl⟩

/-- Four gaps, as many as the budget, fail and leave the response with the peer; three do not. -/
theorem test_sync_budget :
    nextIs (exec .sync (exAt ([none, none, none, none, none, none] ++ handOver (wireFrame [2, 0, 0, 0, 0, 0]))))
      (fun t => t.evt == 0x08 && t.rx.answers == handOver (wireFrame [2, 0, 0, 0, 0, 0])) = true ∧
    nextIs (exec .sync (exAt ([none, none, none, none, none] ++ handOver (wireFrame [2, 0, 0, 0, 0, 0]))))
      (fun t => t.evt == 0x07 && t.rx.answers == []) = true := by decide

/-- A wait that discards a packet and then runs out of its budget, and one that ends with the response. -/
theorem witness_SyncWritesOneProcedure_wait :
    (∃ t, WaitEnds { exAt (handOver (wireFrame (len8.take 6))) with syncing := true } false t) ∧
    ∃ t, WaitEnds { exAt (handOver (wireFrame [2, 0, 0, 0, 0, 0])) with syncing := true } true t := by
  constructor
  · obtain ⟨t, h, ht⟩ := exists_of_nextIs
      (show nextIs (exec (.recv 4) { exAt (handOver (wireFrame (len8.take 6))) with syncing := true })
        (fun t => t.evt == 0x01 && t.packetCmd == 0x0010 && nextIs (exec (.recv t.cfg.syncRxTimeout) t) (·.evt == 0x02)) =
          true by decide)
    simp only [Bool.and_eq_true, beq_iff_eq] at ht
    obtain ⟨u, hu, hu'⟩ := exists_of_nextIs ht.2
    exact ⟨u, .other h ht.1.1 (by rw [ht.1.2]; decide) (.nopacket hu (by simpa using hu'))⟩
  · obtain ⟨t, h, ht⟩ := exists_of_nextIs
      (show nextIs (exec (.recv 4) { exAt (handOver (wireFrame [2, 0, 0, 0, 0, 0])) with syncing := true })
        (fun t => t.evt == 0x01 && t.packetCmd == 0x0002) = true by decide)
    simp only [Bool.and_eq_true, beq_iff_eq] at ht
    exact ⟨t, .version h ht.1 ht.2⟩

theorem witness_SyncWritesOneProcedure :
    exView.syncing = false ∧ ∃ t, exec .sync exView = .next t ∧ (t.evt == 0x08) = true :=
  ⟨by decide, exists_of_nextIs (by decide)⟩

theorem witness_ReentrantSyncIsRefused : ({ exView with syncing := true } : State).syncing = true := by decide

theorem witness_SyncWaitOutlastsOtherPackets :
    let bodies := [len8.take 6, len16.take 14]
    let s := exEndless ([none, none] ++ handOver (bodies.flatMap wireFrame))
    s.syncing = false ∧ s.cfg.syncRxTimeout ≠ 0 ∧
    (∀ body ∈ bodies, bodyFits s.cfg body ∧ bodyCmd body ≠ s.cfg.versionCmd) ∧
    s.rx = ⟨[none, none] ++ handOver (bodies.flatMap wireFrame), .endless 0⟩ :=
  ⟨by decide, by decide, by decide, rfl⟩

/-- The body of a SYNC packet of the example parameters. -/
def syncPacket : List Byte := [1, 0, 0, 0, 0, 0]

/-- A peer that falls silent after a SYNC packet, and one that goes on with the version response. -/
theorem witness_SyncPacketRunsProcedure :
    let s := exAt (handOver (wireFrame syncPacket))
    let rest := [none, none] ++ handOver (wireFrame [2, 0, 0, 0, 0, 0])
    s.idx = 0 ∧ s.ovf = false ∧ s.syncing = false ∧ bodyFits s.cfg syncPacket ∧ bodyCmd syncPacket = s.cfg.syncCmd ∧
    s.rx = ⟨handOver (wireFrame syncPacket), .silent⟩ ∧
    (exAt (handOver (wireFrame syncPacket) ++ rest)).rx.answers = handOver (wireFrame syncPacket) ++ rest :=
  ⟨by decide, by decide, by decide, by decide, by decide, by decide, rfl⟩

/-- The state of the RX_STEP clause, its procedure successful. -/
theorem witness_SyncPacketRunsProcedure_step :
    let frame := syncPacket ++ bytes16 (crc16 syncPacket)
    let rest := [none, none] ++ handOver (wireFrame [2, 0, 0, 0, 0, 0])
    let s : State := { exAt (some 0xC0 :: rest) with buf := cells frame, idx := 8 }
    s.rx.answers = some 0xC0 :: rest ∧ s.ovf = false ∧ s.syncing = false ∧ 8 ≤ s.idx.toNat ∧ s.idx.toNat ≤ s.cfg.cap ∧
    crc16 (s.span (s.idx.toNat - 2)) = u16le (s.byteAt (s.idx.toNat - 2)) (s.byteAt (s.idx.toNat - 1)) ∧
    s.packetCmd = s.cfg.syncCmd ∧
    ∃ t, exec .rxStep s = .next t ∧ (t.evt == 0x07 && t.syncLast == 1 && t.result == 0) = true :=
  ⟨rfl, by decide, by decide, by decide, by decide, by decide, by decide, exists_of_nextIs (by decide)⟩

/-- A procedure from there that has not completed. -/
theorem witness_SyncPacketRunsProcedure_stuck : exec .sync (exEndless []) = .fault .peerNotDone :=
  eq_of_faultIs (by decide)

theorem witness_SyncPacketNeverSurfaces :
    receiveFamily .tryRecv = true ∧ exFrame.syncing = false ∧
    ∃ t, exec .tryRecv exFrame = .next t ∧ t.pktValid = true :=
  ⟨by decide, by decide, exists_of_nextIs (by decide)⟩

theorem witness_ParametersNeverWritten :
    ∃ t, step (exHost [.command 0x0D000000]) = .next t ∧ (t.evt == 0x08) = true := exists_of_nextIs (by decide)

theorem witness_RequestIsWrittenAsFrame : (txRequest 0x0005 1 0 [[0x41]]).isSome = true := by decide

theorem witness_RequestRoundTrip :
    let body := requestBody 0x0005 1 0 [[0x41]]
    (txRequest 0x0005 1 0 [[0x41]]).isSome = true ∧ exView.txLog = [] ∧ (exAt []).idx = 0 ∧ (exAt []).ovf = false ∧
    body.length + 2 ≤ exCfg.cap ∧ (0x0005 : Half) ≠ exCfg.syncCmd := by decide

/-- The request's operations run, and a receiver may be handed what they wrote. -/
theorem witness_RequestRoundTrip_sent :
    ∃ ops sent, txRequest 0x0005 1 0 [[0x41]] = some ops ∧ issue ops exView = .next sent ∧
      (exAt (handOver sent.txLog)).rx.answers = handOver sent.txLog ++ [] := by
  obtain ⟨sent, h, -⟩ := exists_of_nextIs
    (show nextIs (issue ((txRequest 0x0005 1 0 [[0x41]]).getD []) exView) (·.crc == 0x0621) = true by decide)
  exact ⟨_, sent, rfl, h, (List.append_nil _).symm⟩

end Sys2Proof.Tests
end

section
/-! The command port: what a step is on a presented command word, and statement O10. -/

namespace Sys2Proof.Machine

/-- A presented command word is taken and run (R12, R257). -/
theorem step_of_command {s : State} {w : Word} {q : List HostInput} (hq : s.hostq = .command w :: q) :
    step s = runWord w { s with hostq := q } := by
  simp [step, State.fetch, hq]

/-- Without a reset input among what the host presents, an operation that stopped stays as it is. -/
theorem endedByReset_of_no_rst {r : Fault} {s : State} (h : .rst ∉ s.hostq) : endedByReset r s = .fault r := by
  cases r with
  | noSuchBufferByte => rfl
  | peerNotDone => simp [endedByReset, hostUntilReset_eq_none.mpr h]

/-- A word's outcome is its operation's, where that completes or no reset comes to end it (I13). -/
theorem runWord_eq_exec {w : Word} {i : Instr} {s : State} (hd : decode w = .ok i)
    (h : .rst ∉ s.hostq ∨ exec i s ≠ .fault .peerNotDone) : runWord w s = exec i s := by
  cases he : exec i s with
  | next t => simp only [runWord, hd, he]
  | refused r => simp only [runWord, hd, he]
  | fault r =>
    simp only [runWord, hd, he]
    obtain hn | hc := h
    · exact endedByReset_of_no_rst hn
    · cases r with
      | noSuchBufferByte => rfl
      | peerNotDone => exact absurd he hc

/-- Settles O10: the word's operation runs as it is unless it is stuck with a reset to come, and then the reset that
ends it leaves the reset state, its peer and its held words those that `State.abandon` gives. -/
theorem stepRunsDecodedOperation : Obligations.StepRunsDecodedOperation := by
  intro s w q i hq hd
  rw [step_of_command hq]
  refine ⟨fun h => runWord_eq_exec hd h, fun held q' hsplit hstuck => ?_⟩
  refine ⟨Peer.afterStuck (s.resets + 1), heldAfter (s.resets + 1) 0 held, heldAfter_sublist _ _ _, ?_⟩
  exact runWord_eq_next.mpr (.inr ⟨i, hd, .inr ⟨hstuck, held, q', hsplit, rfl⟩⟩)

end Sys2Proof.Machine
end

section
/-! What no operation writes, and statement O58. -/

namespace Sys2Proof.Machine

/-- The fields that no operation writes: the parameters (R8), the host's queue and the count of resets. -/
structure SameSetting (s t : State) : Prop where
  cfg : t.cfg = s.cfg
  hostq : t.hostq = s.hostq
  resets : t.resets = s.resets

theorem SameSetting.refl (s : State) : SameSetting s s := ⟨rfl, rfl, rfl⟩

theorem SameSetting.trans {s t u : State} (h : SameSetting s t) (h' : SameSetting t u) : SameSetting s u :=
  ⟨h'.cfg.trans h.cfg, h'.hostq.trans h.hostq, h'.resets.trans h.resets⟩

theorem SameOutside.setting {s t : State} (h : SameOutside s t) : SameSetting s t := ⟨h.cfg, h.hostq, h.resets⟩

/-! The updates around the receive path -/

theorem SameSetting.finish (e : Event) (r : Word) (s : State) : SameSetting s (s.finish e r) := ⟨rfl, rfl, rfl⟩

theorem SameSetting.invalidateView (s : State) : SameSetting s s.invalidateView := ⟨rfl, rfl, rfl⟩

theorem SameSetting.txWrite (bs : List Byte) (s : State) : SameSetting s (s.txWrite bs) := ⟨rfl, rfl, rfl⟩

theorem SameSetting.setCrc (c : Half) (s : State) : SameSetting s (s.setCrc c) := ⟨rfl, rfl, rfl⟩

theorem SameSetting.endSync (ok : Bool) (s : State) : SameSetting s (s.endSync ok) := ⟨rfl, rfl, rfl⟩

/-- SYNCING set and the marker sent (R181). -/
theorem SameSetting.beginSync_sendMarker (s : State) : SameSetting s s.beginSync.sendMarker := by
  rw [State.sendMarker_eq]
  exact ⟨rfl, rfl, rfl⟩

theorem SameSetting.sendSyncRequest (s : State) : SameSetting s s.sendSyncRequest := by
  rw [State.sendSyncRequest_eq]
  exact (SameSetting.txWrite _ _).trans (SameSetting.setCrc _ _)

/-- k pad bytes (R132). -/
theorem SameSetting.sendPads (k : Nat) (s : State) : SameSetting s (s.sendPads k) := by
  rw [State.sendPads_eq]
  exact (SameSetting.txWrite _ _).trans (SameSetting.setCrc _ _)

theorem SameSetting.finishSync (ok : Bool) (s : State) : SameSetting s (finishSync ok s) := by
  cases ok <;> exact SameSetting.finish _ _ s

theorem SameSetting.finishStep (r : ByteResult) (s : State) : SameSetting s (finishStep r s) := by
  cases r <;> exact SameSetting.finish _ _ s

theorem SameSetting.finishTry (r : RecvResult) (s : State) : SameSetting s (finishTry r s) := by
  cases r <;> exact SameSetting.finish _ _ s

theorem SameSetting.finishRecv (r : RecvResult) (s : State) : SameSetting s (finishRecv r s) := by
  cases r <;> exact SameSetting.finish _ _ s

/-! The procedures -/

/-- A discard consumes bytes and clears the partial frame (R163). -/
theorem discard_same {s t : State} {n : Nat} (h : discard s = .ends n t) : SameOutside s t := by
  obtain ⟨m, u, hu, e⟩ := Proc.andThen_eq_ends.mp h
  cases e
  have hloop : SameOutside s u :=
    discardLoop_keeps (SameOutside s) (fun v hv => hv.trans (SameOutside.rxPoll v))
      (fun _ _ hv hg => hv.trans (SameOutside.rxGap hg)) _ _ _ _ _ (SameOutside.rfl' s) hu
  exact hloop.trans (by constructor <;> rfl)

theorem syncProc_setting {s t : State} {ok : Bool} (h : syncProc s = .ends ok t) : SameSetting s t := by
  obtain ⟨n1, t1, n2, t2, t3, h1, h2, h3, rfl⟩ := syncProc_ends h
  have drained : SameSetting s t1 := (SameSetting.beginSync_sendMarker s).trans (discard_same h1).setting
  have delimited : SameSetting t1 t2 := (SameSetting.txWrite [slipEnd] t1).trans (discard_same h2).setting
  have waited : SameSetting t2 t3 := (SameSetting.sendSyncRequest t2).trans (syncWait_same h3).setting
  have ended : SameSetting t3 (t3.invalidateView.endSync ok) :=
    (SameSetting.invalidateView t3).trans (SameSetting.endSync ok _)
  exact ((drained.trans delimited).trans waited).trans ended

theorem intercept_setting {s t : State} {r : ByteResult} (h : intercept s = .ends r t) : SameSetting s t := by
  obtain ⟨-, -, ok, hp, -⟩ | ⟨-, -, rfl⟩ := intercept_ends h
  · exact (SameSetting.invalidateView s).trans (syncProc_setting hp)
  · exact SameSetting.refl t

theorem rxByte_setting {b : Byte} {s t : State} {r : ByteResult} (h : rxByte intercept b s = .ends r t) :
    SameSetting s t := by
  obtain h | ⟨u, hu, -, hi⟩ := rxByte_same h
  · exact h.setting
  · exact hu.setting.trans (intercept_setting hi)

theorem tryReceive_setting {s t : State} {r : RecvResult} (h : tryReceive intercept s = .ends r t) :
    SameSetting s t :=
  drain_keeps (SameSetting s) (fun u hu => hu.trans (SameOutside.rxPoll u).setting)
    (fun _ _ hu hg => hu.trans (SameOutside.rxGap hg).setting) (fun _ _ _ _ hu hb => hu.trans (rxByte_setting hb))
    _ s r t (SameSetting.refl s) h

theorem receive_setting {n : Nat} {s t : State} {r : RecvResult} (h : receive intercept n s = .ends r t) :
    SameSetting s t := by
  rw [receive_eq_receiveLoop] at h
  exact receiveLoop_keeps (SameSetting s) (fun _ _ _ hu ht => hu.trans (tryReceive_setting ht))
    n s r t (SameSetting.refl s) h

/-! The readout operations -/

theorem finishRead_next {n : Nat} {v : Word} {s t : State} (h : finishRead n v s = .next t) : t = s.finish .ok v := by
  unfold finishRead at h
  split at h
  · cases h; rfl
  · cases h

theorem readField_next {n : Nat} {v : Word} {s t : State} (h : readField n v s = .next t) :
    ∃ e r, t = s.finish e r := by
  unfold readField at h
  split at h
  · exact ⟨_, _, finishRead_next h⟩
  · cases h; exact ⟨_, _, rfl⟩

/-- RDREG writes EVT and RESULT only (R201). -/
theorem execRdreg_next {n : Half} {s t : State} (h : execRdreg n s = .next t) : ∃ e r, t = s.finish e r := by
  unfold execRdreg at h
  split at h
  · rename_i reg _
    cases reg
    case pktCmd | pktArgc | pktValue => exact readField_next h
    all_goals cases h; exact ⟨_, _, rfl⟩
  · cases h; exact ⟨_, _, rfl⟩

/-- RDBUF writes EVT and RESULT only (R202). -/
theorem execRdbuf_next {n : Half} {s t : State} (h : execRdbuf n s = .next t) : ∃ e r, t = s.finish e r := by
  unfold execRdbuf at h
  split at h
  · exact ⟨_, _, finishRead_next h⟩
  · cases h; exact ⟨_, _, rfl⟩

/-! The receive operations -/

theorem execRxStep_setting {s t : State} (h : execRxStep s = .next t) : SameSetting s t := by
  have hp : SameSetting s s.invalidateView.rxPoll.2 :=
    (SameSetting.invalidateView s).trans (SameOutside.rxPoll _).setting
  unfold execRxStep at h
  split at h <;> rename_i u hu <;> rw [hu] at hp
  · cases h
    exact hp.trans (SameSetting.finish _ _ u)
  · obtain ⟨r, v, hv, rfl⟩ := Proc.finally_eq_next.mp h
    exact (hp.trans (rxByte_setting hv)).trans (SameSetting.finishStep r v)

theorem execTryRecv_setting {s t : State} (h : execTryRecv s = .next t) : SameSetting s t := by
  obtain ⟨r, u, hu, rfl⟩ := Proc.finally_eq_next.mp h
  exact ((SameSetting.invalidateView s).trans (tryReceive_setting hu)).trans (SameSetting.finishTry r u)

theorem execRecv_setting {n : Half} {s t : State} (h : execRecv n s = .next t) : SameSetting s t := by
  obtain ⟨r, u, hu, rfl⟩ := Proc.finally_eq_next.mp h
  exact ((SameSetting.invalidateView s).trans (receive_setting hu)).trans (SameSetting.finishRecv r u)

theorem execRxFlush_setting {s t : State} (h : execRxFlush s = .next t) : SameSetting s t := by
  obtain ⟨n, u, hu, rfl⟩ := Proc.finally_eq_next.mp h
  exact ((SameSetting.invalidateView s).trans (discard_same hu).setting).trans (SameSetting.finish _ _ u)

theorem execSync_setting {s t : State} (h : execSync s = .next t) : SameSetting s t := by
  unfold execSync at h
  split at h
  · cases h
    exact SameSetting.finish _ _ s
  · obtain ⟨ok, u, hu, rfl⟩ := Proc.finally_eq_next.mp h
    exact ((SameSetting.invalidateView s).trans (syncProc_setting hu)).trans (SameSetting.finishSync ok u)

/-! Every operation and every step -/

/-- No operation that completes writes the parameters, the host's queue or the count of resets. -/
theorem exec_setting {i : Instr} {s t : State} (h : exec i s = .next t) : SameSetting s t := by
  cases i with
  | nop | crcClr | crcAdd _ | enc _ | txEnd | txBegin | txByte _ | txFinal => cases h; exact ⟨rfl, rfl, rfl⟩
  | txPad n => cases h; exact (SameSetting.sendPads _ s).trans (SameSetting.finish _ _ _)
  | rxStep => exact execRxStep_setting h
  | tryRecv => exact execTryRecv_setting h
  | recv n => exact execRecv_setting h
  | rxFlush => exact execRxFlush_setting h
  | sync => exact execSync_setting h
  | rdreg n => obtain ⟨e, r, rfl⟩ := execRdreg_next h; exact SameSetting.finish e r s
  | rdbuf n => obtain ⟨e, r, rfl⟩ := execRdbuf_next h; exact SameSetting.finish e r s

/-- A command word keeps the parameters: an illegal word, an operation that completes, and the reset that ends one that
does not. -/
theorem runWord_cfg {w : Word} {s t : State} (h : runWord w s = .next t) : t.cfg = s.cfg := by
  obtain ⟨-, rfl⟩ | ⟨i, -, hexec | ⟨-, held, q, -, rfl⟩⟩ := runWord_eq_next.mp h
  · rfl
  · exact (exec_setting hexec).cfg
  · rfl

/-- Settles O58, over everything a step can do: wait, take the reset input, or run a command word. -/
theorem parametersNeverWritten : Obligations.ParametersNeverWritten := by
  intro s t h
  obtain ⟨-, rfl⟩ | ⟨q, -, rfl⟩ | ⟨w, q, -, hrun⟩ := step_eq_next.mp h
  · rfl
  · rfl
  · have hcfg := runWord_cfg hrun
    exact hcfg

end Sys2Proof.Machine
end

section
/-! The invariant of the registers: how its clauses divide into those on the assembler, those on the packet view and the
rest, what each part of a receive keeps of them, and statements O2 and O3. -/

namespace Sys2Proof.Machine

/-! The clauses on the assembler -/

/-- The clauses of `State.Inv` that hold at every moment of a receive, in a SYNC procedure too, as a property of the four
fields they read: FRAME_CAP, the buffer, IDX and OVF. -/
structure AssemblerInv (c : Config) (m : Memory) (i : Half) (o : Bool) : Prop where
  legal : c.legal
  idxBound : i.toNat ≤ c.cap
  ovfFull : o = true → i = c.frameCap
  bufWf : m.wf
  bufInside : ∀ x ∈ m, x.1 < c.cap
  frameWritten : ∀ a < i.toNat, (m.read? a).isSome = true

/-- The assembler of a state is sound. An update that writes none of the four fields keeps this definitionally. -/
abbrev State.Assembled (s : State) : Prop := AssemblerInv s.cfg s.buf s.idx s.ovf

/-- A cleared assembler is sound over any sound buffer (R152). -/
theorem AssemblerInv.cleared {c : Config} {m : Memory} {i : Half} {o : Bool} (h : AssemblerInv c m i o) :
    AssemblerInv c m 0 false where
  legal := h.legal
  idxBound := Nat.zero_le _
  ovfFull := by simp
  bufWf := h.bufWf
  bufInside := h.bufInside
  frameWritten := by simp

/-- Below FRAME_CAP the fill level rises by one and does not wrap. -/
theorem State.store_idx_toNat {s : State} (hlt : s.idx.toNat < s.cfg.cap) (v : Byte) :
    (s.store v).idx.toNat = s.idx.toNat + 1 := by
  have hcap : s.cfg.cap < 2 ^ 16 := s.cfg.frameCap.isLt
  rw [State.store_idx]
  bv_omega

/-- A store below FRAME_CAP keeps the assembler sound (R151). -/
theorem State.Assembled.store {s : State} (h : s.Assembled) (ho : s.ovf = false) (hlt : s.idx.toNat < s.cfg.cap)
    (v : Byte) : (s.store v).Assembled where
  legal := h.legal
  idxBound := by
    rw [State.store_idx_toNat hlt]
    exact hlt
  ovfFull := by simp [ho]
  bufWf := State.store_wf h.bufWf v
  bufInside := by
    intro x hx
    obtain rfl | hold := Memory.mem_write hx
    · exact hlt
    · exact h.bufInside x hold
  frameWritten := by
    intro a ha
    rw [State.store_idx_toNat hlt] at ha
    by_cases hlast : a = s.idx.toNat
    · simp [hlast]
    · simpa [Memory.read?_write_other _ v hlast] using h.frameWritten a (by omega)

/-- A byte too many finds the buffer exactly full (R151). -/
theorem State.Assembled.markOversize {s : State} (h : s.Assembled) (hfull : s.cfg.cap ≤ s.idx.toNat) :
    s.markOversize.Assembled where
  legal := h.legal
  idxBound := h.idxBound
  ovfFull _ := BitVec.eq_of_toNat_eq (Nat.le_antisymm h.idxBound hfull)
  bufWf := h.bufWf
  bufInside := h.bufInside
  frameWritten := h.frameWritten

theorem State.Assembled.byteIn {s : State} (h : s.Assembled) (v : Byte) : (s.byteIn v).Assembled := by
  obtain ⟨-, e⟩ | ⟨ho, hlt, e⟩ | ⟨-, hfull, e⟩ := s.byteIn_cases v <;> rw [e]
  · exact h
  · exact h.store ho hlt v
  · exact h.markOversize hfull

/-- The assembler never touches the packet view. -/
theorem State.byteIn_view (v : Byte) (s : State) :
    (s.byteIn v).pktValid = s.pktValid ∧ (s.byteIn v).flen = s.flen := by
  obtain ⟨-, e⟩ | ⟨-, -, e⟩ | ⟨-, -, e⟩ := s.byteIn_cases v <;> rw [e] <;> exact ⟨rfl, rfl⟩

/-! The clauses on the packet view -/

/-- A packet view of an accepted frame: the clauses of `State.Inv` under PKT_VALID = 1, but for R184's. -/
structure State.Shown (s : State) : Prop where
  assembled : s.Assembled
  valid : s.pktValid = true
  lenLow : 8 ≤ s.flen.toNat
  lenHigh : s.flen.toNat ≤ s.cfg.cap
  idxZero : s.idx = 0
  escClear : s.esc = false
  ovfClear : s.ovf = false
  written : ∀ a < s.flen.toNat, (s.buf.read? a).isSome = true

/-- A frame end shows a view of the frame just assembled, or leaves the view as it was (R152, R154). -/
theorem State.frameEnd_view {s u : State} {o : FrameResult} (hs : s.Assembled) (h : s.frameEnd = (o, u)) :
    (o = .packet ∧ u.Shown) ∨ (o ≠ .packet ∧ u.Assembled ∧ u.pktValid = s.pktValid ∧ u.flen = s.flen) := by
  obtain ⟨-, e⟩ | ⟨-, -, e⟩ | ⟨-, -, -, e⟩ | ⟨-, -, -, e⟩ | ⟨-, hlen, -, e⟩ := s.frameEnd_cases <;>
    rw [e] at h <;> cases h
  case inr.inr.inr.inr =>
    exact .inl ⟨rfl, hs.cleared, rfl, hlen, hs.idxBound, rfl, rfl, rfl, hs.frameWritten⟩
  all_goals exact .inr ⟨by simp, hs.cleared, rfl, rfl⟩

/-- Everything one wire byte can do to assembler and view: both stay sound, or an accepted packet goes to the hook. -/
theorem rxByte_view {hook : State → Proc ByteResult} {b : Byte} {s t : State} {r : ByteResult} (hs : s.Assembled)
    (h : rxByte hook b s = .ends r t) :
    (r ≠ .packet ∧ SameOutside s t ∧ t.Assembled ∧ t.pktValid = s.pktValid ∧ t.flen = s.flen) ∨
    ∃ u, SameOutside s u ∧ u.Shown ∧ hook u = .ends r t := by
  have hesc (e : Bool) : SameOutside s (s.setEsc e) := by constructor <;> rfl
  obtain ⟨-, hb⟩ | ⟨-, rfl, rfl⟩ | ⟨-, -, rfl, rfl⟩ := rxByte_ends h
  · have hframe : SameOutside s (s.setEsc false).frameEnd.2 := (hesc false).trans (SameOutside.frameEnd _)
    have hsets : (s.setEsc false).Assembled := hs
    obtain ⟨-, ⟨u, hu, hh⟩ | ⟨hu, rfl⟩ | ⟨hu, rfl⟩⟩ := rxBoundary_ends hb <;> rw [hu] at hframe <;>
      obtain ⟨ho, hv⟩ | ⟨ho, hv⟩ := State.frameEnd_view hsets hu
    · exact .inr ⟨u, hframe, hv, hh⟩
    · exact absurd rfl ho
    · cases ho
    · exact .inl ⟨by simp, hframe, hv⟩
    · cases ho
    · exact .inl ⟨by simp, hframe, hv⟩
  · exact .inl ⟨by simp, hesc true, hs, rfl, rfl⟩
  · have hsets : (s.setEsc false).Assembled := hs
    exact .inl ⟨by simp, (hesc false).trans (SameOutside.byteIn _ _), hsets.byteIn _, State.byteIn_view _ _⟩

/-! The invariant and its parts -/

/-- The clauses of `State.Inv` on SYNCING, SYNC_LAST and EVT. -/
structure State.Settled (s : State) : Prop where
  idle : s.syncing = false
  syncLastCode : s.syncLast ≠ 3
  evtCode : s.evt ∈ eventCodes

/-- What writes none of the three registers keeps their clauses. -/
theorem State.Settled.of_same {s t : State} (h : s.Settled) (hst : SameOutside s t) : t.Settled where
  idle := hst.syncing.trans h.idle
  syncLastCode := hst.syncLast ▸ h.syncLastCode
  evtCode := hst.evt ▸ h.evtCode

theorem State.Inv.assembled {s : State} (h : s.Inv) : s.Assembled :=
  ⟨h.legal, h.idxBound, h.ovfFull, h.bufWf, h.bufInside, h.frameWritten⟩

theorem State.Inv.settled {s : State} (h : s.Inv) : s.Settled := ⟨h.idle, h.syncLastCode, h.evtCode⟩

/-- Without a packet view the clauses on the view hold of themselves, given FLEN = 0. -/
theorem State.inv_of_noView {s : State} (ha : s.Assembled) (hs : s.Settled) (hv : s.pktValid = false)
    (hf : s.flen = 0) : s.Inv where
  legal := ha.legal
  idxBound := ha.idxBound
  ovfFull := ha.ovfFull
  view := by simp [hv]
  noView _ := hf
  idle := hs.idle
  bufWf := ha.bufWf
  bufInside := ha.bufInside
  frameWritten := ha.frameWritten
  viewWritten := by simp [hv]
  viewNotSync := by simp [hv]
  syncLastCode := hs.syncLastCode
  evtCode := hs.evtCode

/-- With a packet view R184's clause is what remains to be shown of it. -/
theorem State.inv_of_shown {s : State} (hv : s.Shown) (hs : s.Settled) (hc : s.packetCmd ≠ s.cfg.syncCmd) : s.Inv where
  legal := hv.assembled.legal
  idxBound := hv.assembled.idxBound
  ovfFull := hv.assembled.ovfFull
  view _ := ⟨hv.lenLow, hv.lenHigh, hv.idxZero, hv.escClear, hv.ovfClear⟩
  noView h := by simp [hv.valid] at h
  idle := hs.idle
  bufWf := hv.assembled.bufWf
  bufInside := hv.assembled.bufInside
  frameWritten := hv.assembled.frameWritten
  viewWritten _ := hv.written
  viewNotSync _ := hc
  syncLastCode := hs.syncLastCode
  evtCode := hs.evtCode

/-- The invariant says nothing of CRC, LASTDROP, RESULT, the TX log, the peer and the host, and of EVT only its code. -/
theorem State.Inv.write {s : State} (h : s.Inv) {evt : Byte} (he : evt ∈ eventCodes) (crc : Half) (lastDrop : BitVec 2)
    (result : Word) (txLog : List Byte) (rx : Peer) (rxTaken : Nat) (hostq : List HostInput) :
    State.Inv { s with crc := crc, lastDrop := lastDrop, evt := evt, result := result, txLog := txLog, rx := rx,
                       rxTaken := rxTaken, hostq := hostq } :=
  ⟨h.legal, h.idxBound, h.ovfFull, h.view, h.noView, h.idle, h.bufWf, h.bufInside, h.frameWritten, h.viewWritten,
    h.viewNotSync, h.syncLastCode, he⟩

/-- Every event has a code of R221. -/
theorem Event.code_mem (e : Event) : e.code ∈ eventCodes := by
  cases e <;> decide

theorem State.Inv.finish {s : State} (h : s.Inv) (e : Event) (r : Word) : (s.finish e r).Inv :=
  h.write e.code_mem _ _ _ _ _ _ _

theorem State.Inv.invalidateView {s : State} (h : s.Inv) : s.invalidateView.Inv :=
  State.inv_of_noView h.assembled ⟨h.idle, h.syncLastCode, h.evtCode⟩ rfl rfl

/-! Polls -/

/-- A poll writes the environment only: the peer and the count of its bytes (R57). -/
theorem State.rxPoll_environment (s : State) : ∃ p n, s.rxPoll.2 = { s with rx := p, rxTaken := n } := by
  obtain ⟨a, rest, -, e⟩ | ⟨-, e⟩ | ⟨k, a, -, e⟩ | ⟨k, b, -, e⟩ := s.rxPoll_cases <;> rw [e] <;> exact ⟨_, _, rfl⟩

/-- So does the gap that ends a loop (log 4). -/
theorem State.rxGap_environment {s t : State} {n : Nat} (h : s.rxGap n = some t) :
    ∃ p k, t = { s with rx := p, rxTaken := k } := by
  obtain ⟨-, rfl⟩ | ⟨k, -, rfl⟩ := State.rxGap_eq_some.mp h <;> exact ⟨_, _, rfl⟩

theorem State.Assembled.rxPoll {s : State} (h : s.Assembled) : s.rxPoll.2.Assembled := by
  obtain ⟨p, n, e⟩ := s.rxPoll_environment
  rw [e]
  exact h

theorem State.Assembled.rxGap {s t : State} {n : Nat} (h : s.Assembled) (hg : s.rxGap n = some t) : t.Assembled := by
  obtain ⟨p, k, rfl⟩ := State.rxGap_environment hg
  exact h

/-- A poll keeps the invariant, and whether there is a view. -/
theorem State.Inv.rxPoll {s : State} (h : s.Inv) : s.rxPoll.2.Inv ∧ s.rxPoll.2.pktValid = s.pktValid := by
  obtain ⟨p, n, e⟩ := s.rxPoll_environment
  rw [e]
  exact ⟨h.write h.evtCode _ _ _ _ _ _ _, rfl⟩

theorem State.Inv.rxGap {s t : State} {n : Nat} (h : s.Inv) (hg : s.rxGap n = some t) :
    t.Inv ∧ t.pktValid = s.pktValid := by
  obtain ⟨p, k, rfl⟩ := State.rxGap_environment hg
  exact ⟨h.write h.evtCode _ _ _ _ _ _ _, rfl⟩

/-! The SYNC procedure: SYNCING = 1 inside, so only the assembler's clauses go through -/

/-- A discard keeps the assembler sound over the buffer it leaves alone (R163). -/
theorem discard_assembled {s t : State} {n : Nat} (hs : s.Assembled) (h : discard s = .ends n t) : t.Assembled := by
  obtain ⟨m, u, hu, e⟩ := Proc.andThen_eq_ends.mp h
  cases e
  have hloop : u.Assembled :=
    discardLoop_keeps State.Assembled (fun _ hv => hv.rxPoll) (fun _ _ hv hg => hv.rxGap hg) _ _ _ _ _ hs hu
  exact hloop.cleared

theorem rxByte_surface_assembled {b : Byte} {s t : State} {r : ByteResult} (hs : s.Assembled)
    (h : rxByte surface b s = .ends r t) : t.Assembled := by
  obtain ⟨-, -, ht, -⟩ | ⟨u, -, hu, e⟩ := rxByte_view hs h
  · exact ht
  · cases e
    exact hu.assembled

theorem receive_surface_assembled {n : Nat} {s t : State} {r : RecvResult} (hs : s.Assembled)
    (h : receive surface n s = .ends r t) : t.Assembled := by
  rw [receive_eq_receiveLoop] at h
  refine receiveLoop_keeps State.Assembled (fun u r' v hu hv => ?_) n s r t hs h
  exact drain_keeps State.Assembled (fun _ hw => hw.rxPoll) (fun _ _ hw hg => hw.rxGap hg)
    (fun _ _ _ _ hw hb => rxByte_surface_assembled hw hb) _ u r' v hu hv

/-- The wait, over any number of other packets, each view discarded before the next receive (R181). -/
theorem syncWait_assembled : ∀ {k : Nat} {s t : State} {ok : Bool}, s.Assembled → syncWait k s = .ends ok t →
    t.Assembled := by
  intro k
  induction k with
  | zero =>
    intro s t ok hs h
    simp only [syncWait] at h
    split at h
    · cases h
    · cases h
      exact hs.rxGap ‹_›
  | succ k ih =>
    intro s t ok hs h
    simp only [syncWait] at h
    split at h
    · cases h
    all_goals
      rename_i u hu
      have hrecv : u.Assembled := receive_surface_assembled hs hu
    · cases h
      exact hrecv
    · cases h
      exact hrecv
    · split at h
      · cases h
        exact hrecv
      · exact ih (s := u.invalidateView) hrecv h

/-- A SYNC procedure ends Idle and without a view, its outcome's code in SYNC_LAST (R181). -/
theorem syncProc_inv {s t : State} {ok : Bool} (ha : s.Assembled) (he : s.evt ∈ eventCodes)
    (h : syncProc s = .ends ok t) : t.Inv ∧ t.pktValid = false := by
  obtain ⟨n1, t1, n2, t2, t3, h1, h2, h3, rfl⟩ := syncProc_ends h
  rw [State.sendMarker_eq] at h1
  rw [State.sendSyncRequest_eq] at h3
  have drained : t1.Assembled := discard_assembled (s := s.beginSync.txWrite syncMarker) ha h1
  have delimited : t2.Assembled := discard_assembled (s := t1.txWrite [slipEnd]) drained h2
  have waited : t3.Assembled := syncWait_assembled (s := (t2.txWrite _).setCrc _) delimited h3
  have hevt : t3.evt = s.evt := (syncWait_same h3).evt.trans ((discard_same h2).evt.trans (discard_same h1).evt)
  have hlast : syncOutcomeCode ok ≠ 3 := by cases ok <;> decide
  exact ⟨State.inv_of_noView waited ⟨rfl, hlast, hevt ▸ he⟩ rfl rfl, rfl⟩

/-! The receive operations: the invariant holds after every wire byte -/

/-- `Intercept` on an accepted packet: a view that does not carry SYNC_CMD, or a SYNC procedure and no view (R180,
R184). -/
theorem intercept_inv {s t : State} {r : ByteResult} (hv : s.Shown) (hs : s.Settled) (h : intercept s = .ends r t) :
    t.Inv ∧ (r ≠ .packet → t.pktValid = false) := by
  obtain ⟨-, -, ok, hp, -⟩ | ⟨hcmd, rfl, rfl⟩ := intercept_ends h
  · obtain ⟨hinv, hnone⟩ := syncProc_inv (s := s.invalidateView) hv.assembled hs.evtCode hp
    exact ⟨hinv, fun _ => hnone⟩
  · have hc : t.packetCmd ≠ t.cfg.syncCmd := hcmd.resolve_right (by simp [hs.idle])
    exact ⟨State.inv_of_shown hv hs hc, fun hr => absurd rfl hr⟩

/-- One wire byte taken without a view: only a reported packet leaves one (R157). -/
theorem rxByte_inv {b : Byte} {s t : State} {r : ByteResult} (hs : s.Inv) (hv : s.pktValid = false)
    (h : rxByte intercept b s = .ends r t) : t.Inv ∧ (r ≠ .packet → t.pktValid = false) := by
  obtain ⟨-, hsame, ha, hp, hf⟩ | ⟨u, hsame, hu, hi⟩ := rxByte_view hs.assembled h
  · have hnone : t.pktValid = false := hp.trans hv
    exact ⟨State.inv_of_noView ha (hs.settled.of_same hsame) hnone (hf.trans (hs.noView hv)), fun _ => hnone⟩
  · exact intercept_inv hu (hs.settled.of_same hsame) hi

/-- The loop of `TryReceive` (R158): the states it goes on from have no view. -/
theorem drain_inv : ∀ {n : Nat} {s t : State} {r : RecvResult}, s.Inv → s.pktValid = false →
    drain intercept n s = .ends r t → t.Inv ∧ (r ≠ .packet → t.pktValid = false) := by
  intro n
  induction n with
  | zero =>
    intro s t r hs hv h
    simp only [drain] at h
    split at h
    · cases h
    · cases h
      obtain ⟨hinv, hp⟩ := hs.rxGap ‹_›
      exact ⟨hinv, fun _ => hp.trans hv⟩
  | succ n ih =>
    intro s t r hs hv h
    obtain ⟨hpoll, hp⟩ := hs.rxPoll
    simp only [drain] at h
    split at h <;> rename_i u hu <;> rw [hu] at hpoll hp
    · cases h
      exact ⟨hpoll, fun _ => hp.trans hv⟩
    · split at h
      · cases h
      all_goals
        rename_i w hw
        obtain ⟨hinv, hnone⟩ := rxByte_inv hpoll (hp.trans hv) hw
      · cases h
        exact ⟨hinv, fun hr => absurd rfl hr⟩
      · cases h
        exact ⟨hinv, fun _ => hnone (by simp)⟩
      all_goals exact ih hinv (hnone (by simp)) h

/-- The iterations of `Receive` (R159). -/
theorem receiveLoop_inv : ∀ {n : Nat} {s t : State} {r : RecvResult}, s.Inv → s.pktValid = false →
    receiveLoop intercept n s = .ends r t → t.Inv := by
  intro n
  induction n with
  | zero =>
    intro s t r hs _ h
    cases h
    exact hs
  | succ n ih =>
    intro s t r hs hv h
    simp only [receiveLoop] at h
    split at h
    · cases h
    all_goals
      rename_i u hu
      obtain ⟨hinv, hnone⟩ := drain_inv hs hv hu
    · cases h
      exact hinv
    all_goals exact ih hinv (hnone (by simp)) h

theorem State.Inv.finishStep {s : State} (h : s.Inv) (r : ByteResult) : (finishStep r s).Inv := by
  cases r <;> exact h.finish _ _

theorem State.Inv.finishTry {s : State} (h : s.Inv) (r : RecvResult) : (finishTry r s).Inv := by
  cases r <;> exact h.finish _ _

theorem State.Inv.finishRecv {s : State} (h : s.Inv) (r : RecvResult) : (finishRecv r s).Inv := by
  cases r <;> exact h.finish _ _

theorem State.Inv.finishSync {s : State} (h : s.Inv) (ok : Bool) : (finishSync ok s).Inv := by
  cases ok <;> exact h.finish _ _

theorem execRxStep_inv {s t : State} (hs : s.Inv) (h : execRxStep s = .next t) : t.Inv := by
  obtain ⟨hpoll, hp⟩ := hs.invalidateView.rxPoll
  unfold execRxStep at h
  split at h <;> rename_i u hu <;> rw [hu] at hpoll hp
  · cases h
    exact hpoll.finish _ _
  · obtain ⟨r, v, hv, rfl⟩ := Proc.finally_eq_next.mp h
    obtain ⟨hinv, -⟩ := rxByte_inv hpoll hp hv
    exact hinv.finishStep r

theorem execTryRecv_inv {s t : State} (hs : s.Inv) (h : execTryRecv s = .next t) : t.Inv := by
  obtain ⟨r, u, hu, rfl⟩ := Proc.finally_eq_next.mp h
  obtain ⟨hinv, -⟩ := drain_inv hs.invalidateView rfl hu
  exact hinv.finishTry r

theorem execRecv_inv {n : Half} {s t : State} (hs : s.Inv) (h : execRecv n s = .next t) : t.Inv := by
  obtain ⟨r, u, hu, rfl⟩ := Proc.finally_eq_next.mp h
  rw [receive_eq_receiveLoop] at hu
  exact (receiveLoop_inv hs.invalidateView rfl hu).finishRecv r

/-- A discard begun without a view (R163, R164). -/
theorem discard_inv {s t : State} {n : Nat} (hs : s.Inv) (hv : s.pktValid = false) (h : discard s = .ends n t) :
    t.Inv := by
  obtain ⟨m, u, hu, e⟩ := Proc.andThen_eq_ends.mp h
  cases e
  obtain ⟨hinv, hnone⟩ : u.Inv ∧ u.pktValid = false :=
    discardLoop_keeps (fun v => v.Inv ∧ v.pktValid = false)
      (fun _ ⟨hi, hp⟩ => hi.rxPoll.imp_right (·.trans hp)) (fun _ _ ⟨hi, hp⟩ hg => (hi.rxGap hg).imp_right (·.trans hp))
      _ _ _ _ _ ⟨hs, hv⟩ hu
  exact State.inv_of_noView hinv.assembled.cleared ⟨hinv.idle, hinv.syncLastCode, hinv.evtCode⟩ hnone
    (hinv.noView hnone)

theorem execRxFlush_inv {s t : State} (hs : s.Inv) (h : execRxFlush s = .next t) : t.Inv := by
  obtain ⟨n, u, hu, rfl⟩ := Proc.finally_eq_next.mp h
  exact (discard_inv hs.invalidateView rfl hu).finish _ _

theorem execSync_inv {s t : State} (hs : s.Inv) (h : execSync s = .next t) : t.Inv := by
  unfold execSync at h
  split at h
  · cases h
    exact hs.finish _ _
  · obtain ⟨ok, u, hu, rfl⟩ := Proc.finally_eq_next.mp h
    obtain ⟨hinv, -⟩ := syncProc_inv (s := s.invalidateView) hs.assembled hs.evtCode hu
    exact hinv.finishSync ok

/-! Every operation, every step and reset -/

/-- Every operation that completes keeps the invariant. -/
theorem exec_inv {i : Instr} {s t : State} (hs : s.Inv) (h : exec i s = .next t) : t.Inv := by
  cases i with
  | nop => cases h; exact hs.finish _ _
  | crcClr | crcAdd _ | enc _ | txEnd | txBegin | txByte _ | txFinal =>
    cases h
    exact hs.write (Event.code_mem .ok) _ _ _ _ _ _ _
  | txPad n =>
    cases h
    rw [State.sendPads_eq]
    exact hs.write (Event.code_mem .ok) _ _ _ _ _ _ _
  | rxStep => exact execRxStep_inv hs h
  | tryRecv => exact execTryRecv_inv hs h
  | recv n => exact execRecv_inv hs h
  | rxFlush => exact execRxFlush_inv hs h
  | sync => exact execSync_inv hs h
  | rdreg n => obtain ⟨e, r, rfl⟩ := execRdreg_next h; exact hs.finish e r
  | rdbuf n => obtain ⟨e, r, rfl⟩ := execRdbuf_next h; exact hs.finish e r

/-- The reset values meet the invariant wherever FRAME_CAP is legal (R38, R250). -/
theorem State.inv_afterReset {c : Config} (hc : c.legal) (p : Peer) (q : List HostInput) (n : Nat) :
    (State.afterReset c p q n).Inv := by
  have ha : (State.afterReset c p q n).Assembled :=
    { legal := hc, idxBound := Nat.zero_le _, ovfFull := by simp, bufWf := List.Pairwise.nil, bufInside := by simp,
      frameWritten := by simp }
  exact State.inv_of_noView ha ⟨rfl, by simp, by simp [eventCodes]⟩ rfl rfl

/-- A command word keeps the invariant: an illegal word, an operation that completes, and the reset that ends one that
does not. -/
theorem runWord_inv {w : Word} {s t : State} (hs : s.Inv) (h : runWord w s = .next t) : t.Inv := by
  obtain ⟨-, rfl⟩ | ⟨i, -, hexec | ⟨-, held, q, -, rfl⟩⟩ := runWord_eq_next.mp h
  · exact hs.finish _ _
  · exact exec_inv hs hexec
  · exact State.inv_afterReset hs.legal _ _ _

/-- Settles O3, over everything a step can do: wait, take the reset input, or run a command word. -/
theorem stepKeepsInvariant : Obligations.StepKeepsInvariant := by
  intro s t hs h
  obtain ⟨-, rfl⟩ | ⟨q, -, rfl⟩ | ⟨w, q, -, hrun⟩ := step_eq_next.mp h
  · exact hs
  · exact State.inv_afterReset hs.legal _ _ _
  · have htaken : State.Inv { s with hostq := q } := hs.write hs.evtCode _ _ _ _ _ _ _
    exact runWord_inv htaken hrun

/-- The drawn FRAME_CAP is in the legal range whatever the draw (R5; log 2). -/
theorem Config.chip_legal : Config.chip.legal := by
  unfold Config.legal Config.cap Config.chip
  split
  · assumption
  · decide

/-- Settles O2: the reset values over a legal configuration. -/
theorem resetMeetsInvariant : Obligations.ResetMeetsInvariant :=
  State.inv_afterReset Config.chip_legal _ _ _

end Sys2Proof.Machine
end

section
/-! STATUS as a sum of its fields, and statement O23. -/

namespace Sys2Proof.Machine

/-- A field put in above all the bits of a word adds its value at its position. -/
theorem toNat_or_shiftLeft {a : Word} {k w : Nat} (x : BitVec w) (ha : a.toNat < 2 ^ k) (hk : k + w ≤ 32) :
    (a ||| (x.setWidth 32 <<< k)).toNat = a.toNat + x.toNat * 2 ^ k := by
  have hx : x.toNat * 2 ^ k < 2 ^ 32 :=
    calc x.toNat * 2 ^ k < 2 ^ w * 2 ^ k := Nat.mul_lt_mul_of_pos_right x.isLt (Nat.two_pow_pos k)
      _ = 2 ^ (k + w) := by rw [Nat.pow_add, Nat.mul_comm]
      _ ≤ 2 ^ 32 := Nat.pow_le_pow_right (by decide) hk
  have hw : x.toNat < 2 ^ 32 := Nat.lt_of_lt_of_le x.isLt (Nat.pow_le_pow_right (by decide) (by omega))
  rw [BitVec.toNat_or, BitVec.toNat_shiftLeft, BitVec.toNat_setWidth, Nat.mod_eq_of_lt hw, Nat.shiftLeft_eq,
    Nat.mod_eq_of_lt hx, ← Nat.shiftLeft_eq, Nat.or_comm, ← Nat.shiftLeft_add_eq_or_of_lt ha, Nat.add_comm]

/-- A flag put in above all the bits of a word adds its value at its position. -/
theorem toNat_or_flagBit {a : Word} {k : Nat} (f : Bool) (ha : a.toNat < 2 ^ k) (hk : k + 1 ≤ 32) :
    (a ||| flagBit f k).toNat = a.toNat + f.toNat * 2 ^ k := by
  rw [flagBit, toNat_or_shiftLeft (BitVec.ofBool f) ha hk, BitVec.toNat_ofBool]

/-- Each field of STATUS stands above all that come before it, so the composite is a sum (R34). -/
theorem statusWord_toNat (s : State) :
    (statusWord s).toNat =
      s.evt.toNat + s.esc.toNat * 2 ^ 8 + s.ovf.toNat * 2 ^ 9 + s.pktValid.toNat * 2 ^ 10 + s.syncing.toNat * 2 ^ 11
        + s.syncLast.toNat * 2 ^ 12 + s.lastDrop.toNat * 2 ^ 14 := by
  have hevt : s.evt.toNat < 2 ^ 8 := s.evt.isLt
  have hesc := s.esc.toNat_le
  have hovf := s.ovf.toNat_le
  have hpkt := s.pktValid.toNat_le
  have hsyn := s.syncing.toNat_le
  have hlast : s.syncLast.toNat < 2 ^ 2 := s.syncLast.isLt
  have sumEvt : (s.evt.setWidth 32).toNat = s.evt.toNat := by
    rw [BitVec.toNat_setWidth]
    omega
  have sumEsc := toNat_or_flagBit s.esc (k := 8) (by rw [sumEvt]; exact hevt) (by decide)
  have sumOvf := toNat_or_flagBit s.ovf (k := 9) (by rw [sumEsc]; omega) (by decide)
  have sumPkt := toNat_or_flagBit s.pktValid (k := 10) (by rw [sumOvf]; omega) (by decide)
  have sumSyncing := toNat_or_flagBit s.syncing (k := 11) (by rw [sumPkt]; omega) (by decide)
  have sumSyncLast := toNat_or_shiftLeft s.syncLast (k := 12) (by rw [sumSyncing]; omega) (by decide)
  have sumLastDrop := toNat_or_shiftLeft s.lastDrop (k := 14) (by rw [sumSyncLast]; omega) (by decide)
  rw [statusWord, sumLastDrop, sumSyncLast, sumSyncing, sumPkt, sumOvf, sumEsc, sumEvt]

/-- Bit 11 of STATUS is SYNCING (R34). -/
theorem statusWord_bit11 (s : State) : (statusWord s).getLsbD 11 = s.syncing := by
  cases hb : s.syncing <;> simp [statusWord, flagBit, hb]

/-- RDREG 0 is the read of STATUS (R201). -/
theorem exec_rdreg_status (s : State) : exec (.rdreg 0) s = .next (s.finish .ok (statusWord s)) := rfl

/-- Settles O23. -/
theorem statusIsComposite : Obligations.StatusIsComposite := fun s =>
  ⟨statusWord_toNat s, exec_rdreg_status s, fun hs => (statusWord_bit11 s).trans hs.idle⟩

end Sys2Proof.Machine
end

section
/-! The operations outside the receive family: what they leave unchanged, what the reads of the packet view depend on,
and statements O26 and O25. -/

namespace Sys2Proof.Machine

/-! What they leave unchanged -/

/-- t is s but for the four fields that an operation outside the receive family may write. -/
def SameButOutput (s t : State) : Prop :=
  t = { s with crc := t.crc, txLog := t.txLog, evt := t.evt, result := t.result }

theorem SameButOutput.refl (s : State) : SameButOutput s s := rfl

theorem SameButOutput.trans {s t u : State} (h : SameButOutput s t) (h' : SameButOutput t u) : SameButOutput s u := by
  unfold SameButOutput at *
  rw [h', h]

theorem SameButOutput.rx {s t : State} (h : SameButOutput s t) : t.rx = s.rx := by
  unfold SameButOutput at h
  rw [h]

theorem SameButOutput.rxTaken {s t : State} (h : SameButOutput s t) : t.rxTaken = s.rxTaken := by
  unfold SameButOutput at h
  rw [h]

theorem SameButOutput.finish (e : Event) (r : Word) (s : State) : SameButOutput s (s.finish e r) := rfl

/-- k pad bytes (R132). -/
theorem SameButOutput.sendPads (k : Nat) (s : State) : SameButOutput s (s.sendPads k) := by
  rw [State.sendPads_eq]
  rfl

/-- An operation that does not receive writes at most CRC, the TX log, EVT and RESULT (R15). -/
theorem exec_sameButOutput {i : Instr} {s t : State} (hi : receiveFamily i = false) (h : exec i s = .next t) :
    SameButOutput s t := by
  cases i with
  | nop | crcClr | crcAdd _ | enc _ | txEnd | txBegin | txByte _ | txFinal => cases h; rfl
  | txPad n =>
    cases h
    exact (SameButOutput.sendPads (padCount n) s).trans (SameButOutput.finish _ _ _)
  | rdreg n => obtain ⟨e, r, rfl⟩ := execRdreg_next h; exact SameButOutput.finish e r s
  | rdbuf n => obtain ⟨e, r, rfl⟩ := execRdbuf_next h; exact SameButOutput.finish e r s
  | rxStep | tryRecv | recv _ | rxFlush | sync => cases hi

/-- The operations that write CRC without receiving. -/
theorem exec_crc_eq {i : Instr} {s t : State} (hi : receiveFamily i = false) (h : exec i s = .next t)
    (hc : ¬ (i = .crcClr ∨ (∃ b, i = .crcAdd b) ∨ i = .txBegin ∨ (∃ b, i = .txByte b) ∨ ∃ n, i = .txPad n)) :
    t.crc = s.crc := by
  cases i with
  | nop | enc _ | txEnd | txFinal => cases h; rfl
  | rdreg n => obtain ⟨e, r, rfl⟩ := execRdreg_next h; rfl
  | rdbuf n => obtain ⟨e, r, rfl⟩ := execRdbuf_next h; rfl
  | crcClr | crcAdd _ | txBegin | txByte _ | txPad _ => exact absurd (by simp) hc
  | rxStep | tryRecv | recv _ | rxFlush | sync => cases hi

/-- The operations that write the TX log without receiving. -/
theorem exec_txLog_eq {i : Instr} {s t : State} (hi : receiveFamily i = false) (h : exec i s = .next t)
    (hx : ¬ ((∃ b, i = .enc b) ∨ i = .txEnd ∨ i = .txBegin ∨ (∃ b, i = .txByte b) ∨ (∃ n, i = .txPad n) ∨
      i = .txFinal)) :
    t.txLog = s.txLog := by
  cases i with
  | nop | crcClr | crcAdd _ => cases h; rfl
  | rdreg n => obtain ⟨e, r, rfl⟩ := execRdreg_next h; rfl
  | rdbuf n => obtain ⟨e, r, rfl⟩ := execRdbuf_next h; rfl
  | enc _ | txEnd | txBegin | txByte _ | txPad _ | txFinal => exact absurd (by simp) hx
  | rxStep | tryRecv | recv _ | rxFlush | sync => cases hi

/-- Settles O26. -/
theorem nonReceiveFrame : Obligations.NonReceiveFrame := fun _ _ _ hi h =>
  ⟨exec_sameButOutput hi h, fun hne => by_contra fun hc => hne (exec_crc_eq hi h hc),
    fun hne => by_contra fun hx => hne (exec_txLog_eq hi h hx)⟩

/-- So does a sequence of such operations. -/
theorem issue_sameButOutput {is : List Instr} : ∀ {s t : State}, (∀ i ∈ is, receiveFamily i = false) →
    issue is s = .next t → SameButOutput s t := by
  induction is with
  | nil =>
    intro s t _ h
    cases h
    exact SameButOutput.refl s
  | cons i is ih =>
    intro s t hi h
    obtain ⟨hhead, htail⟩ := List.forall_mem_cons.mp hi
    simp only [issue] at h
    split at h
    · exact (exec_sameButOutput hhead ‹_›).trans (ih htail h)
    · cases h
    · cases h

/-! The reads of the packet view -/

/-- The fields the reads of the packet view depend on: FRAME_CAP, the buffer and the view. -/
structure SameView (s t : State) : Prop where
  cfg : t.cfg = s.cfg
  byteAt : ∀ a, t.byteAt a = s.byteAt a
  flen : t.flen = s.flen
  pktValid : t.pktValid = s.pktValid

theorem SameButOutput.sameView {s t : State} (h : SameButOutput s t) : SameView s t := by
  unfold SameButOutput at h
  rw [h]
  exact ⟨rfl, fun _ => rfl, rfl, rfl⟩

theorem SameView.packetCmd {s t : State} (h : SameView s t) : t.packetCmd = s.packetCmd := by
  simp only [State.packetCmd, h.byteAt]

theorem SameView.packetArgc {s t : State} (h : SameView s t) : t.packetArgc = s.packetArgc := by
  simp only [State.packetArgc, h.byteAt]

theorem SameView.packetValue {s t : State} (h : SameView s t) : t.packetValue = s.packetValue := by
  simp only [State.packetValue, h.byteAt]

/-- What a read answers: EVT and RESULT, in any state with the same view. -/
def AnswersInView (f : State → Host.Outcome State Fault Refusal) (s u : State) : Prop :=
  ∃ e r, u = s.finish e r ∧ ∀ t, SameView s t → f t = .next (t.finish e r)

theorem finishRead_inView {n : Nat} {v : State → Word} {s u : State} (hv : ∀ t, SameView s t → v t = v s)
    (h : finishRead n (v s) s = .next u) : AnswersInView (fun t => finishRead n (v t) t) s u := by
  refine ⟨.ok, v s, finishRead_next h, fun t ht => ?_⟩
  have hheld : s.holds n = true := by
    by_contra hn
    simp [finishRead, hn] at h
  have heldToo : t.holds n = true := by simpa [State.holds, ht.cfg] using hheld
  simp [finishRead, heldToo, hv t ht]

theorem readField_inView {n : Nat} {v : State → Word} {s u : State} (hv : ∀ t, SameView s t → v t = v s)
    (h : readField n (v s) s = .next u) : AnswersInView (fun t => readField n (v t) t) s u := by
  by_cases hp : s.pktValid = true
  · simp only [readField, hp, if_true] at h
    obtain ⟨e, r, hu, hall⟩ := finishRead_inView hv h
    exact ⟨e, r, hu, fun t ht => by simpa [readField, ht.pktValid, hp] using hall t ht⟩
  · simp only [readField, hp] at h
    cases h
    exact ⟨_, _, rfl, fun t ht => by simp [readField, ht.pktValid, hp]⟩

theorem execRdbuf_inView {n : Half} {s u : State} (h : execRdbuf n s = .next u) : AnswersInView (execRdbuf n) s u := by
  by_cases hc : s.pktValid = true ∧ n.toNat < s.flen.toNat
  · simp only [execRdbuf, if_pos hc] at h
    obtain ⟨e, r, hu, hall⟩ :=
      finishRead_inView (v := fun t => (t.byteAt n.toNat).setWidth 32) (fun t ht => by simp only [ht.byteAt]) h
    refine ⟨e, r, hu, fun t ht => ?_⟩
    rw [execRdbuf, ht.pktValid, ht.flen, if_pos hc]
    exact hall t ht
  · simp only [execRdbuf, if_neg hc] at h
    cases h
    refine ⟨_, _, rfl, fun t ht => ?_⟩
    rw [execRdbuf, ht.pktValid, ht.flen, if_neg hc]

/-- The reads of the packet view (R201, R202). -/
def readsView (i : Instr) : Prop := (∃ n, i = .rdbuf n) ∨ i = .rdreg 4 ∨ i = .rdreg 5 ∨ i = .rdreg 6

/-- A read of the view answers the same wherever the view is the same (R54). -/
theorem exec_inView {i : Instr} {s u : State} (hi : readsView i) (h : exec i s = .next u) :
    AnswersInView (exec i) s u := by
  obtain ⟨n, rfl⟩ | rfl | rfl | rfl := hi
  · exact execRdbuf_inView h
  · exact readField_inView (v := fun t => t.packetCmd.setWidth 32) (fun t ht => by simp only [ht.packetCmd]) h
  · exact readField_inView (v := fun t => t.packetArgc.setWidth 32) (fun t ht => by simp only [ht.packetArgc]) h
  · exact readField_inView (v := State.packetValue) (fun t ht => ht.packetValue) h

/-- Settles O25: operations that do not receive leave the view, which is all the reads depend on. -/
theorem readsRepeatUntilReceive : Obligations.ReadsRepeatUntilReceive := by
  intro s t is his h
  have hview : SameView s t := (issue_sameButOutput his h).sameView
  refine ⟨hview.byteAt, fun i u hi hu => ?_⟩
  obtain ⟨e, r, rfl, hall⟩ := exec_inView hi hu
  exact ⟨t.finish e r, hall t hview, rfl, rfl⟩

end Sys2Proof.Machine
end

section
/-! The polls of a run: which answers a procedure took, that it takes the same ones and ends in the same state wherever
these are listed, and statements O49 and O50. -/

namespace Sys2Proof.Machine

/-! The peer put in place of another -/

/-- s with another peer behind the transport. -/
def State.withPeer (l : List (Option Byte)) (tl : Tail) (s : State) : State := { s with rx := ⟨l, tl⟩ }

@[simp] theorem State.withPeer_rx (l : List (Option Byte)) (tl : Tail) (s : State) :
    (s.withPeer l tl).rx = ⟨l, tl⟩ := rfl

@[simp] theorem State.withPeer_withPeer (l l' : List (Option Byte)) (tl tl' : Tail) (s : State) :
    (s.withPeer l tl).withPeer l' tl' = s.withPeer l' tl' := rfl

/-- A state that has the peer already. -/
theorem State.withPeer_of_rx {s t : State} (h : t.rx = s.rx) : t.withPeer s.rx.answers s.rx.tail = t := by
  rw [← h]
  rfl

theorem SameView.withPeer (l : List (Option Byte)) (tl : Tail) (s : State) : SameView s (s.withPeer l tl) :=
  ⟨rfl, fun _ => rfl, rfl, rfl⟩

/-- An update of the state that polls nothing, does not look at the peer, and may write to the transport. -/
structure Offline (f : State → State) : Prop where
  rx : ∀ s, (f s).rx = s.rx
  rxTaken : ∀ s, (f s).rxTaken = s.rxTaken
  txLog : ∀ s, s.txLog <+: (f s).txLog
  withPeer : ∀ l tl s, f (s.withPeer l tl) = (f s).withPeer l tl

theorem Offline.comp {f g : State → State} (hf : Offline f) (hg : Offline g) : Offline fun s => f (g s) where
  rx s := (hf.rx _).trans (hg.rx s)
  rxTaken s := (hf.rxTaken _).trans (hg.rxTaken s)
  txLog s := (hg.txLog s).trans (hf.txLog _)
  withPeer l tl s := by rw [hg.withPeer, hf.withPeer]

theorem Offline.finish (e : Event) (r : Word) : Offline (State.finish e r) :=
  ⟨fun _ => rfl, fun _ => rfl, fun _ => List.prefix_rfl, fun _ _ _ => rfl⟩

theorem Offline.invalidateView : Offline State.invalidateView :=
  ⟨fun _ => rfl, fun _ => rfl, fun _ => List.prefix_rfl, fun _ _ _ => rfl⟩

theorem Offline.clearFrame : Offline State.clearFrame :=
  ⟨fun _ => rfl, fun _ => rfl, fun _ => List.prefix_rfl, fun _ _ _ => rfl⟩

theorem Offline.beginSync : Offline State.beginSync :=
  ⟨fun _ => rfl, fun _ => rfl, fun _ => List.prefix_rfl, fun _ _ _ => rfl⟩

theorem Offline.endSync (ok : Bool) : Offline (State.endSync ok) :=
  ⟨fun _ => rfl, fun _ => rfl, fun _ => List.prefix_rfl, fun _ _ _ => rfl⟩

theorem Offline.txWrite (bs : List Byte) : Offline (State.txWrite bs) :=
  ⟨fun _ => rfl, fun _ => rfl, fun _ => List.prefix_append _ _, fun _ _ _ => rfl⟩

theorem Offline.sendMarker : Offline State.sendMarker := by
  rw [show State.sendMarker = State.txWrite syncMarker from funext State.sendMarker_eq]
  exact Offline.txWrite syncMarker

theorem Offline.sendSyncRequest : Offline State.sendSyncRequest where
  rx s := by rw [State.sendSyncRequest_eq]; rfl
  rxTaken s := by rw [State.sendSyncRequest_eq]; rfl
  txLog s := by rw [State.sendSyncRequest_eq]; exact List.prefix_append _ _
  withPeer l tl s := by rw [State.sendSyncRequest_eq, State.sendSyncRequest_eq]; rfl

theorem Offline.finishSync (ok : Bool) : Offline (finishSync ok) := by
  cases ok <;> exact Offline.finish _ _

theorem Offline.finishStep (r : ByteResult) : Offline (finishStep r) := by
  cases r <;> exact Offline.finish _ _

theorem Offline.finishTry (r : RecvResult) : Offline (finishTry r) := by
  cases r <;> exact Offline.finish _ _

theorem Offline.finishRecv (r : RecvResult) : Offline (finishRecv r) := by
  cases r <;> exact Offline.finish _ _

/-! The operations outside the receive family do not look at the peer -/

theorem AnswersInView.withPeer {f : State → Host.Outcome State Fault Refusal} {s u : State} (h : AnswersInView f s u)
    (l : List (Option Byte)) (tl : Tail) : f (s.withPeer l tl) = .next (u.withPeer l tl) := by
  obtain ⟨e, r, rfl, hall⟩ := h
  exact hall _ (SameView.withPeer l tl s)

theorem execRdreg_withPeer {n : Half} {s t : State} (h : execRdreg n s = .next t) (l : List (Option Byte))
    (tl : Tail) : execRdreg n (s.withPeer l tl) = .next (t.withPeer l tl) := by
  unfold execRdreg at h ⊢
  split at h
  · rename_i reg _
    cases reg
    case pktCmd =>
      exact
        (readField_inView (v := fun t => t.packetCmd.setWidth 32) (fun t ht => by rw [ht.packetCmd]) h).withPeer l tl
    case pktArgc =>
      exact
        (readField_inView (v := fun t => t.packetArgc.setWidth 32) (fun t ht => by rw [ht.packetArgc]) h).withPeer l tl
    case pktValue =>
      exact (readField_inView (v := State.packetValue) (fun t ht => ht.packetValue) h).withPeer l tl
    all_goals cases h; rfl
  · cases h; rfl

theorem exec_withPeer {i : Instr} {s t : State} (hi : receiveFamily i = false) (h : exec i s = .next t)
    (l : List (Option Byte)) (tl : Tail) : exec i (s.withPeer l tl) = .next (t.withPeer l tl) := by
  cases i with
  | nop | crcClr | crcAdd _ | enc _ | txEnd | txBegin | txByte _ | txFinal => cases h; rfl
  | txPad n => cases h; simp only [exec, execTxPad, State.sendPads_eq]; rfl
  | rdreg n => exact execRdreg_withPeer h l tl
  | rdbuf n => exact (execRdbuf_inView h).withPeer l tl
  | rxStep | tryRecv | recv _ | rxFlush | sync => cases hi

theorem exec_txLog_prefix {i : Instr} {s t : State} (hi : receiveFamily i = false) (h : exec i s = .next t) :
    s.txLog <+: t.txLog := by
  cases i with
  | nop | crcClr | crcAdd _  => cases h; exact List.prefix_rfl
  | enc _ | txEnd | txBegin | txByte _ => cases h; exact List.prefix_append _ _
  | txFinal => cases h; simp [State.closeFrame_eq]
  | txPad n => cases h; simp [State.sendPads_eq]
  | rdreg n => obtain ⟨e, r, rfl⟩ := execRdreg_next h; exact List.prefix_rfl
  | rdbuf n => obtain ⟨e, r, rfl⟩ := execRdbuf_next h; exact List.prefix_rfl
  | rxStep | tryRecv | recv _ | rxFlush | sync => cases hi

/-! The transport over a run -/

/-- From s to t the block only wrote to the transport, and its polls took the answers `taken`, of those listed in s and
then of those drawn (R57, R58; logs 3 and 5). -/
structure Traffic (s t : State) (drawn taken : List (Option Byte)) : Prop where
  sent : s.txLog <+: t.txLog
  order : s.rx.answers ++ drawn = taken ++ t.rx.answers
  drew : drewOn s t drawn
  count : t.rxTaken = s.rxTaken + (taken.filter Option.isSome).length

theorem drewOn.refl {s t : State} (h : t.rx = s.rx) : drewOn s t [] := by
  simp [drewOn, h]

theorem Traffic.of_noPoll {s t : State} (hsent : s.txLog <+: t.txLog) (hrx : t.rx = s.rx)
    (htaken : t.rxTaken = s.rxTaken) : Traffic s t [] [] :=
  ⟨hsent, by simp [hrx], drewOn.refl hrx, by simp [htaken]⟩

theorem Offline.traffic {f : State → State} (hf : Offline f) (s : State) : Traffic s (f s) [] [] :=
  Traffic.of_noPoll (hf.txLog s) (hf.rx s) (hf.rxTaken s)

/-- No run lists answers where none were listed. -/
theorem Traffic.answers_eq_nil {s t : State} {drawn taken : List (Option Byte)} (h : Traffic s t drawn taken)
    (hs : s.rx.answers = []) : t.rx.answers = [] := by
  by_cases hd : drawn = []
  · have horder := h.order
    simp only [hs, hd, List.append_nil] at horder
    exact (List.append_eq_nil_iff.mp horder.symm).2
  · exact h.drew.1 hd

theorem drewOn.trans {s t u : State} {d₁ d₂ : List (Option Byte)} (h₁ : drewOn s t d₁) (h₂ : drewOn t u d₂)
    (hnil : t.rx.answers = [] → u.rx.answers = []) : drewOn s u (d₁ ++ d₂) := by
  obtain ⟨left₁, silent₁, unlisted₁, endless₁⟩ := h₁
  obtain ⟨left₂, silent₂, unlisted₂, endless₂⟩ := h₂
  refine ⟨fun hd => ?_, fun hs => ?_, fun k hs => ?_, fun k hs => ?_⟩
  · by_cases hd₂ : d₂ = []
    · exact hnil (left₁ (by simpa [hd₂] using hd))
    · exact left₂ hd₂
  · obtain ⟨ht, hnone₁⟩ := silent₁ hs
    obtain ⟨hu, hnone₂⟩ := silent₂ ht
    exact ⟨hu, fun a ha => (List.mem_append.mp ha).elim (hnone₁ a) (hnone₂ a)⟩
  · rw [unlisted₂ _ (unlisted₁ k hs), List.length_append, Nat.add_assoc]
  · obtain ⟨ht, hsome₁⟩ := endless₁ k hs
    obtain ⟨hu, hsome₂⟩ := endless₂ _ ht
    refine ⟨?_, fun a ha => (List.mem_append.mp ha).elim (hsome₁ a) (hsome₂ a)⟩
    rw [hu, List.length_append, Nat.add_assoc]

theorem Traffic.trans {s t u : State} {d₁ k₁ d₂ k₂ : List (Option Byte)} (h₁ : Traffic s t d₁ k₁)
    (h₂ : Traffic t u d₂ k₂) : Traffic s u (d₁ ++ d₂) (k₁ ++ k₂) where
  sent := h₁.sent.trans h₂.sent
  order := by rw [← List.append_assoc, h₁.order, List.append_assoc, h₂.order, List.append_assoc]
  drew := h₁.drew.trans h₂.drew h₂.answers_eq_nil
  count := by rw [h₂.count, h₁.count, List.filter_append, List.length_append, Nat.add_assoc]

/-- Each poll takes an answer off the list while there is one. -/
theorem Traffic.length_le {s t : State} {drawn taken : List (Option Byte)} (h : Traffic s t drawn taken) :
    t.rx.answers.length ≤ s.rx.answers.length - taken.length := by
  by_cases hd : drawn = []
  · have hlen := congrArg List.length h.order
    simp only [hd, List.append_nil, List.length_append] at hlen
    omega
  · simp [h.drew.1 hd]

/-- A run that leaves the tail drew nothing, or only a silent peer's `none`: all it consumed was listed. -/
theorem Traffic.listed {s t : State} {drawn taken : List (Option Byte)} (h : Traffic s t drawn taken)
    (htail : t.rx.tail = s.rx.tail) :
    ∃ l, s.rx.answers = l ++ t.rx.answers ∧ t.rxTaken = s.rxTaken + (l.filter Option.isSome).length := by
  obtain ⟨left, silent, unlisted, endless⟩ := h.drew
  by_cases hd : drawn = []
  · exact ⟨taken, by simpa [hd] using h.order, h.count⟩
  · have hpos : 0 < drawn.length := List.length_pos_iff.mpr hd
    cases hs : s.rx.tail with
    | silent =>
      obtain ⟨-, hnone⟩ := silent hs
      have hfilter : drawn.filter Option.isSome = [] :=
        List.filter_eq_nil_iff.mpr fun a ha => by simp [hnone a ha]
      have htaken : s.rx.answers ++ drawn = taken := by simpa [left hd] using h.order
      exact ⟨s.rx.answers, by simp [left hd], by rw [h.count, ← htaken, List.filter_append, hfilter, List.append_nil]⟩
    | unlisted k =>
      have := unlisted k hs
      rw [htail, hs, Tail.unlisted.injEq] at this
      omega
    | endless k =>
      obtain ⟨this, -⟩ := endless k hs
      rw [htail, hs, Tail.endless.injEq] at this
      omega

/-! Runs that their answers determine -/

/-- The run of a procedure from s to t, by the answers it took: with these listed, whatever follows them, it ends in the
same state and leaves what follows (R57, R59). -/
def Replays {α : Type} (p : State → Proc α) (s : State) (taken : List (Option Byte)) (a : α) (t : State) : Prop :=
  ∀ rest tail, p (s.withPeer (taken ++ rest) tail) = .ends a (t.withPeer rest tail)

/-- Every run of the procedure that ends is determined by the answers it took. -/
def Traced {α : Type} (p : State → Proc α) : Prop :=
  ∀ s a t, p s = .ends a t → ∃ drawn taken, Traffic s t drawn taken ∧ Replays p s taken a t

theorem Offline.traced {α : Type} {f : State → State} (hf : Offline f) (a : α) : Traced fun s => .ends a (f s) := by
  intro s b t h
  cases h
  exact ⟨[], [], hf.traffic s, fun rest tail => by simp [hf.withPeer]⟩

theorem traced_ends {α : Type} (a : α) : Traced fun s => .ends a s :=
  Offline.traced (f := id) ⟨fun _ => rfl, fun _ => rfl, fun _ => List.prefix_rfl, fun _ _ _ => rfl⟩ a

theorem Traced.andThen {α β : Type} {p : State → Proc α} {k : α → State → Proc β} (hp : Traced p)
    (hk : ∀ a, Traced (k a)) : Traced fun s => (p s).andThen k := by
  intro s b u h
  obtain ⟨a, t, hpt, hku⟩ := Proc.andThen_eq_ends.mp h
  obtain ⟨d₁, k₁, traffic₁, replay₁⟩ := hp s a t hpt
  obtain ⟨d₂, k₂, traffic₂, replay₂⟩ := hk a t b u hku
  refine ⟨d₁ ++ d₂, k₁ ++ k₂, traffic₁.trans traffic₂, fun rest tail => ?_⟩
  dsimp only
  rw [List.append_assoc, replay₁, Proc.andThen_ends, replay₂]

theorem Traced.after {α : Type} {p : State → Proc α} {f : State → State} (hp : Traced p) (hf : Offline f) :
    Traced fun s => p (f s) :=
  (Offline.traced hf ()).andThen fun _ => hp

/-! One poll -/

theorem State.rxPoll_listed {s : State} {a : Option Byte} {rest : List (Option Byte)} (h : s.rx.answers = a :: rest) :
    s.rxPoll = (a, s.polled rest a.toList.length) := by
  cases a with
  | none => exact State.rxPoll_none h
  | some b => exact State.rxPoll_some h

/-- A poll as a procedure. -/
def poll (s : State) : Proc (Option Byte) := .ends s.rxPoll.1 s.rxPoll.2

/-- A poll takes one answer, and the same one where it is listed (R57). -/
theorem rxPoll_trace {s t : State} {a : Option Byte} (h : s.rxPoll = (a, t)) :
    (∃ drawn, Traffic s t drawn [a]) ∧
      ∀ rest tail, (s.withPeer (a :: rest) tail).rxPoll = (a, t.withPeer rest tail) := by
  have hcount : ([a].filter Option.isSome).length = a.toList.length := by cases a <;> rfl
  obtain ⟨a', rest, hl, e⟩ | ⟨hs, e⟩ | ⟨k, a', hu, e⟩ | ⟨k, b, he, e⟩ := s.rxPoll_cases <;> rw [e] at h <;> cases h
  · refine ⟨⟨[], ⟨List.prefix_rfl, by simp [hl], ?_, by rw [hcount]; rfl⟩⟩, fun _ _ => State.rxPoll_listed rfl⟩
    simp [drewOn]
  · refine ⟨⟨[none], ⟨List.prefix_rfl, by simp [hs], ?_, rfl⟩⟩, fun _ _ => State.rxPoll_listed rfl⟩
    simp [drewOn, hs]
  · refine ⟨⟨[a], ⟨List.prefix_rfl, by simp [hu], ?_, by rw [hcount]; rfl⟩⟩, fun _ _ => State.rxPoll_listed rfl⟩
    simp [drewOn, hu]
  · refine ⟨⟨[some b], ⟨List.prefix_rfl, by simp [he], ?_, rfl⟩⟩, fun _ _ => State.rxPoll_listed rfl⟩
    simp [drewOn, he]

theorem poll_traced : Traced poll := by
  intro s a t h
  have hpoll : s.rxPoll = (a, t) := by simpa [poll, Prod.ext_iff] using h
  obtain ⟨⟨drawn, htraffic⟩, hreplay⟩ := rxPoll_trace hpoll
  exact ⟨drawn, [a], htraffic, fun rest tail => by simp only [List.singleton_append, poll, hreplay]⟩

/-- The gap after the listed answers is n polls that find none (log 4). -/
theorem rxGap_trace {s t : State} {n : Nat} (hs : s.rx.answers = []) (h : s.rxGap n = some t) :
    Traffic s t (List.replicate n none) (List.replicate n none) ∧ ∀ l tl, t.withPeer l tl = s.withPeer l tl := by
  have hnone : (List.replicate n none : List (Option Byte)).filter Option.isSome = [] :=
    List.filter_eq_nil_iff.mpr fun a ha => by simp [List.eq_of_mem_replicate ha]
  obtain ⟨ht, rfl⟩ | ⟨k, hk, rfl⟩ := State.rxGap_eq_some.mp h
  · refine ⟨⟨List.prefix_rfl, by simp [hs], ?_, by simp [hnone]⟩, fun _ _ => rfl⟩
    simp [drewOn, hs, ht]
  · refine ⟨⟨List.prefix_rfl, by simp [hs], ?_, by simp [hnone]⟩, fun _ _ => rfl⟩
    simp [drewOn, hk]

/-! One wire byte -/

theorem State.byteIn_withPeer (v : Byte) (l : List (Option Byte)) (tl : Tail) (s : State) :
    (s.withPeer l tl).byteIn v = (s.byteIn v).withPeer l tl := by
  simp only [State.byteIn, apply_ite (State.withPeer l tl)]
  rfl

theorem State.frameEnd_withPeer (l : List (Option Byte)) (tl : Tail) (s : State) :
    (s.withPeer l tl).frameEnd = (s.frameEnd.1, s.frameEnd.2.withPeer l tl) := by
  simp only [State.frameEnd, State.judgeFrame, State.validate, State.dropFrame, apply_ite Prod.fst,
    apply_ite Prod.snd, apply_ite State.clearFrame, apply_ite (State.withPeer l tl)]
  rfl

/-- What decoding, assembling and validating leave alone: the fields of `SameOutside`, the peer and the count of its
bytes; and the bound of IDX. -/
structure Decoded (s t : State) : Prop extends SameOutside s t where
  rx : t.rx = s.rx
  rxTaken : t.rxTaken = s.rxTaken
  idxBound : s.idx.toNat ≤ s.cfg.cap → t.idx.toNat ≤ t.cfg.cap

/-- The result of `TryReceive` where a byte's result ends its loop (R158). -/
def ByteResult.endsLoop : ByteResult → Option RecvResult
  | .byte | .empty | .dropped => none
  | .packet => some .packet
  | .synced ok => some (.synced ok)

theorem Decoded.trans {s t u : State} (h : Decoded s t) (h' : Decoded t u) : Decoded s u :=
  ⟨h.toSameOutside.trans h'.toSameOutside, h'.rx.trans h.rx, h'.rxTaken.trans h.rxTaken,
    fun hs => h'.idxBound (h.idxBound hs)⟩

theorem Decoded.setEsc (e : Bool) (s : State) : Decoded s (s.setEsc e) :=
  ⟨by constructor <;> rfl, rfl, rfl, id⟩

theorem Decoded.byteIn (v : Byte) (s : State) : Decoded s (s.byteIn v) := by
  refine ⟨SameOutside.byteIn v s, ?_, ?_, ?_⟩ <;>
    obtain ⟨-, e⟩ | ⟨-, hlt, e⟩ | ⟨-, -, e⟩ := s.byteIn_cases v <;> rw [e]
  case refine_3.inr.inl =>
    intro _
    rw [State.store_idx_toNat hlt]
    exact hlt
  case refine_3.inl | refine_3.inr.inr => exact id
  all_goals rfl

theorem Decoded.frameEnd (s : State) : Decoded s s.frameEnd.2 := by
  refine ⟨SameOutside.frameEnd s, s.frameEnd_rx.1, ?_, ?_⟩ <;>
    obtain ⟨-, e⟩ | ⟨-, -, e⟩ | ⟨-, -, -, e⟩ | ⟨-, -, -, e⟩ | ⟨-, -, -, e⟩ := s.frameEnd_cases <;> simp [e]

theorem Decoded.traffic {s t : State} (h : Decoded s t) : Traffic s t [] [] :=
  Traffic.of_noPoll (h.txLog ▸ List.prefix_rfl) h.rx h.rxTaken

/-- What becomes of a wire byte as p takes it: it is reported, it hands a packet to the hook, or it stops the machine
past FRAME_CAP; and the first two are the same with any other peer. -/
def ByteOutcome (p hook : State → Proc ByteResult) (s : State) : Prop :=
  (∃ r t, r.endsLoop = none ∧ Decoded s t ∧ p s = .ends r t ∧
    ∀ l tl, p (s.withPeer l tl) = .ends r (t.withPeer l tl)) ∨
  (∃ u, Decoded s u ∧ p s = hook u ∧ ∀ l tl, p (s.withPeer l tl) = hook (u.withPeer l tl)) ∨
  (s.cfg.cap < s.idx.toNat ∧ p s = .stops .noSuchBufferByte)

theorem ByteOutcome.reported {p hook : State → Proc ByteResult} {s t : State} {r : ByteResult}
    (hr : r.endsLoop = none) (ht : Decoded s t) (h : ∀ l tl, p (s.withPeer l tl) = .ends r (t.withPeer l tl)) :
    ByteOutcome p hook s :=
  .inl ⟨r, t, hr, ht, (h s.rx.answers s.rx.tail).trans (by rw [State.withPeer_of_rx ht.rx]), h⟩

theorem ByteOutcome.handedOver {p hook : State → Proc ByteResult} {s u : State} (hu : Decoded s u)
    (h : ∀ l tl, p (s.withPeer l tl) = hook (u.withPeer l tl)) : ByteOutcome p hook s :=
  .inr (.inl ⟨u, hu, (h s.rx.answers s.rx.tail).trans (by rw [State.withPeer_of_rx hu.rx]), h⟩)

theorem rxBoundary_outcome (hook : State → Proc ByteResult) (s : State) : ByteOutcome (rxBoundary hook) hook s := by
  by_cases hc : (s.ovf || s.holds s.idx.toNat) = true
  · have hframe (l : List (Option Byte)) (tl : Tail) :
        rxBoundary hook (s.withPeer l tl) =
          match (s.frameEnd.1, s.frameEnd.2.withPeer l tl) with
          | (.packet, t) => hook t
          | (.dropped, t) => .ends .dropped t
          | (.empty, t) => .ends .empty t := by
      rw [← State.frameEnd_withPeer]
      exact if_pos hc
    have hdecoded := Decoded.frameEnd s
    rcases hf : s.frameEnd with ⟨o, u⟩
    simp only [hf] at hdecoded hframe
    cases o with
    | packet => exact .handedOver hdecoded hframe
    | dropped => exact .reported rfl hdecoded hframe
    | empty => exact .reported rfl hdecoded hframe
  · have hpast : s.cfg.cap < s.idx.toNat := by
      simp only [Bool.or_eq_true, not_or, State.holds, decide_eq_true_eq, not_le] at hc
      exact hc.2
    exact .inr (.inr ⟨hpast, if_neg hc⟩)

theorem rxByte_outcome (hook : State → Proc ByteResult) (b : Byte) (s : State) :
    ByteOutcome (rxByte hook b) hook s := by
  have hclear := Decoded.setEsc false s
  by_cases hend : b = slipEnd
  · have hb (u : State) : rxByte hook b u = rxBoundary hook (u.setEsc false) := by rw [hend, rxByte_end]
    obtain ⟨r, t, hr, ht, -, h⟩ | ⟨u, hu, -, h⟩ | ⟨hpast, h⟩ := rxBoundary_outcome hook (s.setEsc false)
    · exact .reported hr (hclear.trans ht) fun l tl => (hb _).trans (h l tl)
    · exact .handedOver (hclear.trans hu) fun l tl => (hb _).trans (h l tl)
    · exact .inr (.inr ⟨hpast, (hb s).trans h⟩)
  · by_cases hesc : b = slipEsc
    · subst hesc
      exact .reported (r := .byte) rfl (Decoded.setEsc true s) fun l tl => rxByte_esc hook _
    · have hstored := Decoded.byteIn (if s.esc then unescape b else b) (s.setEsc false)
      refine .reported (r := .byte) rfl (hclear.trans hstored) fun l tl => ?_
      rw [rxByte_data hook hend hesc, ← State.byteIn_withPeer]
      rfl

theorem rxByte_traced {hook : State → Proc ByteResult} (hh : Traced hook) (b : Byte) : Traced (rxByte hook b) := by
  intro s r t h
  obtain ⟨r', t', -, ht, hs, hall⟩ | ⟨u, hu, hs, hall⟩ | ⟨-, hs⟩ := rxByte_outcome hook b s <;> rw [hs] at h
  · cases h
    exact ⟨[], [], ht.traffic, hall⟩
  · obtain ⟨drawn, taken, htraffic, hreplay⟩ := hh u r t h
    exact ⟨drawn, taken, hu.traffic.trans htraffic, fun rest tail => by rw [hall, hreplay]⟩
  · cases h

/-! The loops: any number of rounds that the answers they take allow for gives the same run -/

/-- One round of the loop of `TryReceive` after a byte is found (R158). -/
theorem drain_succ_some {hook : State → Proc ByteResult} {n : Nat} {s t : State} {b : Byte}
    (h : s.rxPoll = (some b, t)) :
    drain hook (n + 1) s =
      (rxByte hook b t).andThen fun r u => match r.endsLoop with
        | none => drain hook n u
        | some q => .ends q u := by
  simp only [drain, h]
  rcases rxByte hook b t with ⟨r, u⟩ | r
  · cases r <;> rfl
  · rfl

theorem drain_succ_none {hook : State → Proc ByteResult} {n : Nat} {s t : State} (h : s.rxPoll = (none, t)) :
    drain hook (n + 1) s = .ends .nopacket t := by
  simp only [drain, h]

theorem drain_trace {hook : State → Proc ByteResult} (hh : Traced hook) :
    ∀ {n : Nat} {s t : State} {r : RecvResult}, s.rx.answers.length ≤ n → drain hook n s = .ends r t →
      ∃ drawn taken, Traffic s t drawn taken ∧ ∀ m, taken.length ≤ m → Replays (drain hook m) s taken r t := by
  intro n
  induction n with
  | zero =>
    intro s t r hn h
    simp only [drain] at h
    split at h
    · cases h
    · cases h
      obtain ⟨htraffic, hback⟩ := rxGap_trace (List.length_eq_zero_iff.mp (Nat.le_zero.mp hn)) ‹_›
      refine ⟨[none], [none], htraffic, fun m hm rest tail => ?_⟩
      obtain ⟨m, rfl⟩ := Nat.exists_eq_add_of_le' hm
      rw [hback]
      exact drain_succ_none (State.rxPoll_listed rfl)
  | succ n ih =>
    intro s t r hn h
    rcases hp : s.rxPoll with ⟨a, u⟩
    obtain ⟨⟨d₁, polled⟩, hpoll⟩ := rxPoll_trace hp
    cases a with
    | none =>
      rw [drain_succ_none hp] at h
      cases h
      refine ⟨d₁, [none], polled, fun m hm rest tail => ?_⟩
      obtain ⟨m, rfl⟩ := Nat.exists_eq_add_of_le' hm
      exact drain_succ_none (hpoll rest tail)
    | some b =>
      rw [drain_succ_some hp] at h
      obtain ⟨q, v, hb, h⟩ := Proc.andThen_eq_ends.mp h
      obtain ⟨d₂, k₂, decoded, hbyte⟩ := rxByte_traced hh b u q v hb
      have hround := polled.trans decoded
      cases hq : q.endsLoop with
      | some q' =>
        simp only [hq] at h
        cases h
        refine ⟨_, _, hround, fun m hm rest tail => ?_⟩
        obtain ⟨m, rfl⟩ : ∃ m', m = m' + 1 := ⟨m - 1, by simp at hm; omega⟩
        rw [List.append_assoc, List.singleton_append, drain_succ_some (hpoll _ tail), hbyte]
        simp [hq]
      | none =>
        simp only [hq] at h
        have hlen := hround.length_le
        obtain ⟨d₃, k₃, drained, hloop⟩ := ih (by simp at hlen; omega) h
        refine ⟨_, _, hround.trans drained, fun m hm rest tail => ?_⟩
        obtain ⟨m, rfl⟩ : ∃ m', m = m' + 1 := ⟨m - 1, by simp at hm; omega⟩
        rw [List.append_assoc, List.append_assoc, List.singleton_append, drain_succ_some (hpoll _ tail), hbyte]
        simp only [Proc.andThen_ends, hq]
        exact hloop m (by simp at hm; omega) rest tail

/-- The poll budget of a state with the answers listed reaches past them. -/
theorem length_le_pollBudget_withPeer (taken rest : List (Option Byte)) (tail : Tail) (s : State) :
    taken.length ≤ (s.withPeer (taken ++ rest) tail).pollBudget := by
  refine le_trans ?_ (State.length_le_pollBudget _)
  simp

theorem tryReceive_traced {hook : State → Proc ByteResult} (hh : Traced hook) : Traced (tryReceive hook) := by
  intro s r t h
  obtain ⟨drawn, taken, htraffic, hreplay⟩ := drain_trace hh s.length_le_pollBudget h
  exact ⟨drawn, taken, htraffic, fun rest tail =>
    hreplay _ (length_le_pollBudget_withPeer taken rest tail s) rest tail⟩

/-- One iteration of `Receive` (R159). -/
theorem receive_succ_eq (hook : State → Proc ByteResult) (n : Nat) :
    receive hook (n + 1) = fun s => (tryReceive hook s).andThen fun r t => match r with
      | .packet => .ends .packet t
      | .nopacket | .synced _ => receive hook n t := by
  funext s
  rw [receive_succ]
  rcases tryReceive hook s with ⟨r, t⟩ | r
  · cases r <;> rfl
  · rfl

theorem receive_traced {hook : State → Proc ByteResult} (hh : Traced hook) (n : Nat) : Traced (receive hook n) := by
  induction n with
  | zero =>
    rw [show receive hook 0 = fun s => .ends .nopacket s from funext (receive_zero hook)]
    exact traced_ends _
  | succ n ih =>
    rw [receive_succ_eq]
    refine (tryReceive_traced hh).andThen fun r => ?_
    cases r with
    | packet => exact traced_ends _
    | nopacket => exact ih
    | synced ok => exact ih

theorem discardLoop_succ_none {k n : Nat} {s t : State} (h : s.rxPoll = (none, t)) :
    discardLoop (k + 1) n s = .ends n t := by
  simp only [discardLoop, h]

theorem discardLoop_succ_some {k n : Nat} {s t : State} {b : Byte} (h : s.rxPoll = (some b, t)) :
    discardLoop (k + 1) n s = discardLoop k (n + 1) t := by
  simp only [discardLoop, h]

theorem discardLoop_trace : ∀ {k n : Nat} {s t : State} {c : Nat}, s.rx.answers.length ≤ k →
    discardLoop k n s = .ends c t →
      ∃ drawn taken, Traffic s t drawn taken ∧ ∀ m, taken.length ≤ m → Replays (discardLoop m n) s taken c t := by
  intro k
  induction k with
  | zero =>
    intro n s t c hk h
    simp only [discardLoop] at h
    split at h
    · cases h
    · cases h
      obtain ⟨htraffic, hback⟩ := rxGap_trace (List.length_eq_zero_iff.mp (Nat.le_zero.mp hk)) ‹_›
      refine ⟨[none], [none], htraffic, fun m hm rest tail => ?_⟩
      obtain ⟨m, rfl⟩ := Nat.exists_eq_add_of_le' hm
      rw [hback]
      exact discardLoop_succ_none (State.rxPoll_listed rfl)
  | succ k ih =>
    intro n s t c hk h
    rcases hp : s.rxPoll with ⟨a, u⟩
    obtain ⟨⟨d₁, polled⟩, hpoll⟩ := rxPoll_trace hp
    cases a with
    | none =>
      rw [discardLoop_succ_none hp] at h
      cases h
      refine ⟨d₁, [none], polled, fun m hm rest tail => ?_⟩
      obtain ⟨m, rfl⟩ := Nat.exists_eq_add_of_le' hm
      exact discardLoop_succ_none (hpoll rest tail)
    | some b =>
      rw [discardLoop_succ_some hp] at h
      have hlen := polled.length_le
      obtain ⟨d₂, k₂, discarded, hloop⟩ := ih (by simp at hlen; omega) h
      refine ⟨_, _, polled.trans discarded, fun m hm rest tail => ?_⟩
      obtain ⟨m, rfl⟩ : ∃ m', m = m' + 1 := ⟨m - 1, by simp at hm; omega⟩
      rw [List.append_assoc, List.singleton_append, discardLoop_succ_some (hpoll _ tail)]
      exact hloop m (by simp at hm; omega) rest tail

theorem discard_traced : Traced discard := by
  refine Traced.andThen (p := fun s => discardLoop s.pollBudget 0 s) (fun s c t h => ?_)
    fun n => Offline.clearFrame.traced n
  obtain ⟨drawn, taken, htraffic, hreplay⟩ := discardLoop_trace s.length_le_pollBudget h
  exact ⟨drawn, taken, htraffic, fun rest tail =>
    hreplay _ (length_le_pollBudget_withPeer taken rest tail s) rest tail⟩

/-! The synchronisation controller -/

theorem surface_traced : Traced surface := traced_ends _

/-- A packet takes a poll: with nothing to take the receive yields none. -/
theorem taken_ne_nil_of_packet {hook : State → Proc ByteResult} {n : Nat} {s t : State} {taken : List (Option Byte)}
    (h : Replays (receive hook n) s taken .packet t) : taken ≠ [] := by
  rintro rfl
  have hquiet : receive hook n (s.withPeer [] .silent) = .ends .nopacket (s.withPeer [] .silent) := by
    rw [receive_eq_receiveLoop]
    exact receiveLoop_quiet rfl n
  have hpacket := h [] .silent
  rw [List.append_nil, hquiet] at hpacket
  cases hpacket

/-- A receive that finds no byte in each of its iterations (R159). -/
theorem receive_gaps (hook : State → Proc ByteResult) (n : Nat) (s : State) (rest : List (Option Byte)) (tail : Tail) :
    receive hook n (s.withPeer (List.replicate n none ++ rest) tail) = .ends .nopacket (s.withPeer rest tail) := by
  induction n with
  | zero => exact receive_zero hook _
  | succ n ih =>
    rw [receive_succ, tryReceive_none hook (rest := List.replicate n none ++ rest) rfl]
    exact ih

/-- One receive of the sync wait (R181). -/
theorem syncWait_succ (k : Nat) (s : State) :
    syncWait (k + 1) s =
      (receive surface s.cfg.syncRxTimeout.toNat s).andThen fun r t => match r with
        | .packet => if t.packetCmd = t.cfg.versionCmd then .ends true t else syncWait k t.invalidateView
        | .nopacket | .synced _ => .ends false t := by
  rw [syncWait]
  rcases receive surface s.cfg.syncRxTimeout.toNat s with ⟨r, t⟩ | r
  · cases r <;> rfl
  · rfl

theorem syncWait_trace : ∀ {k : Nat} {s t : State} {ok : Bool}, s.rx.answers.length ≤ k → syncWait k s = .ends ok t →
    ∃ drawn taken, Traffic s t drawn taken ∧ ∀ m, taken.length < m → Replays (syncWait m) s taken ok t := by
  intro k
  induction k with
  | zero =>
    intro s t ok hk h
    simp only [syncWait] at h
    split at h
    · cases h
    · cases h
      obtain ⟨htraffic, hback⟩ := rxGap_trace (List.length_eq_zero_iff.mp (Nat.le_zero.mp hk)) ‹_›
      refine ⟨_, _, htraffic, fun m hm rest tail => ?_⟩
      obtain ⟨m, rfl⟩ : ∃ m', m = m' + 1 := ⟨m - 1, by omega⟩
      rw [syncWait_succ, hback]
      exact congrArg (Proc.andThen · _) (receive_gaps surface _ s rest tail)
  | succ k ih =>
    intro s t ok hk h
    rw [syncWait_succ] at h
    obtain ⟨r, u, hr, h⟩ := Proc.andThen_eq_ends.mp h
    obtain ⟨d₁, k₁, received, hreceive⟩ := receive_traced surface_traced _ s r u hr
    have hround (m : Nat) (l : List (Option Byte)) (tail : Tail) :
        syncWait (m + 1) (s.withPeer (k₁ ++ l) tail) = _ :=
      (syncWait_succ m _).trans (congrArg (Proc.andThen · _) (hreceive l tail))
    cases r with
    | packet =>
      have hpos : 0 < k₁.length := List.length_pos_iff.mpr (taken_ne_nil_of_packet hreceive)
      by_cases hv : u.packetCmd = u.cfg.versionCmd
      · simp only [hv, if_true] at h
        cases h
        refine ⟨d₁, k₁, received, fun m hm rest tail => ?_⟩
        obtain ⟨m, rfl⟩ : ∃ m', m = m' + 1 := ⟨m - 1, by omega⟩
        exact (hround m rest tail).trans (if_pos hv)
      · simp only [hv, if_false] at h
        have hlen := received.length_le
        obtain ⟨d₂, k₂, waited, hwait⟩ := ih (by simp; omega) h
        refine ⟨_, _, (received.trans (Offline.invalidateView.traffic u)).trans waited, fun m hm rest tail => ?_⟩
        simp only [List.append_nil, List.length_append] at hm
        obtain ⟨m, rfl⟩ : ∃ m', m = m' + 1 := ⟨m - 1, by omega⟩
        rw [List.append_nil, List.append_assoc]
        exact ((hround m _ tail).trans (if_neg hv)).trans (hwait m (by omega) rest tail)
    | nopacket | synced _ =>
      cases h
      refine ⟨d₁, k₁, received, fun m hm rest tail => ?_⟩
      obtain ⟨m, rfl⟩ : ∃ m', m = m' + 1 := ⟨m - 1, by omega⟩
      exact hround m rest tail

/-- The wait with the bound that the procedure gives it (R181; log 14). -/
theorem syncWait_traced : Traced fun s => syncWait (s.pollBudget + 1) s := by
  intro s ok t h
  obtain ⟨drawn, taken, htraffic, hreplay⟩ := syncWait_trace (Nat.le_succ_of_le s.length_le_pollBudget) h
  exact ⟨drawn, taken, htraffic, fun rest tail =>
    hreplay _ (Nat.lt_succ_of_le (length_le_pollBudget_withPeer taken rest tail s)) rest tail⟩

theorem State.sendSyncRequest_pollBudget (s : State) : s.sendSyncRequest.pollBudget = s.pollBudget := by
  rw [State.sendSyncRequest_eq]
  rfl

theorem syncProc_traced : Traced syncProc := by
  refine (discard_traced.after (Offline.sendMarker.comp Offline.beginSync)).andThen fun _ => ?_
  refine (discard_traced.after (Offline.txWrite [slipEnd])).andThen fun _ => ?_
  have hwait : Traced fun s => syncWait (s.pollBudget + 1) s.sendSyncRequest := by
    simpa only [State.sendSyncRequest_pollBudget] using syncWait_traced.after Offline.sendSyncRequest
  refine hwait.andThen fun ok => ?_
  exact ((Offline.endSync ok).comp Offline.invalidateView).traced ok

theorem intercept_traced : Traced intercept := by
  intro s r t h
  by_cases hc : s.packetCmd = s.cfg.syncCmd ∧ s.syncing = false
  · have hproc :
        Traced fun u : State => (syncProc u.invalidateView).andThen fun ok t => .ends (ByteResult.synced ok) t :=
      (syncProc_traced.after Offline.invalidateView).andThen fun ok => traced_ends _
    rw [intercept, if_pos hc] at h
    obtain ⟨drawn, taken, htraffic, hreplay⟩ := hproc s r t h
    exact ⟨drawn, taken, htraffic, fun rest tail => (if_pos hc).trans (hreplay rest tail)⟩
  · rw [intercept, if_neg hc] at h
    obtain ⟨drawn, taken, htraffic, hreplay⟩ := traced_ends _ s r t h
    exact ⟨drawn, taken, htraffic, fun rest tail => (if_neg hc).trans (hreplay rest tail)⟩

/-! Every operation -/

/-- Every run of the operation that completes is determined by the answers it took. -/
def OperationTraced (f : State → Host.Outcome State Fault Refusal) : Prop :=
  ∀ s t, f s = .next t → ∃ drawn taken, Traffic s t drawn taken ∧
    ∀ rest tail, f (s.withPeer (taken ++ rest) tail) = .next (t.withPeer rest tail)

theorem Traced.finally {α : Type} {p : State → Proc α} {k : α → State → State} (hp : Traced p)
    (hk : ∀ a, Offline (k a)) : OperationTraced fun s => (p s).finally k := by
  intro s u h
  obtain ⟨a, t, hpt, rfl⟩ := Proc.finally_eq_next.mp h
  obtain ⟨drawn, taken, htraffic, hreplay⟩ := hp s a t hpt
  refine ⟨drawn, taken, by simpa using htraffic.trans ((hk a).traffic t), fun rest tail => ?_⟩
  dsimp only
  rw [hreplay, Proc.finally_ends, (hk a).withPeer]

/-- RX_STEP as one poll and what is done with its answer (R160). -/
theorem execRxStep_eq : execRxStep = fun s =>
    ((poll s.invalidateView).andThen fun a t => match a with
      | none => .ends none t
      | some b => (rxByte intercept b t).andThen fun r u => .ends (some r) u).finally
    fun r t => match r with
      | none => t.finish .empty 0
      | some r => finishStep r t := by
  funext s
  unfold execRxStep poll
  rcases s.invalidateView.rxPoll with ⟨_ | b, t⟩
  · rfl
  · dsimp only [Proc.andThen_ends]
    cases rxByte intercept b t <;> rfl

theorem execRxStep_traced : OperationTraced execRxStep := by
  rw [execRxStep_eq]
  refine ((poll_traced.after Offline.invalidateView).andThen fun a => ?_).finally fun r => ?_
  · cases a with
    | none => exact traced_ends _
    | some b => exact (rxByte_traced intercept_traced b).andThen fun r => traced_ends _
  · cases r with
    | none => exact Offline.finish _ _
    | some r => exact Offline.finishStep r

theorem execSync_traced : OperationTraced execSync := by
  intro s t h
  by_cases hs : s.syncing = true
  · simp only [execSync, if_pos hs] at h
    cases h
    exact ⟨[], [], (Offline.finish _ _).traffic s, fun rest tail => if_pos hs⟩
  · simp only [execSync, if_neg hs] at h
    obtain ⟨drawn, taken, htraffic, hreplay⟩ :=
      (syncProc_traced.after Offline.invalidateView).finally Offline.finishSync s t h
    exact ⟨drawn, taken, htraffic, fun rest tail => (if_neg hs).trans (hreplay rest tail)⟩

/-- Every operation that completes is determined by the answers it took (R57, R59; log 3). -/
theorem exec_traced (i : Instr) : OperationTraced (exec i) := by
  cases hi : receiveFamily i with
  | false =>
    intro s t h
    have hframe := exec_sameButOutput hi h
    exact ⟨[], [], Traffic.of_noPoll (exec_txLog_prefix hi h) hframe.rx hframe.rxTaken,
      fun rest tail => exec_withPeer hi h rest tail⟩
  | true =>
    cases i with
    | rxStep => exact execRxStep_traced
    | tryRecv =>
      exact ((tryReceive_traced intercept_traced).after Offline.invalidateView).finally Offline.finishTry
    | recv n =>
      exact ((receive_traced intercept_traced n.toNat).after Offline.invalidateView).finally Offline.finishRecv
    | rxFlush => exact (discard_traced.after Offline.invalidateView).finally fun n => Offline.finish _ _
    | sync => exact execSync_traced
    | nop | crcClr | crcAdd _ | enc _ | txEnd | txBegin | txByte _ | txPad _ | txFinal | rdreg _ | rdbuf _ => cases hi

/-- Settles O49. -/
theorem transportKeepsOrder : Obligations.TransportKeepsOrder := by
  intro i s t h
  obtain ⟨drawn, taken, htraffic, -⟩ := exec_traced i s t h
  obtain ⟨ws, hws⟩ := htraffic.sent
  exact ⟨⟨ws, hws.symm⟩, ⟨drawn, taken, htraffic.order, htraffic.drew, htraffic.count⟩, htraffic.listed,
    fun hi => (exec_sameButOutput hi h).rx⟩

/-- Settles O50. -/
theorem laterAnswersDoNotMatter : Obligations.LaterAnswersDoNotMatter := by
  intro i s t h
  obtain ⟨drawn, taken, htraffic, hreplay⟩ := exec_traced i s t h
  refine ⟨drawn, htraffic.drew, fun more tail => ?_⟩
  rw [htraffic.order, List.append_assoc]
  exact hreplay (t.rx.answers ++ more) tail

end Sys2Proof.Machine
end

section
/-! Loops over free answers: they complete unless the peer is endless, they do what they do where the answers are
listed, and statement O33. -/

namespace Sys2Proof.Machine

/-! The procedures that poll complete -/

/-- What a loop needs to end: a peer that lets it (R256), and the fill level within the buffer (R37). -/
structure State.CanEnd (s : State) : Prop where
  peer : s.peerLetsLoopsEnd
  idxBound : s.idx.toNat ≤ s.cfg.cap

theorem State.CanEnd.of_same {s t : State} (h : s.CanEnd) (hst : SameOutside s t) (ht : t.idx.toNat ≤ t.cfg.cap) :
    t.CanEnd := by
  have hkind (tl : Tail) : tl.kind.isEndless = tl.isEndless := by cases tl <;> rfl
  exact ⟨by rw [State.peerLetsLoopsEnd, ← hkind, hst.tail, hkind]; exact h.peer, ht⟩

/-- From every state in which its loops can end the procedure ends, in such a state. -/
def Completes {α : Type} (p : State → Proc α) : Prop := ∀ s, s.CanEnd → ∃ a t, p s = .ends a t ∧ t.CanEnd

theorem completes_ends {α : Type} (a : α) : Completes fun s => .ends a s := fun s h => ⟨a, s, rfl, h⟩

theorem Completes.andThen {α β : Type} {p : State → Proc α} {k : α → State → Proc β} (hp : Completes p)
    (hk : ∀ a, Completes (k a)) : Completes fun s => (p s).andThen k := by
  intro s h
  obtain ⟨a, t, hpt, ht⟩ := hp s h
  simpa only [hpt, Proc.andThen_ends] using hk a t ht

theorem Completes.after {α : Type} {p : State → Proc α} {f : State → State} (hp : Completes p)
    (hf : ∀ s, s.CanEnd → (f s).CanEnd) : Completes fun s => p (f s) :=
  fun s h => hp (f s) (hf s h)

theorem poll_completes : Completes poll := by
  intro s h
  refine ⟨_, _, rfl, h.of_same (SameOutside.rxPoll s) ?_⟩
  obtain ⟨p, n, e⟩ := s.rxPoll_environment
  rw [e]
  exact h.idxBound

/-- The gap that ends a loop comes, but of an endless peer (log 4). -/
theorem State.CanEnd.rxGap {s : State} (h : s.CanEnd) (n : Nat) : ∃ t, s.rxGap n = some t ∧ t.CanEnd := by
  cases hg : s.rxGap n with
  | none =>
    obtain ⟨k, hk⟩ := State.rxGap_eq_none.mp hg
    have hpeer := h.peer
    simp [State.peerLetsLoopsEnd, hk, Tail.isEndless] at hpeer
  | some t =>
    refine ⟨t, rfl, h.of_same (SameOutside.rxGap hg) ?_⟩
    obtain ⟨p, k, rfl⟩ := State.rxGap_environment hg
    exact h.idxBound

theorem State.CanEnd.of_decoded {s t : State} (h : s.CanEnd) (hd : Decoded s t) : t.CanEnd :=
  h.of_same hd.toSameOutside (hd.idxBound h.idxBound)

theorem rxByte_completes {hook : State → Proc ByteResult} (hh : Completes hook) (b : Byte) :
    Completes (rxByte hook b) := by
  intro s h
  obtain ⟨r, t, -, ht, hs, -⟩ | ⟨u, hu, hs, -⟩ | ⟨hpast, -⟩ := rxByte_outcome hook b s
  · exact ⟨r, t, hs, h.of_decoded ht⟩
  · rw [hs]
    exact hh u (h.of_decoded hu)
  · exact absurd h.idxBound (Nat.not_le_of_lt hpast)

/-- One round of the loop of `TryReceive` (R158). -/
theorem drain_succ_eq (hook : State → Proc ByteResult) (n : Nat) :
    drain hook (n + 1) = fun s => (poll s).andThen fun a t => match a with
      | none => .ends .nopacket t
      | some b => (rxByte hook b t).andThen fun r u => match r.endsLoop with
        | none => drain hook n u
        | some q => .ends q u := by
  funext s
  rcases hp : s.rxPoll with ⟨_ | b, t⟩
  · rw [drain_succ_none hp, poll, hp]
    rfl
  · rw [drain_succ_some hp, poll, hp]
    rfl

theorem drain_completes {hook : State → Proc ByteResult} (hh : Completes hook) (n : Nat) :
    Completes (drain hook n) := by
  induction n with
  | zero =>
    intro s h
    obtain ⟨t, hgap, ht⟩ := h.rxGap 1
    exact ⟨.nopacket, t, by simp only [drain, hgap], ht⟩
  | succ n ih =>
    rw [drain_succ_eq]
    refine poll_completes.andThen fun a => ?_
    cases a with
    | none => exact completes_ends _
    | some b =>
      refine (rxByte_completes hh b).andThen fun r => ?_
      cases r.endsLoop with
      | none => exact ih
      | some q => exact completes_ends q

theorem receive_completes {hook : State → Proc ByteResult} (hh : Completes hook) (n : Nat) :
    Completes (receive hook n) := by
  induction n with
  | zero =>
    rw [show receive hook 0 = fun s => .ends .nopacket s from funext (receive_zero hook)]
    exact completes_ends _
  | succ n ih =>
    rw [receive_succ_eq]
    refine Completes.andThen (fun s h => drain_completes hh s.pollBudget s h) fun r => ?_
    cases r with
    | packet => exact completes_ends _
    | nopacket | synced _ => exact ih

theorem discardLoop_completes (k : Nat) : ∀ n, Completes (discardLoop k n) := by
  induction k with
  | zero =>
    intro n s h
    obtain ⟨t, hgap, ht⟩ := h.rxGap 1
    exact ⟨n, t, by simp only [discardLoop, hgap], ht⟩
  | succ k ih =>
    intro n s h
    obtain ⟨a, t, hp, ht⟩ := poll_completes s h
    have hpoll : s.rxPoll = (a, t) := by simpa [poll, Prod.ext_iff] using hp
    cases a with
    | none => exact ⟨n, t, discardLoop_succ_none hpoll, ht⟩
    | some b => simpa only [discardLoop_succ_some hpoll] using ih (n + 1) t ht

theorem discard_completes : Completes discard :=
  Completes.andThen (fun s h => discardLoop_completes s.pollBudget 0 s h)
    fun n _ h => ⟨n, _, rfl, h.peer, Nat.zero_le _⟩

theorem syncWait_completes (k : Nat) : Completes (syncWait k) := by
  induction k with
  | zero =>
    intro s h
    obtain ⟨t, hgap, ht⟩ := h.rxGap s.cfg.syncRxTimeout.toNat
    exact ⟨false, t, by simp only [syncWait, hgap], ht⟩
  | succ k ih =>
    intro s h
    obtain ⟨r, t, hr, ht⟩ := receive_completes (completes_ends .packet) s.cfg.syncRxTimeout.toNat s h
    have hround := syncWait_succ k s
    rw [show receive surface s.cfg.syncRxTimeout.toNat s = .ends r t from hr, Proc.andThen_ends] at hround
    rw [hround]
    cases r with
    | packet =>
      dsimp only
      split
      · exact ⟨true, t, rfl, ht⟩
      · exact ih t.invalidateView ⟨ht.peer, ht.idxBound⟩
    | nopacket | synced _ => exact ⟨false, t, rfl, ht⟩

theorem syncProc_completes : Completes syncProc := by
  refine (discard_completes.after fun s h => ?_).andThen fun _ => ?_
  · rw [State.sendMarker_eq]
    exact ⟨h.peer, h.idxBound⟩
  refine (discard_completes.after (f := State.txWrite [slipEnd]) fun s h => ⟨h.peer, h.idxBound⟩).andThen fun _ => ?_
  refine Completes.andThen (fun s h => syncWait_completes (s.pollBudget + 1) _ ?_) fun ok s h => ?_
  · rw [State.sendSyncRequest_eq]
    exact ⟨h.peer, h.idxBound⟩
  · exact ⟨ok, _, rfl, h.peer, h.idxBound⟩

theorem intercept_completes : Completes intercept := by
  intro s h
  unfold intercept
  split
  · exact syncProc_completes.andThen (k := fun ok t => .ends (ByteResult.synced ok) t) (fun ok => completes_ends _)
      s.invalidateView ⟨h.peer, h.idxBound⟩
  · exact ⟨.packet, s, rfl, h⟩

/-! Drawn answers and listed ones -/

/-- The answers of n polls of a loop over free answers, from the k-th one after the r-th reset, and the gap (log 4). -/
def freePolls (r k n : Nat) : List (Option Byte) := (List.range n).map (fun j => Config.rxOracle r (k + j)) ++ [none]

@[simp] theorem freePolls_zero (r k : Nat) : freePolls r k 0 = [none] := rfl

theorem freePolls_succ (r k n : Nat) : freePolls r k (n + 1) = Config.rxOracle r k :: freePolls r (k + 1) n := by
  simp [freePolls, List.range_succ_eq_map, Function.comp_def, Nat.add_right_comm, Nat.add_assoc]

@[simp] theorem freePolls_length (r k n : Nat) : (freePolls r k n).length = n + 1 := by
  simp [freePolls]

/-- The state that a run over those answers listed leaves, as it is where the answers were drawn. -/
def State.asDrawn (k n : Nat) (t : State) : State := t.withPeer [] (.unlisted (k + (n + 1 - t.rx.answers.length)))

/-- Counted from one poll earlier, the same answers were drawn. -/
theorem State.asDrawn_succ {t : State} {k n : Nat} (h : t.rx.answers.length ≤ n + 1) :
    t.asDrawn (k + 1) n = t.asDrawn k (n + 1) := by
  rw [State.asDrawn, State.asDrawn, show k + 1 + (n + 1 - t.rx.answers.length) = k + (n + 1 + 1 - t.rx.answers.length)
    by omega]

theorem Offline.asDrawn {f : State → State} (hf : Offline f) (k n : Nat) (t : State) :
    f (t.asDrawn k n) = (f t).asDrawn k n := by
  rw [State.asDrawn, hf.withPeer, State.asDrawn, hf.rx]

/-- A poll draws the first of the free answers and meets it where they are listed. -/
theorem rxPoll_free {k n : Nat} {s : State} (hs : s.rx = ⟨freePolls s.resets k (n + 1), .silent⟩) :
    ∃ a t, s.rxPoll = (a, t) ∧ (s.withPeer [] (.unlisted k)).rxPoll = (a, t.withPeer [] (.unlisted (k + 1))) ∧
      t.rx = ⟨freePolls t.resets (k + 1) n, .silent⟩ ∧ t.idx = s.idx ∧ t.cfg = s.cfg := by
  rw [freePolls_succ] at hs
  refine ⟨_, _, State.rxPoll_listed (congrArg Peer.answers hs), State.rxPoll_unlisted rfl, ?_, rfl, rfl⟩
  rw [State.polled_rx, hs, State.polled_resets]

/-- Where no free answer is left, the `none` that is listed is the gap that ends the loop (log 4). -/
theorem rxPoll_lastFree {k : Nat} {s : State} (hs : s.rx = ⟨freePolls s.resets k 0, .silent⟩) :
    ∃ t, s.rxPoll = (none, t) ∧ t.rx.answers = [] ∧ (s.withPeer [] (.unlisted k)).rxGap 1 = some (t.asDrawn k 0) :=
  ⟨_, State.rxPoll_none (by rw [hs]; rfl), rfl, rfl⟩

/-- After the first of the polls, with the others left over, one counts as drawn. -/
theorem asDrawn_of_polled {k n : Nat} {t : State} (ht : t.rx = ⟨freePolls t.resets (k + 1) n, .silent⟩) :
    t.asDrawn k (n + 1) = t.withPeer [] (.unlisted (k + 1)) := by
  rw [State.asDrawn, ht, freePolls_length, show n + 1 + 1 - (n + 1) = 1 by omega]

/-- A packet that is no SYNC packet met while Idle is surfaced (R180). -/
theorem intercept_surfaces {s : State} (h : s.packetCmd ≠ s.cfg.syncCmd ∨ s.syncing = true) :
    intercept s = .ends .packet s := by
  refine if_neg fun ⟨hcmd, hidle⟩ => ?_
  obtain hne | hsyncing := h
  · exact hne hcmd
  · exact absurd (hsyncing.symm.trans hidle) (by decide)

/-- `TryReceive` over free answers and over the same answers listed (R158; log 4). -/
theorem drain_free : ∀ {n k : Nat} {s : State}, s.rx = ⟨freePolls s.resets k n, .silent⟩ →
    s.idx.toNat ≤ s.cfg.cap →
    ∃ r t, drain intercept (n + 1) s = .ends r t ∧
      ((∃ ok, r = .synced ok) ∨ (t.rx.answers.length ≤ n + 1 ∧
        drain intercept n (s.withPeer [] (.unlisted k)) = .ends r (t.asDrawn k n))) := by
  intro n
  induction n with
  | zero =>
    intro k s hs hidx
    obtain ⟨t, hp, hnil, hgap⟩ := rxPoll_lastFree hs
    exact ⟨.nopacket, t, drain_succ_none hp, .inr ⟨by simp [hnil], by simp only [drain, hgap]⟩⟩
  | succ n ih =>
    intro k s hs hidx
    obtain ⟨a, t, hlisted, hdrawn, ht, hi, hc⟩ := rxPoll_free hs
    have hlen : t.rx.answers.length ≤ n + 1 + 1 := by simp [ht]
    cases a with
    | none =>
      exact ⟨.nopacket, t, drain_succ_none hlisted,
        .inr ⟨hlen, by rw [drain_succ_none hdrawn, asDrawn_of_polled ht]⟩⟩
    | some b =>
      rw [drain_succ_some hlisted, drain_succ_some hdrawn]
      have hcan : t.CanEnd := ⟨by simp [State.peerLetsLoopsEnd, ht, Tail.isEndless], by rw [hi, hc]; exact hidx⟩
      obtain ⟨r, u, hr, hu, hbyte, hall⟩ | ⟨u, hu, hbyte, hall⟩ | ⟨hpast, -⟩ := rxByte_outcome intercept b t
      · obtain ⟨q, v, hq, hv⟩ := ih (s := u) (k := k + 1) (by rw [hu.rx, hu.resets]; exact ht)
          (hcan.of_decoded hu).idxBound
        simp only [hbyte, hall, Proc.andThen_ends, hr]
        refine ⟨q, v, hq, hv.imp id fun ⟨hv, hd⟩ => ⟨Nat.le_succ_of_le hv, ?_⟩⟩
        rw [hd, State.asDrawn_succ hv]
      · obtain ⟨r, v, hv, -⟩ := intercept_completes u (hcan.of_decoded hu)
        rw [hbyte, hv, hall]
        obtain ⟨-, -, ok, -, rfl⟩ | ⟨hsurfaced, rfl, rfl⟩ := intercept_ends hv
        · exact ⟨.synced ok, v, rfl, .inl ⟨ok, rfl⟩⟩
        · refine ⟨.packet, v, rfl, .inr ⟨by rw [hu.rx]; exact hlen, ?_⟩⟩
          rw [intercept_surfaces (s := v.withPeer [] (.unlisted (k + 1))) hsurfaced,
            asDrawn_of_polled (by rw [hu.rx, hu.resets]; exact ht)]
          rfl
      · exact absurd hcan.idxBound (Nat.not_le_of_lt hpast)

/-- `Discard` over free answers and over the same answers listed (R163; log 4). -/
theorem discardLoop_free : ∀ {n k c : Nat} {s : State}, s.rx = ⟨freePolls s.resets k n, .silent⟩ →
    ∃ m t, discardLoop (n + 1) c s = .ends m t ∧ t.rx.answers.length ≤ n + 1 ∧
      discardLoop n c (s.withPeer [] (.unlisted k)) = .ends m (t.asDrawn k n) := by
  intro n
  induction n with
  | zero =>
    intro k c s hs
    obtain ⟨t, hp, hnil, hgap⟩ := rxPoll_lastFree hs
    exact ⟨c, t, discardLoop_succ_none hp, by simp [hnil], by simp only [discardLoop, hgap]⟩
  | succ n ih =>
    intro k c s hs
    obtain ⟨a, t, hlisted, hdrawn, ht, -, -⟩ := rxPoll_free hs
    cases a with
    | none =>
      exact ⟨c, t, discardLoop_succ_none hlisted, by simp [ht],
        by rw [discardLoop_succ_none hdrawn, asDrawn_of_polled ht]⟩
    | some b =>
      obtain ⟨m, u, hm, hu, hd⟩ := ih (c := c + 1) ht
      refine ⟨m, u, (discardLoop_succ_some hlisted).trans hm, Nat.le_succ_of_le hu, ?_⟩
      rw [discardLoop_succ_some hdrawn, hd, State.asDrawn_succ hu]

/-! The operations -/

/-- RX_STEP on an answer that it draws, and on the same answer listed (R160; log 5). -/
theorem execRxStep_drawn {s : State} {tl : Tail} {a : Option Byte}
    (h : s.invalidateView.rxPoll = (a, s.invalidateView.drew tl a)) :
    exec .rxStep s = exec .rxStep (s.withPeer [a] tl) := by
  have hlisted : (s.withPeer [a] tl).invalidateView.rxPoll = (a, s.invalidateView.drew tl a) :=
    State.rxPoll_listed rfl
  simp only [exec, execRxStep, h, hlisted]

/-- The budget of a loop over free answers, and that over the same answers listed. -/
theorem pollBudget_free (r k n : Nat) (s : State) : (s.withPeer (freePolls r k n) .silent).pollBudget = n + 1 :=
  freePolls_length r k n

theorem pollBudget_drawn (k : Nat) (s : State) :
    (s.withPeer [] (.unlisted k)).pollBudget = Config.rxHorizon s.resets k :=
  Nat.add_zero _

theorem execTryRecv_free {s : State} (hidx : s.idx.toNat ≤ s.cfg.cap) (k : Nat) :
    ∃ t, exec .tryRecv (s.withPeer (freePolls s.resets k (Config.rxHorizon s.resets k)) .silent) = .next t ∧
      (t.evt = 0x07 ∨ t.evt = 0x08 ∨
        exec .tryRecv (s.withPeer [] (.unlisted k)) = .next (t.asDrawn k (Config.rxHorizon s.resets k))) := by
  obtain ⟨r, t, hlisted, hend⟩ := drain_free (n := Config.rxHorizon s.resets k) (k := k)
    (s := s.invalidateView.withPeer (freePolls s.resets k (Config.rxHorizon s.resets k)) .silent) rfl hidx
  refine ⟨finishTry r t, ?_, ?_⟩
  · simp only [exec, execTryRecv, tryReceive, Offline.invalidateView.withPeer, pollBudget_free, hlisted,
      Proc.finally_ends]
  · obtain ⟨ok, rfl⟩ | ⟨-, hdrawn⟩ := hend
    · cases ok
      · exact .inr (.inl rfl)
      · exact .inl rfl
    · simp only [State.withPeer_withPeer] at hdrawn
      refine .inr (.inr ?_)
      simp only [exec, execTryRecv, tryReceive, Offline.invalidateView.withPeer, pollBudget_drawn,
        State.invalidateView_resets, hdrawn, Proc.finally_ends, (Offline.finishTry r).asDrawn]

theorem execRxFlush_free (s : State) (k : Nat) :
    ∃ t, exec .rxFlush (s.withPeer (freePolls s.resets k (Config.rxHorizon s.resets k)) .silent) = .next t ∧
      exec .rxFlush (s.withPeer [] (.unlisted k)) = .next (t.asDrawn k (Config.rxHorizon s.resets k)) := by
  obtain ⟨m, t, hlisted, -, hdrawn⟩ := discardLoop_free (n := Config.rxHorizon s.resets k) (k := k) (c := 0)
    (s := s.invalidateView.withPeer (freePolls s.resets k (Config.rxHorizon s.resets k)) .silent) rfl
  have hend : Offline fun u : State => u.clearFrame.finish .ok (BitVec.ofNat 32 m) :=
    (Offline.finish _ _).comp Offline.clearFrame
  refine ⟨t.clearFrame.finish .ok (BitVec.ofNat 32 m), ?_, ?_⟩
  · simp only [exec, execRxFlush, discard, Offline.invalidateView.withPeer, pollBudget_free, hlisted,
      Proc.andThen_ends, Proc.finally_ends]
  · simp only [State.withPeer_withPeer] at hdrawn
    simp only [exec, execRxFlush, discard, Offline.invalidateView.withPeer, pollBudget_drawn,
      State.invalidateView_resets, hdrawn, Proc.andThen_ends, Proc.finally_ends,
      hend.asDrawn k (Config.rxHorizon s.resets k) t]

/-- Settles O33. -/
theorem unlistedPollsDrawFreeAnswers : Obligations.UnlistedPollsDrawFreeAnswers := by
  refine ⟨fun s k hs => ?_, fun s k hs => ?_, ?_⟩
  · exact execRxStep_drawn (State.rxPoll_unlisted (s := s.invalidateView) hs)
  · exact execRxStep_drawn (State.rxPoll_endless (s := s.invalidateView) hs)
  · intro s k hs hidx polls i hi
    have hself : s = s.withPeer [] (.unlisted k) := by rw [State.withPeer, ← hs]
    have hlen : polls.length = Config.rxHorizon s.resets k + 1 := freePolls_length s.resets k _
    rw [hlen]
    obtain rfl | rfl : i = .tryRecv ∨ i = .rxFlush := by simpa using hi
    · obtain ⟨t, hlisted, hend⟩ := execTryRecv_free hidx k
      rw [← hself] at hend
      exact ⟨t, hlisted, hend⟩
    · obtain ⟨t, hlisted, hdrawn⟩ := execRxFlush_free s k
      rw [← hself] at hdrawn
      exact ⟨t, hlisted, .inr (.inr hdrawn)⟩

end Sys2Proof.Machine
end

section
/-! Command words: the three fields of a word, what the opcode map makes of each opcode, that decoding and encoding are
inverse to one another, and statements O5, O6, O7, O8 and O9. -/

namespace Sys2Proof

/-! The fields of a word as numbers (R76) -/

theorem opcField_toNat (w : Word) : (opcField w).toNat = w.toNat / 2 ^ 24 := by
  rw [opcField, BitVec.extractLsb'_toNat, Nat.shiftRight_eq_div_pow]
  omega

theorem rsvField_toNat (w : Word) : (rsvField w).toNat = w.toNat / 2 ^ 16 % 2 ^ 8 := by
  rw [rsvField, BitVec.extractLsb'_toNat, Nat.shiftRight_eq_div_pow]

theorem immField_toNat (w : Word) : (immField w).toNat = w.toNat % 2 ^ 16 := by
  rw [immField, BitVec.extractLsb'_toNat, Nat.shiftRight_zero]

/-- A word has no bit outside its three fields. -/
theorem word_ext {v w : Word} (hopc : opcField v = opcField w) (hrsv : rsvField v = rsvField w)
    (himm : immField v = immField w) : v = w := by
  have hopc' := congrArg BitVec.toNat hopc
  have hrsv' := congrArg BitVec.toNat hrsv
  have himm' := congrArg BitVec.toNat himm
  simp only [opcField_toNat, rsvField_toNat, immField_toNat] at hopc' hrsv' himm'
  apply BitVec.eq_of_toNat_eq
  omega

/-! The operand classes (R77) -/

theorem decodeZ_eq_ok {imm : Half} {i j : Instr} : decodeZ imm i = .ok j ↔ imm = 0 ∧ i = j := by
  unfold decodeZ
  split <;> simp_all

theorem decodeZ_ne_ok {imm : Half} {i : Instr} : (∀ j, decodeZ imm i ≠ .ok j) ↔ imm.toNat ≠ 0 := by
  have himm : imm.toNat = 0 ↔ imm = 0 := BitVec.toNat_inj (y := 0)
  rw [decodeZ, ne_eq, himm]
  split <;> simp_all

/-- The test of class B on IMM[15:8], of the operand as a number. -/
theorem upperByte_eq_zero {imm : Half} : imm.extractLsb' 8 8 = 0 ↔ imm.toNat / 2 ^ 8 = 0 := by
  simp only [← BitVec.toNat_inj, BitVec.extractLsb'_toNat, Nat.shiftRight_eq_div_pow, BitVec.ofNat_eq_ofNat,
    BitVec.toNat_ofNat]
  omega

/-- IMM extends a byte exactly where its upper half is zero. -/
theorem eq_setWidth_byte {imm : Half} {b : Byte} :
    imm = b.setWidth 16 ↔ imm.extractLsb' 8 8 = 0 ∧ imm.extractLsb' 0 8 = b := by
  rw [upperByte_eq_zero, ← BitVec.toNat_inj, ← BitVec.toNat_inj, BitVec.extractLsb'_toNat, BitVec.toNat_setWidth,
    Nat.shiftRight_zero]
  omega

theorem decodeB_eq_ok {imm : Half} {f : Byte → Instr} {j : Instr} :
    decodeB imm f = .ok j ↔ ∃ b : Byte, imm = b.setWidth 16 ∧ f b = j := by
  simp only [eq_setWidth_byte, decodeB]
  split <;> simp_all

theorem decodeB_ne_ok {imm : Half} {f : Byte → Instr} :
    (∀ j, decodeB imm f ≠ .ok j) ↔ imm.toNat / 2 ^ 8 ≠ 0 := by
  rw [decodeB, ne_eq, ← upperByte_eq_zero]
  split <;> simp_all

theorem decodeRegister_eq_ok {imm : Half} {j : Instr} :
    decodeRegister imm = .ok j ↔ imm.toNat ≤ 11 ∧ .rdreg imm = j := by
  unfold decodeRegister
  split <;> simp_all

/-! The opcode map (R78) -/

/-- The opcodes of class Z. -/
def opcodesZ : List Nat := [0x00, 0x01, 0x04, 0x05, 0x08, 0x09, 0x0A, 0x0C, 0x0D]

/-- The opcodes of class B. -/
def opcodesB : List Nat := [0x02, 0x03, 0x06]

/-- The opcodes of class H whose every operand is legal. -/
def opcodesH : List Nat := [0x07, 0x0B, 0x0F]

/-- What the opcode map makes of an opcode with an immediate, by the class of the opcode's row. -/
inductive OpcodeRow (opc : Nat) (imm : Half) : Except BadWord Instr → Prop where
  | z (i : Instr) : opc ∈ opcodesZ → (opcodeOf i).toNat = opc → operandOf i = 0 → i.WellFormed →
      OpcodeRow opc imm (decodeZ imm i)
  | b (f : Byte → Instr) : opc ∈ opcodesB →
      (∀ b, (opcodeOf (f b)).toNat = opc ∧ operandOf (f b) = b.setWidth 16 ∧ (f b).WellFormed) →
      OpcodeRow opc imm (decodeB imm f)
  | h (f : Half → Instr) : opc ∈ opcodesH →
      (∀ n, (opcodeOf (f n)).toNat = opc ∧ operandOf (f n) = n ∧ (f n).WellFormed) → OpcodeRow opc imm (.ok (f imm))
  | register : opc = 0x0E → OpcodeRow opc imm (decodeRegister imm)
  | none : 0x10 ≤ opc → OpcodeRow opc imm (.error .opcode)

theorem decodeOperation_row (opc : Byte) (imm : Half) : OpcodeRow opc.toNat imm (decodeOperation opc imm) := by
  unfold decodeOperation
  generalize opc.toNat = k
  split
  case h_1 | h_2 | h_5 | h_6 | h_9 | h_10 | h_11 | h_13 | h_14 => exact .z _ (by decide) rfl rfl rfl
  case h_3 | h_4 | h_7 => exact .b _ (by decide) fun b => ⟨rfl, rfl, rfl⟩
  case h_8 | h_12 | h_16 => exact .h _ (by decide) fun n => ⟨rfl, rfl, rfl⟩
  case h_15 => exact .register rfl
  case h_17 => exact .none (by simp only [imp_false] at *; omega)

/-- An opcode is of one class. -/
theorem opcodesZ_disjoint : ∀ k ∈ opcodesZ, k ∉ opcodesB ∧ k ≠ 0x0E ∧ ¬ 0x10 ≤ k := by decide

theorem opcodesB_disjoint : ∀ k ∈ opcodesB, k ∉ opcodesZ ∧ k ≠ 0x0E ∧ ¬ 0x10 ≤ k := by decide

theorem opcodesH_disjoint : ∀ k ∈ opcodesH, k ∉ opcodesZ ∧ k ∉ opcodesB ∧ k ≠ 0x0E ∧ ¬ 0x10 ≤ k := by decide

/-- The opcode map gives an operation back from its opcode and its operand. -/
theorem decodeOperation_opcodeOf : ∀ {i : Instr}, i.WellFormed → decodeOperation (opcodeOf i) (operandOf i) = .ok i
  | .nop, _ | .crcClr, _ | .txEnd, _ | .txBegin, _ | .txFinal, _ | .rxStep, _ | .tryRecv, _ | .rxFlush, _ | .sync, _ =>
    decodeZ_eq_ok.mpr ⟨rfl, rfl⟩
  | .crcAdd b, _ | .enc b, _ | .txByte b, _ => decodeB_eq_ok.mpr ⟨b, rfl, rfl⟩
  | .txPad _, _ | .recv _, _ | .rdbuf _, _ => rfl
  | .rdreg _, h => decodeRegister_eq_ok.mpr ⟨of_decide_eq_true h, rfl⟩

/-- The opcode map gives no operation but the one whose opcode and operand it was given. -/
theorem decodeOperation_eq_ok {opc : Byte} {imm : Half} {i : Instr} :
    decodeOperation opc imm = .ok i ↔ i.WellFormed ∧ opcodeOf i = opc ∧ operandOf i = imm := by
  constructor
  · intro h
    rw [← BitVec.toNat_inj]
    have row := decodeOperation_row opc imm
    generalize decodeOperation opc imm = r at h row
    cases row with
    | z j _ hopc himm hw =>
      obtain ⟨rfl, rfl⟩ := decodeZ_eq_ok.mp h
      exact ⟨hw, hopc, himm⟩
    | b f _ hf =>
      obtain ⟨b, rfl, rfl⟩ := decodeB_eq_ok.mp h
      obtain ⟨hopc, himm, hw⟩ := hf b
      exact ⟨hw, hopc, himm⟩
    | h f _ hf =>
      cases h
      obtain ⟨hopc, himm, hw⟩ := hf imm
      exact ⟨hw, hopc, himm⟩
    | register hopc =>
      obtain ⟨hn, rfl⟩ := decodeRegister_eq_ok.mp h
      exact ⟨decide_eq_true hn, hopc.symm, rfl⟩
    | none => cases h
  · rintro ⟨hw, rfl, rfl⟩
    exact decodeOperation_opcodeOf hw

/-- The opcode map has no row for an opcode from 0x10 on, and refuses an operand outside its class (R79). -/
theorem decodeOperation_ne_ok {opc : Byte} {imm : Half} :
    (∀ i, decodeOperation opc imm ≠ .ok i) ↔
      0x10 ≤ opc.toNat ∨ (opc.toNat ∈ opcodesZ ∧ imm.toNat ≠ 0) ∨
      (opc.toNat ∈ opcodesB ∧ imm.toNat / 2 ^ 8 ≠ 0) ∨ (opc.toNat = 0x0E ∧ 11 < imm.toNat) := by
  have row := decodeOperation_row opc imm
  generalize decodeOperation opc imm = r at row
  cases row with
  | z j hopc =>
    obtain ⟨hb, hr, hn⟩ := opcodesZ_disjoint _ hopc
    simp [decodeZ_ne_ok, hopc, hb, hr, hn]
  | b f hopc =>
    obtain ⟨hz, hr, hn⟩ := opcodesB_disjoint _ hopc
    simp [decodeB_ne_ok, hopc, hz, hr, hn]
  | h f hopc =>
    obtain ⟨hz, hb, hr, hn⟩ := opcodesH_disjoint _ hopc
    simp [hz, hb, hr, hn]
  | register hopc =>
    simp [decodeRegister_eq_ok, hopc, opcodesZ, opcodesB]
  | none hopc => simp [hopc]

/-! Words (R76) -/

/-- The decoder and the encoder are inverse to one another on the well-formed operations. -/
theorem decode_eq_ok_iff_encode {w : Word} {i : Instr} : decode w = .ok i ↔ i.WellFormed ∧ encode i = w := by
  rw [decode_eq_ok, decodeOperation_eq_ok]
  constructor
  · rintro ⟨hrsv, hw, hopc, himm⟩
    exact ⟨hw, word_ext (by simp [hopc]) (by simp [hrsv]) (by simp [himm])⟩
  · rintro ⟨hw, rfl⟩
    simpa using hw

theorem decode_encode {i : Instr} (hi : i.WellFormed) : decode (encode i) = .ok i :=
  decode_eq_ok_iff_encode.mpr ⟨hi, rfl⟩

/-- Settles O5. -/
theorem decodeOfEncode : Obligations.DecodeOfEncode := fun _ => decode_encode

/-- Settles O6. -/
theorem encodeOfDecode : Obligations.EncodeOfDecode := fun _ _ h => decode_eq_ok_iff_encode.mp h

/-! Illegal words (R79) -/

/-- R79's list, of the fields of a word as numbers. -/
theorem illegalWord_iff {w : Word} :
    Machine.illegalWord w ↔
      0x10 ≤ w.toNat / 2 ^ 24 ∨ w.toNat / 2 ^ 16 % 2 ^ 8 ≠ 0 ∨
      (w.toNat / 2 ^ 24 ∈ opcodesZ ∧ w.toNat % 2 ^ 16 ≠ 0) ∨
      (w.toNat / 2 ^ 24 ∈ opcodesB ∧ w.toNat % 2 ^ 16 / 2 ^ 8 ≠ 0) ∨
      (w.toNat / 2 ^ 24 = 0x0E ∧ 11 < w.toNat % 2 ^ 16) := by
  have hrsv : rsvField w = 0 ↔ (rsvField w).toNat = 0 := (BitVec.toNat_inj (y := 0)).symm
  rw [← opcField_toNat, ← rsvField_toNat, ← immField_toNat, or_left_comm, ← decodeOperation_ne_ok, ne_eq, ← hrsv,
    ← imp_iff_not_or]
  simp only [Machine.illegalWord, ne_eq, decode_eq_ok, not_and]
  exact forall_comm

/-- An illegal word is reported and does nothing else (R79). -/
theorem runWord_of_illegal {w : Word} (h : Machine.illegalWord w) (s : Machine.State) :
    Machine.runWord w s = .next s.reportIllegal := by
  cases hd : decode w with
  | ok i => exact absurd hd (h i)
  | error e => exact Machine.runWord_eq_next.mpr (.inl ⟨⟨e, hd⟩, rfl⟩)

/-- Settles O8. -/
theorem illegalWordsChangeNothing : Obligations.IllegalWordsChangeNothing := by
  intro w opc rsv imm listed
  have hlisted : listed ↔ Machine.illegalWord w := illegalWord_iff.symm
  refine ⟨hlisted, fun s q hq hl => ?_⟩
  rw [Machine.step_of_command hq, runWord_of_illegal (hlisted.mp hl)]
  rfl

/-! The words of the opcode map, row by row (R78) -/

/-- A word with RSV = 0x00 is the sum of its opcode at bit 24 and its operand. -/
theorem encode_eq_add (i : Instr) : encode i = (opcodeOf i).setWidth 32 <<< 24 + (operandOf i).setWidth 32 := by
  have hopc := opcField_toNat (encode i)
  have hrsv := rsvField_toNat (encode i)
  have himm := immField_toNat (encode i)
  simp only [opcField_encode, rsvField_encode, immField_encode, BitVec.ofNat_eq_ofNat, BitVec.toNat_ofNat]
    at hopc hrsv himm
  apply BitVec.eq_of_toNat_eq
  simp only [BitVec.toNat_add, BitVec.toNat_shiftLeft, BitVec.toNat_setWidth, Nat.shiftLeft_eq]
  omega

/-- A row of the opcode map with an operand. -/
theorem decode_row {i : Instr} (opc : Byte) {base operand : Word} (hi : i.WellFormed) (hopc : opcodeOf i = opc)
    (hbase : opc.setWidth 32 <<< 24 = base) (hoperand : (operandOf i).setWidth 32 = operand) :
    decode (base + operand) = .ok i := by
  rw [← hbase, ← hopc, ← hoperand, ← encode_eq_add]
  exact decode_encode hi

/-- Settles O7. -/
theorem opcodeMapRows : Obligations.OpcodeMapRows := by
  have hbyte (b : Byte) : (b.setWidth 16).setWidth 32 = b.setWidth 32 :=
    BitVec.setWidth_setWidth (by omega)
  exact ⟨fun w h => illegalWord_iff.mpr (.inl h),
    decode_encode (i := .nop) rfl,
    decode_encode (i := .crcClr) rfl,
    fun b => decode_row 0x02 rfl rfl rfl (hbyte b),
    fun b => decode_row 0x03 rfl rfl rfl (hbyte b),
    decode_encode (i := .txEnd) rfl,
    decode_encode (i := .txBegin) rfl,
    fun b => decode_row 0x06 rfl rfl rfl (hbyte b),
    fun n => decode_row 0x07 rfl rfl rfl rfl,
    decode_encode (i := .txFinal) rfl,
    decode_encode (i := .rxStep) rfl,
    decode_encode (i := .tryRecv) rfl,
    fun n => decode_row 0x0B rfl rfl rfl rfl,
    decode_encode (i := .rxFlush) rfl,
    decode_encode (i := .sync) rfl,
    fun n hn => decode_row 0x0E (decide_eq_true hn) rfl rfl rfl,
    fun n => decode_row 0x0F rfl rfl rfl rfl⟩

/-- Settles O9: each word is the encoding of its operation. -/
theorem specWordsDecode : Obligations.SpecWordsDecode :=
  ⟨decode_encode (i := .enc 0xC0) rfl, decode_encode (i := .crcAdd 0x41) rfl, decode_encode (i := .txByte 0x41) rfl,
    decode_encode (i := .recv 100) rfl, decode_encode (i := .rdreg 4) rfl, decode_encode (i := .rdbuf 10) rfl,
    decode_encode (i := .sync) rfl⟩

end Sys2Proof
end

section
/-! The decoder run over a byte stream, on the escaped form of one byte and of a sequence, and statement O31. -/

namespace Sys2Proof.Machine

/-- No escaped form holds an END (R71). -/
theorem slipEnd_notMem_escape (b : Byte) : slipEnd ∉ escape b := by
  obtain ⟨-, h⟩ | ⟨-, h⟩ | ⟨hend, -, h⟩ := escape_cases b
  · rw [h]
    decide
  · rw [h]
    decide
  · rw [h, List.mem_singleton]
    exact hend.symm

/-- Decoding a stream in parts: the second part from the state the first one leaves. -/
theorem decodeAll_append (xs ys : List Byte) (s : State) :
    decodeAll (xs ++ ys) s =
      ((decodeAll xs s).1 ++ (decodeAll ys (decodeAll xs s).2).1, (decodeAll ys (decodeAll xs s).2).2) := by
  induction xs generalizing s with
  | nil => rfl
  | cons x xs ih => simp only [List.cons_append, decodeAll, ih]

/-- A byte that is neither END nor ESC gives a data signal and clears the flag (R104). -/
theorem State.decodeIn_data {b : Byte} (hend : b ≠ slipEnd) (hesc : b ≠ slipEsc) (s : State) :
    s.decodeIn b = (.data (if s.esc then unescape b else b), s.setEsc false) := by
  obtain ⟨h, -⟩ | ⟨h, -⟩ | ⟨-, -, h⟩ := decodeByte_cases s.esc b
  · exact absurd h hend
  · exact absurd h hesc
  · rw [State.decodeIn, h]

/-- An escape pair gives the data signal of the byte it stands for, behind a silent one (R104, R106). -/
theorem decodeAll_escapePair {b : Byte} (hend : b ≠ slipEnd) (hesc : b ≠ slipEsc) (s : State) :
    decodeAll [slipEsc, b] s = ([.nothing, .data (unescape b)], s.setEsc false) := by
  have hmark : s.decodeIn slipEsc = (.nothing, s.setEsc true) := rfl
  simp only [decodeAll, hmark, State.decodeIn_data hend hesc, State.setEsc_esc, if_true, State.setEsc_setEsc]

/-- The escaped form of one byte, decoded from ESC = 0, gives that byte, behind a silent signal where it takes two wire
bytes, and leaves the state as it was (R108). -/
theorem decodeAll_escape {s : State} (hs : s.esc = false) (b : Byte) :
    decodeAll (escape b) s = (if b = slipEnd ∨ b = slipEsc then [.nothing, .data b] else [.data b], s) := by
  have hclear : s.setEsc false = s := by rw [← hs, State.setEsc_self]
  obtain ⟨rfl, h⟩ | ⟨rfl, h⟩ | ⟨hend, hesc, h⟩ := escape_cases b
  · rw [h, decodeAll_escapePair (by decide) (by decide), hclear, unescape_escEnd, if_pos (.inl rfl)]
  · rw [h, decodeAll_escapePair (by decide) (by decide), hclear, unescape_escEsc, if_pos (.inr rfl)]
  · rw [h, if_neg (by simp [hend, hesc])]
    simp only [decodeAll, State.decodeIn_data hend hesc, hs, hclear, Bool.false_eq_true, if_false]

/-- The byte's signal is the only one its escaped form gives. -/
theorem filter_decodeAll_escape {s : State} (hs : s.esc = false) (b : Byte) :
    (decodeAll (escape b) s).1.filter (· ≠ .nothing) = [.data b] := by
  rw [decodeAll_escape hs]
  split <;> simp

/-- Settles O31, by induction on the data bytes: each escaped form is decoded from ESC = 0 and leaves it so. -/
theorem escapedStreamDecodes : Obligations.EscapedStreamDecodes := by
  intro bs s hs
  induction bs with
  | nil => exact ⟨List.not_mem_nil, rfl, rfl⟩
  | cons b bs ih =>
    obtain ⟨hend, hstate, hsignals⟩ := ih
    have hcons : escapeAll (b :: bs) = escape b ++ escapeAll bs := rfl
    have hmid : (decodeAll (escape b) s).2 = s := by rw [decodeAll_escape hs]
    rw [hcons, decodeAll_append, hmid, List.filter_append, filter_decodeAll_escape hs, hsignals]
    exact ⟨List.not_mem_append (slipEnd_notMem_escape b) hend, hstate, rfl⟩

end Sys2Proof.Machine
end

section
/-! The assembler: the mnemonics and the register names as keys of their tables, what a line of each class is once its
words are known, and statement O12. -/

namespace Sys2Proof.Machine

/-! The tables -/

theorem mem_of_lookup {α : Type} {l : List (List Char × α)} {k : List Char} {a : α} (h : l.lookup k = some a) :
    (k, a) ∈ l := by
  obtain ⟨l₁, l₂, rfl, -⟩ := List.lookup_eq_some_iff.mp h
  simp

/-- The mnemonics of class Z (R78). -/
theorem lookup_mnemonic_z : ∀ p ∈ [("NOP", Instr.nop), ("CRC_CLR", .crcClr), ("TX_END", .txEnd), ("TX_BEGIN", .txBegin),
      ("TX_FINAL", .txFinal), ("RX_STEP", .rxStep), ("TRY_RECV", .tryRecv), ("RX_FLUSH", .rxFlush), ("SYNC", .sync)],
    asmTable.lookup p.1.toList = some (.z p.2) := by
  simp only [List.forall_mem_cons]
  exact ⟨rfl, rfl, rfl, rfl, rfl, rfl, rfl, rfl, rfl, nofun⟩

/-- The mnemonics of class B. -/
theorem lookup_mnemonic_b : ∀ p ∈ [("CRC_ADD", Instr.crcAdd), ("ENC", .enc), ("TX_BYTE", .txByte)],
    asmTable.lookup p.1.toList = some (.b p.2) := by
  simp only [List.forall_mem_cons]
  exact ⟨rfl, rfl, rfl, nofun⟩

/-- The mnemonics of class H but RDREG. -/
theorem lookup_mnemonic_h : ∀ p ∈ [("TX_PAD", Instr.txPad), ("RECV", .recv), ("RDBUF", .rdbuf)],
    asmTable.lookup p.1.toList = some (.h p.2) := by
  simp only [List.forall_mem_cons]
  exact ⟨rfl, rfl, rfl, nofun⟩

theorem lookup_mnemonic_register : asmTable.lookup "RDREG".toList = some .register := rfl

/-- Every mnemonic that takes an operand is of class B or H. -/
theorem lookup_mnemonic_operand : ∀ m ∈ ["CRC_ADD", "ENC", "TX_BYTE", "TX_PAD", "RECV", "RDBUF", "RDREG"],
    ∃ c, asmTable.lookup m.toList = some c ∧ ∀ i, c ≠ .z i := by
  simp only [List.forall_mem_cons]
  exact ⟨⟨_, lookup_mnemonic_b ("CRC_ADD", .crcAdd) (by simp), nofun⟩,
    ⟨_, lookup_mnemonic_b ("ENC", .enc) (by simp), nofun⟩,
    ⟨_, lookup_mnemonic_b ("TX_BYTE", .txByte) (by simp), nofun⟩,
    ⟨_, lookup_mnemonic_h ("TX_PAD", .txPad) (by simp), nofun⟩,
    ⟨_, lookup_mnemonic_h ("RECV", .recv) (by simp), nofun⟩,
    ⟨_, lookup_mnemonic_h ("RDBUF", .rdbuf) (by simp), nofun⟩,
    ⟨_, lookup_mnemonic_register, nofun⟩, nofun⟩

/-- The names of R81, each at the place of its register number. -/
def registerNames : List String :=
  ["STATUS", "CRC", "IDX", "FLEN", "PKT_CMD", "PKT_ARGC", "PKT_VALUE", "CFG_CAP", "CFG_SYNC_CMD", "CFG_VERSION_CMD",
   "CFG_SYNC_TIMEOUT", "CFG_SYNC_VALUE"]

theorem asmRegisters_eq : asmRegisters = (registerNames.map String.toList).zipIdx := rfl

theorem lookup_registerName : ∀ k : Fin 12, asmRegisters.lookup registerNames[k].toList = some k.val := by decide

/-- A name of a register is no number, so no word is both. -/
theorem asmNumber_registerName : ∀ p ∈ asmRegisters, asmNumber p.1 = none := by decide

theorem lookup_of_asmNumber {w : List Char} {n : Nat} (h : asmNumber w = some n) : asmRegisters.lookup w = none := by
  cases hk : asmRegisters.lookup w with
  | none => rfl
  | some k =>
    have hnone := asmNumber_registerName _ (mem_of_lookup hk)
    simp [h] at hnone

theorem lookup_of_no_registerName {w : List Char} (h : ∀ name ∈ registerNames, w ≠ name.toList) :
    asmRegisters.lookup w = none := by
  cases hk : asmRegisters.lookup w with
  | none => rfl
  | some k =>
    have hw : w ∈ asmRegisters.map Prod.fst := List.mem_map_of_mem (mem_of_lookup hk)
    rw [asmRegisters_eq, List.zipIdx_map_fst, List.mem_map] at hw
    obtain ⟨name, hname, rfl⟩ := hw
    exact absurd rfl (h name hname)

/-! The operands of a class -/

/-- An operand word's outcome, by the value it has, if any. -/
theorem operand_outcome {limit : Nat} {v : Option Nat} {f : Nat → Instr} {r : Except AsmError (Option Instr)}
    (hr : r = ((asmOperand limit v).map f).map some) :
    (∀ n, v = some n → r = if n < limit then .ok (some (f n)) else .error .operandRange) ∧
    (v = none → r = .error .operandForm) := by
  subst hr
  constructor
  · rintro n rfl
    rw [asmOperand]
    split <;> rfl
  · rintro rfl
    rfl

theorem asmOperation_nil {c : AsmClass} (h : ∀ i, c ≠ .z i) : asmOperation c [] = .error .operandMissing := by
  cases c with
  | z i => exact absurd rfl (h i)
  | b | h | register => rfl

theorem asmOperation_of_one_lt_length {c : AsmClass} (h : ∀ i, c ≠ .z i) :
    ∀ {operands : List (List Char)}, 1 < operands.length → asmOperation c operands = .error .operandExtra
  | _ :: _ :: _, _ => by
    cases c with
    | z i => exact absurd rfl (h i)
    | b | h | register => rfl

/-- The operations of a class are operations of the block; RDREG's is one by the bound of its operand. -/
def AsmClass.Sound : AsmClass → Prop
  | .z i => i.WellFormed
  | .b f => ∀ b, (f b).WellFormed
  | .h f => ∀ n, (f n).WellFormed
  | .register => True

theorem asmTable_sound : ∀ p ∈ asmTable, p.2.Sound := by
  simp only [asmTable, List.forall_mem_cons]
  exact ⟨rfl, rfl, fun _ => rfl, fun _ => rfl, rfl, rfl, fun _ => rfl, fun _ => rfl, rfl, rfl, rfl, fun _ => rfl, rfl,
    rfl, trivial, fun _ => rfl, nofun⟩

theorem exceptMap_eq_ok {α β : Type} {x : Except AsmError α} {f : α → β} {b : β} :
    x.map f = .ok b ↔ ∃ a, x = .ok a ∧ f a = b := by
  cases x <;> simp [Except.map]

theorem asmOperation_wellFormed {i : Instr} : ∀ {c : AsmClass} {operands : List (List Char)}, c.Sound →
    asmOperation c operands = .ok i → i.WellFormed
  | .z j, [], hc, h => by
    cases h
    exact hc
  | .b f, [w], hc, h => by
    obtain ⟨n, -, rfl⟩ := exceptMap_eq_ok.mp h
    exact hc _
  | .h f, [w], hc, h => by
    obtain ⟨n, -, rfl⟩ := exceptMap_eq_ok.mp h
    exact hc _
  | .register, [w], _, h => by
    obtain ⟨n, hn, rfl⟩ := exceptMap_eq_ok.mp h
    obtain ⟨-, hlt⟩ := asmOperand_eq_ok.mp hn
    have hle : (BitVec.ofNat 16 n).toNat ≤ 11 := by
      rw [BitVec.toNat_ofNat]
      omega
    exact decide_eq_true hle

/-! A line by its words -/

/-- A line whose first word is a mnemonic is its class's operation with the other words. -/
theorem assemble_of_words {line m : List Char} {operands : List (List Char)} {c : AsmClass}
    (hwords : asmWords [] line = m :: operands) (hm : asmTable.lookup m = some c) :
    assemble line = (asmOperation c operands).map some := by
  simp only [assemble, hwords, hm]

theorem assemble_wellFormed {line : List Char} {i : Instr} (h : assemble line = .ok (some i)) : i.WellFormed := by
  cases hwords : asmWords [] line with
  | nil => simp [assemble, hwords] at h
  | cons m operands =>
    cases hm : asmTable.lookup m with
    | none => simp [assemble, hwords, hm] at h
    | some c =>
      rw [assemble_of_words hwords hm, exceptMap_eq_ok] at h
      obtain ⟨j, hj, hji⟩ := h
      cases hji
      exact asmOperation_wellFormed (asmTable_sound _ (mem_of_lookup hm)) hj

/-- Settles O12. -/
theorem assembledLinesAreOperations : Obligations.AssembledLinesAreOperations := by
  refine ⟨by decide, by decide, by decide, fun _ _ => assemble_wellFormed, ?z, ?b, ?h, ?register, ?operand⟩
  case z =>
    intro line m i operands hm hwords
    rw [assemble_of_words hwords (lookup_mnemonic_z _ hm)]
    cases operands <;> rfl
  case b =>
    intro line w m f hm hwords
    exact operand_outcome (assemble_of_words hwords (lookup_mnemonic_b _ hm))
  case h =>
    intro line w m f hm hwords
    exact operand_outcome (assemble_of_words hwords (lookup_mnemonic_h _ hm))
  case register =>
    intro line w hwords names
    obtain ⟨hvalue, hform⟩ := operand_outcome (assemble_of_words hwords lookup_mnemonic_register)
    refine ⟨?_, fun n hn => hvalue n ?_, fun hn hnames => hform ?_⟩
    · rintro k name hk rfl
      obtain ⟨hlt, rfl⟩ := List.getElem?_eq_some_iff.mp hk
      have hreg : asmRegisters.lookup names[k].toList = some k := lookup_registerName ⟨k, hlt⟩
      exact (hvalue k (by rw [hreg, Option.some_or])).trans (if_pos hlt)
    · rw [lookup_of_asmNumber hn, hn]
      rfl
    · rw [lookup_of_no_registerName hnames, hn]
      rfl
  case operand =>
    intro line m operands hm hwords
    obtain ⟨c, hc, hz⟩ := lookup_mnemonic_operand m hm
    rw [assemble_of_words hwords hc]
    constructor
    · rintro rfl
      rw [asmOperation_nil hz]
      rfl
    · intro hlen
      rw [asmOperation_of_one_lt_length hz hlen]
      rfl

end Sys2Proof.Machine
end

section
/-! The words of a row of the opcode map, ENC and TX_END, one byte through the encoder and the decoder, and statements
O16, O17 and O30. -/

namespace Sys2Proof.Machine

/-! Illegal words of a row of the opcode map (R77, R79) -/

/-- A word with RSV = 0x00, as a number. -/
theorem rowWord_toNat {opc : Byte} {base : Word} (hbase : opc.setWidth 32 <<< 24 = base) (n : Half) :
    (base + n.setWidth 32).toNat = opc.toNat * 2 ^ 24 + n.toNat := by
  subst hbase
  simp only [BitVec.toNat_add, BitVec.toNat_shiftLeft, BitVec.toNat_setWidth, Nat.shiftLeft_eq]
  omega

/-- A row of class Z takes no operand. -/
theorem illegalWord_rowZ {opc : Byte} {base : Word} {n : Half} (hbase : opc.setWidth 32 <<< 24 = base)
    (hopc : opc.toNat ∈ opcodesZ) (hn : n ≠ 0) : illegalWord (base + n.setWidth 32) := by
  have hn' : n.toNat ≠ 0 := fun h => hn (BitVec.eq_of_toNat_eq h)
  have hquot : (opc.toNat * 2 ^ 24 + n.toNat) / 2 ^ 24 = opc.toNat := by omega
  have hrem : (opc.toNat * 2 ^ 24 + n.toNat) % 2 ^ 16 = n.toNat := by omega
  rw [illegalWord_iff, rowWord_toNat hbase, hquot, hrem]
  exact .inr (.inr (.inl ⟨hopc, hn'⟩))

/-- A row of class B takes no operand past a byte. -/
theorem illegalWord_rowB {opc : Byte} {base : Word} {n : Half} (hbase : opc.setWidth 32 <<< 24 = base)
    (hopc : opc.toNat ∈ opcodesB) (hn : 0xFF < n.toNat) : illegalWord (base + n.setWidth 32) := by
  have hquot : (opc.toNat * 2 ^ 24 + n.toNat) / 2 ^ 24 = opc.toNat := by omega
  have hrem : (opc.toNat * 2 ^ 24 + n.toNat) % 2 ^ 16 = n.toNat := by omega
  rw [illegalWord_iff, rowWord_toNat hbase, hquot, hrem]
  exact .inr (.inr (.inr (.inl ⟨hopc, by omega⟩)))

/-- The word of an operation with a byte. -/
theorem encode_rowB {i : Instr} {opc b : Byte} {base : Word} (hbase : opc.setWidth 32 <<< 24 = base)
    (hopc : opcodeOf i = opc) (hb : operandOf i = b.setWidth 16) : encode i = base + b.setWidth 32 := by
  rw [encode_eq_add, hopc, hbase, hb, BitVec.setWidth_setWidth (by omega)]

/-! How many wire bytes one byte takes -/

/-- Two for the reserved bytes, one for every other (R71). -/
theorem length_escape (b : Byte) : (escape b).length = if b = slipEnd ∨ b = slipEsc then 2 else 1 := by
  obtain ⟨hb, h⟩ | ⟨hb, h⟩ | ⟨hend, hesc, h⟩ := escape_cases b
  · rw [h, if_pos (.inl hb)]
    rfl
  · rw [h, if_pos (.inr hb)]
    rfl
  · rw [h, if_neg (not_or.mpr ⟨hend, hesc⟩)]
    rfl

theorem encodeCount_eq (b : Byte) : encodeCount b = if b = slipEnd ∨ b = slipEsc then 2 else 1 := by
  rw [encodeCount, length_escape]
  split <;> rfl

theorem length_escape_eq_two {b : Byte} : (escape b).length = 2 ↔ b = slipEnd ∨ b = slipEsc := by
  rw [length_escape]
  split <;> simp [*]

theorem encodeCount_eq_two {b : Byte} : encodeCount b = 2 ↔ b = slipEnd ∨ b = slipEsc := by
  rw [encodeCount_eq]
  split <;> simp [*]

/-! ENC and TX_END -/

/-- ENC writes the escaped form, EVT and RESULT (R101). -/
theorem exec_enc (b : Byte) (s : State) :
    exec (.enc b) s = .next ((s.txWrite (escape b)).finish .ok (encodeCount b)) := rfl

/-- Settles O16. -/
theorem encResult : Obligations.EncResult := by
  refine ⟨fun b s => ?_, fun b => encode_rowB (opc := 0x03) rfl rfl rfl,
    fun n => illegalWord_rowB (opc := 0x03) rfl (by decide)⟩
  rw [exec_enc, encodeCount_eq]
  rfl

/-- Settles O17. -/
theorem txEndResult : Obligations.TxEndResult :=
  ⟨fun _ => rfl, rfl, fun _ => illegalWord_rowZ (opc := 0x04) rfl (by decide)⟩

/-- Settles O30: the wire bytes are the escaped form, which decodes back to its byte. -/
theorem slipRoundTrip : Obligations.SlipRoundTrip := fun d _ u hs =>
  ⟨escape d, (u.txWrite (escape d)).finish .ok (encodeCount d), exec_enc d u, rfl, decodeAll_escape hs d,
    encodeCount_eq_two, encodeCount_eq_two.trans length_escape_eq_two.symm⟩

end Sys2Proof.Machine
end

section
/-! RX_STEP on a listed byte that ends no frame, and statement O34. -/

namespace Sys2Proof.Machine

/-- An escape stands for a reserved byte only before one of two bytes; every other byte stands for itself (R104). -/
theorem decodedByte_eq (esc : Bool) (b : Byte) :
    (if esc then unescape b else b) =
      if esc = true ∧ b = slipEscEnd then slipEnd else if esc = true ∧ b = slipEscEsc then slipEsc else b := by
  cases esc
  · simp
  · simp [unescape]

/-! The assembler's store (R151) -/

/-- `ByteIn` writes the buffer, IDX and OVF only. -/
theorem State.byteIn_frame (v : Byte) (s : State) :
    s.byteIn v = { s with buf := (s.byteIn v).buf, idx := (s.byteIn v).idx, ovf := (s.byteIn v).ovf } := by
  obtain ⟨-, h⟩ | ⟨-, -, h⟩ | ⟨-, -, h⟩ := s.byteIn_cases v <;> rw [h] <;> rfl

theorem State.byteIn_of_room {s : State} (ho : s.ovf = false) (hi : s.idx.toNat < s.cfg.cap) (v : Byte) :
    s.byteIn v = s.store v := by
  simp [State.byteIn, ho, hi]

/-- Without room the frame is marked oversized, or was already. -/
theorem State.byteIn_of_no_room {s : State} (h : ¬ (s.ovf = false ∧ s.idx.toNat < s.cfg.cap)) (v : Byte) :
    s.byteIn v = s.markOversize := by
  obtain ⟨ho, e⟩ | ⟨ho, hi, -⟩ | ⟨-, -, e⟩ := s.byteIn_cases v
  · rw [e, State.markOversize, ← ho]
  · exact absurd ⟨ho, hi⟩ h
  · exact e

/-! RX_STEP (R160) -/

/-- The state in which RX_STEP processes the listed byte it takes: the view invalidated, one byte consumed. -/
def State.tookByte (rest : List (Option Byte)) (s : State) : State := s.invalidateView.polled rest 1

theorem exec_rxStep_listed {s : State} {b : Byte} {rest : List (Option Byte)} (h : s.rx.answers = some b :: rest) :
    exec .rxStep s = (rxByte intercept b (s.tookByte rest)).finally finishStep := by
  simp only [exec, execRxStep, State.rxPoll_some (s := s.invalidateView) h, State.tookByte]

theorem exec_rxStep_esc {s : State} {rest : List (Option Byte)} (h : s.rx.answers = some slipEsc :: rest) :
    exec .rxStep s = .next (((s.tookByte rest).setEsc true).finish .byte 0) := by
  rw [exec_rxStep_listed h, rxByte_esc]
  rfl

theorem exec_rxStep_data {s : State} {b : Byte} {rest : List (Option Byte)} (h : s.rx.answers = some b :: rest)
    (hend : b ≠ slipEnd) (hesc : b ≠ slipEsc) :
    exec .rxStep s = .next ((((s.tookByte rest).setEsc false).byteIn
      (if s.esc = true ∧ b = slipEscEnd then slipEnd else if s.esc = true ∧ b = slipEscEsc then slipEsc
        else b)).finish .byte 0) := by
  rw [exec_rxStep_listed h, rxByte_data _ hend hesc, decodedByte_eq]
  rfl

/-- Settles O34: the byte is stored where there is room, and marks the frame oversized elsewhere. -/
theorem rxStepDecodesAndStores : Obligations.RxStepDecodesAndStores := by
  refine ⟨fun s rest h => exec_rxStep_esc h, ?_⟩
  intro s b rest h hend hesc v stored
  let u := (s.tookByte rest).setEsc false
  refine ⟨(u.byteIn v).finish .byte 0, exec_rxStep_data h hend hesc, ?frame, ?store, ?noStore⟩
  case frame =>
    rw [State.byteIn_frame v u]
    rfl
  case store =>
    rintro ⟨ho, hi⟩
    have hstore : u.byteIn v = u.store v := State.byteIn_of_room (s := u) ho hi v
    rw [hstore]
    exact ⟨State.store_byteAt_same v u, State.store_idx_toNat (s := u) hi v, ho,
      fun a ha => State.store_byteAt_other v u ha⟩
  case noStore =>
    intro hfull
    have hmark : u.byteIn v = u.markOversize := State.byteIn_of_no_room (s := u) hfull v
    rw [hmark]
    exact ⟨rfl, rfl, rfl⟩

end Sys2Proof.Machine
end

section
/-! The CRC engine: the transform is linear over exclusive or, runs of zeros, CRC_CLR and CRC_ADD alone and in sequence,
and statements O28, O29, O14, O15 and O27. -/

namespace Sys2Proof.Machine

/-! The transform as a composition of maps linear over exclusive or (R120) -/

/-- A map of accumulators that goes through exclusive or. -/
def XorLinear (f : Half → Half) : Prop := ∀ x y, f (x ^^^ y) = f x ^^^ f y

theorem XorLinear.comp {f g : Half → Half} (hf : XorLinear f) (hg : XorLinear g) : XorLinear fun x => f (g x) :=
  fun x y => (congrArg f (hg x y)).trans (hf (g x) (g y))

theorem XorLinear.xor {f g : Half → Half} (hf : XorLinear f) (hg : XorLinear g) : XorLinear fun x => f x ^^^ g x :=
  fun x y => by
    simp only [hf x y, hg x y]
    ac_rfl

theorem xorLinear_id : XorLinear fun x => x := fun _ _ => rfl

theorem xorLinear_shiftLeft (n : Nat) : XorLinear (· <<< n) := fun x y => BitVec.shiftLeft_xor_distrib x y n

theorem xorLinear_ushiftRight (n : Nat) : XorLinear (· >>> n) := fun x y => BitVec.ushiftRight_xor_distrib x y n

theorem xorLinear_and (mask : Half) : XorLinear (· &&& mask) := fun x y => by
  ext i
  simp [Bool.and_xor_distrib_right]

/-- The two halves of the swap share no bit, so its inclusive or is an exclusive one. -/
theorem rotateBytes_eq_xor (a : Half) : rotateBytes a = (a <<< 8) ^^^ (a >>> 8) := by
  rw [rotateBytes]
  ext i hi
  by_cases hlow : i < 8
  · simp [hlow]
  · have hhigh : a.getLsbD (8 + i) = false := BitVec.getLsbD_of_ge a (8 + i) (by omega)
    simp [hhigh]

theorem xorLinear_rotateBytes : XorLinear rotateBytes := by
  rw [funext rotateBytes_eq_xor]
  exact (xorLinear_shiftLeft 8).xor (xorLinear_ushiftRight 8)

/-- Each assignment of R120 is linear in the value before it. -/
theorem xorLinear_crcStep_zero : XorLinear (crcStep · 0) := by
  have enter : XorLinear fun x => x ^^^ (0 : Byte).setWidth 16 := by
    simpa using xorLinear_id
  have left : XorLinear fun x => x ^^^ ((x &&& 0xFF00) <<< 4) :=
    xorLinear_id.xor ((xorLinear_shiftLeft 4).comp (xorLinear_and 0xFF00))
  have right : XorLinear fun x => x ^^^ ((x >>> 8) >>> 4) :=
    xorLinear_id.xor ((xorLinear_ushiftRight 4).comp (xorLinear_ushiftRight 8))
  have last : XorLinear fun x => x ^^^ ((x &&& 0xFF00) >>> 5) :=
    xorLinear_id.xor ((xorLinear_ushiftRight 5).comp (xorLinear_and 0xFF00))
  exact last.comp (right.comp (left.comp (xorLinear_rotateBytes.comp enter)))

theorem crcStep_xor (a b : Half) (v w : Byte) : crcStep (a ^^^ b) (v ^^^ w) = crcStep a v ^^^ crcStep b w := by
  have hargs : a ^^^ b ^^^ (v ^^^ w).setWidth 16 = a ^^^ v.setWidth 16 ^^^ (b ^^^ w.setWidth 16) := by
    rw [BitVec.setWidth_xor]
    ac_rfl
  calc crcStep (a ^^^ b) (v ^^^ w) = crcStep (a ^^^ v.setWidth 16 ^^^ (b ^^^ w.setWidth 16)) 0 := by
        rw [crcStep_eq_xor, hargs]
    _ = crcStep (a ^^^ v.setWidth 16) 0 ^^^ crcStep (b ^^^ w.setWidth 16) 0 := xorLinear_crcStep_zero _ _
    _ = crcStep a v ^^^ crcStep b w := by rw [← crcStep_eq_xor, ← crcStep_eq_xor]

/-- Settles O28. -/
theorem crcStepIsLinear : Obligations.CrcStepIsLinear := crcStep_xor

/-! Runs of zeros (R125) -/

@[simp] theorem crcStep_zero_zero : crcStep 0 0 = 0 := rfl

@[simp] theorem crcFold_zeros (n : Nat) : crcFold 0 (List.replicate n 0) = 0 := by
  induction n with
  | zero => rfl
  | succ n ih => rw [List.replicate_succ, crcFold_cons, crcStep_zero_zero, ih]

/-- Settles O27. -/
theorem crcOfZeros : Obligations.CrcOfZeros := ⟨crcStep_zero_zero, crcFold_zeros⟩

/-! CRC_CLR and CRC_ADD -/

/-- CRC_CLR writes CRC, EVT and RESULT (R121). -/
theorem exec_crcClr (s : State) : exec .crcClr s = .next ((s.setCrc 0).finish .ok 0) := rfl

/-- CRC_ADD writes CRC, EVT and RESULT (R122). -/
theorem exec_crcAdd (b : Byte) (s : State) :
    exec (.crcAdd b) s = .next ((s.setCrc (crcStep s.crc b)).finish .ok ((crcStep s.crc b).setWidth 32)) := rfl

/-- Settles O14. -/
theorem crcClrResult : Obligations.CrcClrResult :=
  ⟨exec_crcClr, rfl, fun _ => illegalWord_rowZ (opc := 0x01) rfl (by decide)⟩

/-- Settles O15. -/
theorem crcAddResult : Obligations.CrcAddResult :=
  ⟨exec_crcAdd, fun _ => encode_rowB (opc := 0x02) rfl rfl rfl, fun _ => illegalWord_rowB (opc := 0x02) rfl (by decide),
    crcStep_zero_zero, by decide⟩

/-! A sequence of CRC_ADD -/

theorem issue_cons {i : Instr} {s t : State} (h : exec i s = .next t) (is : List Instr) :
    issue (i :: is) s = issue is t := by
  simp only [issue, h]

/-- CRC_ADD of each byte folds the sequence into CRC; the last one writes RESULT. -/
theorem issue_crcAdds (bs : List Byte) (c : Half) (r : Word) (s : State) :
    issue (bs.map .crcAdd) ((s.setCrc c).finish .ok r) =
      .next ((s.setCrc (crcFold c bs)).finish .ok (if bs = [] then r else (crcFold c bs).setWidth 32)) := by
  induction bs generalizing c r with
  | nil => rfl
  | cons b bs ih =>
    have hfirst : exec (.crcAdd b) ((s.setCrc c).finish .ok r) =
        .next ((s.setCrc (crcStep c b)).finish .ok ((crcStep c b).setWidth 32)) := exec_crcAdd b _
    rw [List.map_cons, issue_cons hfirst, ih]
    cases bs <;> rfl

/-- Settles O29: CRC_CLR leaves the accumulator at the initial value of the fold (R124). -/
theorem crcAddsComputeChecksum : Obligations.CrcAddsComputeChecksum := by
  intro bs s
  refine ⟨if bs = [] then 0 else (bs.foldl crcStep 0).setWidth 32, ?_, fun h => if_neg h⟩
  rw [issue_cons (exec_crcClr s), issue_crcAdds]
  rfl

end Sys2Proof.Machine
end

section
/-! The outbound primitives, the operations of TX_REQUEST as one sent body, and statements O18, O19, O20, O21 and
O59. -/

namespace Sys2Proof.Machine

/-! The primitives, each as its writes to the TX log and to CRC -/

theorem exec_txBegin (s : State) : exec .txBegin s = .next (s.openFrame.finish .ok 1) := rfl

theorem exec_txByte (b : Byte) (s : State) :
    exec (.txByte b) s = .next (((s.txWrite (escape b)).setCrc (crcStep s.crc b)).finish .ok (encodeCount b)) := rfl

theorem exec_txPad (n : Half) (s : State) :
    exec (.txPad n) s = .next (((s.txWrite (List.replicate (padCount n) 0)).setCrc
      (crcFold s.crc (List.replicate (padCount n) 0))).finish .ok (BitVec.ofNat 32 (padCount n))) := by
  rw [← State.sendPads_eq]
  rfl

theorem exec_txFinal (s : State) : exec .txFinal s = .next (s.closeFrame.finish .ok (s.crc.setWidth 32)) := rfl

theorem lo8_eq_setWidth (v : Half) : lo8 v = v.setWidth 8 := (BitVec.setWidth_eq_extractLsb' (by omega)).symm

theorem hi8_eq_setWidth (v : Half) : hi8 v = (v >>> 8).setWidth 8 :=
  BitVec.eq_of_toNat_eq (by simp [hi8])

/-- Settles O18. -/
theorem txBeginResult : Obligations.TxBeginResult :=
  ⟨exec_txBegin, rfl, fun _ => illegalWord_rowZ (opc := 0x05) rfl (by decide)⟩

/-- Settles O19. -/
theorem txByteResult : Obligations.TxByteResult := by
  refine ⟨fun b s => ?_, fun b => encode_rowB (opc := 0x06) rfl rfl rfl,
    fun n => illegalWord_rowB (opc := 0x06) rfl (by decide), by decide⟩
  rw [exec_txByte, encodeCount_eq]
  rfl

/-- The word of an operation with a 16-bit operand. -/
theorem encode_rowH {i : Instr} {opc : Byte} {n : Half} {base : Word} (hbase : opc.setWidth 32 <<< 24 = base)
    (hopc : opcodeOf i = opc) (hn : operandOf i = n) : encode i = base + n.setWidth 32 := by
  rw [encode_eq_add, hopc, hbase, hn]

/-- Settles O20: every n is legal as its class H bounds it by its width alone. -/
theorem txPadResult : Obligations.TxPadResult := by
  refine ⟨exec_txPad, fun n => ?_⟩
  have hword : encode (.txPad n) = 0x07000000 + n.setWidth 32 := encode_rowH (opc := 0x07) rfl rfl rfl
  exact ⟨hword, hword ▸ decode_encode rfl⟩

/-- Settles O21. -/
theorem txFinalResult : Obligations.TxFinalResult := by
  refine ⟨fun s => ?_, rfl, fun _ => illegalWord_rowZ (opc := 0x08) rfl (by decide)⟩
  rw [exec_txFinal, State.closeFrame_eq, lo8_eq_setWidth, hi8_eq_setWidth, ← State.txWrite_txWrite,
    ← State.txWrite_txWrite]
  rfl

/-! Sequences of operations that send body bytes -/

theorem State.sendBytes_append (bs cs : List Byte) (s : State) :
    s.sendBytes (bs ++ cs) = (s.sendBytes bs).sendBytes cs := List.foldl_append

/-- A zero has no escaped form but itself, so pad bytes are body bytes (R132). -/
theorem State.sendPads_eq_sendBytes (k : Nat) (s : State) : s.sendPads k = s.sendBytes (List.replicate k 0) := by
  have hzeros : (List.replicate k (0 : Byte)).flatMap escape = List.replicate k 0 := by
    induction k with
    | zero => rfl
    | succ k ih => rw [List.replicate_succ, List.flatMap_cons, ih, escape_zero, List.singleton_append]
  rw [State.sendPads_eq, State.sendBytes_eq, hzeros]

theorem issue_append {is js : List Instr} {s t : State} (h : issue is s = .next t) :
    issue (is ++ js) s = issue js t := by
  induction is generalizing s with
  | nil => cases h; rfl
  | cons i is ih =>
    cases he : exec i s with
    | next u =>
      rw [issue_cons he] at h
      rw [List.cons_append, issue_cons he, ih h]
    | fault r => simp [issue, he] at h
    | refused r => simp [issue, he] at h

/-- The operations send the bytes as body bytes, where they follow an operation that ended with EVT = OK, as TX_BEGIN
does; RESULT is their own. -/
def Sends (is : List Instr) (bs : List Byte) : Prop :=
  ∀ (s : State) (r : Word), ∃ r', issue is (s.finish .ok r) = .next ((s.sendBytes bs).finish .ok r')

theorem Sends.nil : Sends [] [] := fun _ r => ⟨r, rfl⟩

theorem Sends.append {is js : List Instr} {bs cs : List Byte} (hi : Sends is bs) (hj : Sends js cs) :
    Sends (is ++ js) (bs ++ cs) := by
  intro s r
  obtain ⟨r₁, h₁⟩ := hi s r
  obtain ⟨r₂, h₂⟩ := hj (s.sendBytes bs) r₁
  exact ⟨r₂, by rw [issue_append h₁, h₂, State.sendBytes_append]⟩

theorem Sends.txByte (b : Byte) : Sends [.txByte b] [b] := fun _ _ => ⟨encodeCount b, rfl⟩

theorem Sends.txPad (n : Half) : Sends [.txPad n] (List.replicate (padCount n) 0) := fun s r =>
  ⟨BitVec.ofNat 32 (padCount n), by
    rw [issue_cons (exec_txPad n _), ← State.sendPads_eq_sendBytes, State.sendPads_eq]
    rfl⟩

theorem Sends.txBytes (bs : List Byte) : Sends (bs.map .txByte) bs := by
  induction bs with
  | nil => exact .nil
  | cons b bs ih => exact (Sends.txByte b).append ih

/-- The operations of one parameter send its length, its data and its padding (R84). -/
theorem Sends.txParam (p : List Byte) : Sends (txParam p) (paramBytes p) :=
  ((Sends.txBytes _).append (.txBytes p)).append (.txPad _)

theorem Sends.txParams (ps : List (List Byte)) : Sends (ps.flatMap Machine.txParam) (ps.flatMap paramBytes) := by
  induction ps with
  | nil => exact .nil
  | cons p ps ih =>
    rw [List.flatMap_cons, List.flatMap_cons]
    exact (Sends.txParam p).append ih

/-- What stands between TX_BEGIN and TX_FINAL in TX_REQUEST. -/
def requestBodyOps (cmd argc : Half) (value : Word) (ps : List (List Byte)) : List Instr :=
  txU16 cmd ++ txU16 argc ++ txU32 value ++ ps.flatMap txParam

theorem Sends.requestBody (cmd argc : Half) (value : Word) (ps : List (List Byte)) :
    Sends (requestBodyOps cmd argc value ps) (requestBody cmd argc value ps) :=
  (((Sends.txBytes _).append (.txBytes _)).append (.txBytes _)).append (.txParams ps)

/-! A whole frame -/

/-- A sent frame is the wire form of its body, whose checksum stays in CRC (R72, R134). -/
theorem State.closeFrame_sendBytes_openFrame (body : List Byte) (s : State) :
    (s.openFrame.sendBytes body).closeFrame = (s.txWrite (wireFrame body)).setCrc (crc16 body) := by
  simp [State.closeFrame_eq, State.sendBytes_eq, State.openFrame_eq, State.txWrite_setCrc, crc16, wireFrame, escapeAll,
    bytes16]

theorem issue_frame {is : List Instr} {body : List Byte} (h : Sends is body) (s : State) :
    issue (.txBegin :: is ++ [.txFinal]) s =
      .next (((s.txWrite (wireFrame body)).setCrc (crc16 body)).finish .ok ((crc16 body).setWidth 32)) := by
  obtain ⟨r, hr⟩ := h s.openFrame 1
  have hbody : issue (.txBegin :: is) s = .next ((s.openFrame.sendBytes body).finish .ok r) :=
    (issue_cons (exec_txBegin s) is).trans hr
  have hcrc : (s.openFrame.sendBytes body).crc = crc16 body := by
    rw [State.sendBytes_eq]
    rfl
  rw [issue_append hbody, issue_cons (exec_txFinal _), ← State.closeFrame_sendBytes_openFrame, ← hcrc]
  rfl

theorem issue_txRequest {cmd argc : Half} {value : Word} {ps : List (List Byte)} {is : List Instr}
    (h : txRequest cmd argc value ps = some is) (s : State) :
    let body := requestBody cmd argc value ps
    issue is s = .next (((s.txWrite (wireFrame body)).setCrc (crc16 body)).finish .ok ((crc16 body).setWidth 32)) := by
  have his : is = .txBegin :: requestBodyOps cmd argc value ps ++ [.txFinal] := by
    unfold txRequest at h
    split at h
    · simpa [requestBodyOps] using h.symm
    · cases h
  rw [his]
  exact issue_frame (.requestBody cmd argc value ps) s

/-- Settles O59. -/
theorem requestIsWrittenAsFrame : Obligations.RequestIsWrittenAsFrame := by
  intro s cmd argc value ps ops h body
  rw [issue_txRequest h s]
  rfl

end Sys2Proof.Machine
end

section
/-! A wire frame through `TryReceive`: byte by byte into the assembler, and at its END to the hook as a packet; what
a packet's view reads; and statement O60. -/

namespace Sys2Proof.Machine

/-! Decoded bytes into the assembler (R151) -/

/-- `ByteIn` of each byte in order. -/
def State.byteIns (bs : List Byte) (s : State) : State := bs.foldl (fun t v => t.byteIn v) s

theorem State.byteIns_cons (b : Byte) (bs : List Byte) (s : State) : s.byteIns (b :: bs) = (s.byteIn b).byteIns bs := rfl

@[simp] theorem State.byteIn_esc (v : Byte) (s : State) : (s.byteIn v).esc = s.esc := by
  rw [State.byteIn_frame]

@[simp] theorem State.byteIn_rx (v : Byte) (s : State) : (s.byteIn v).rx = s.rx := by
  rw [State.byteIn_frame]

/-- The bytes write the buffer, IDX and OVF only. -/
theorem State.byteIns_frame (bs : List Byte) (s : State) :
    s.byteIns bs = { s with buf := (s.byteIns bs).buf, idx := (s.byteIns bs).idx, ovf := (s.byteIns bs).ovf } := by
  induction bs generalizing s with
  | nil => rfl
  | cons b bs ih =>
    rw [State.byteIns_cons, ih, State.byteIn_frame]

theorem State.byteIns_cfg (bs : List Byte) (s : State) : (s.byteIns bs).cfg = s.cfg := by
  rw [State.byteIns_frame]

theorem State.byteIns_rx (bs : List Byte) (s : State) : (s.byteIns bs).rx = s.rx := by
  rw [State.byteIns_frame]

theorem State.polled_polled (r r' : List (Option Byte)) (n n' : Nat) (s : State) :
    (s.polled r n).polled r' n' = s.polled r' (n + n') := by
  simp [State.polled, Nat.add_assoc]

/-- The assembler and the transport do not meet. -/
theorem State.polled_byteIn (r : List (Option Byte)) (n : Nat) (v : Byte) (s : State) :
    (s.polled r n).byteIn v = (s.byteIn v).polled r n := by
  simp only [State.byteIn, State.polled_ovf, State.polled_idx, State.polled_cfg, apply_ite (State.polled r n)]
  rfl

theorem State.polled_byteIns (r : List (Option Byte)) (n : Nat) (bs : List Byte) (s : State) :
    (s.polled r n).byteIns bs = (s.byteIns bs).polled r n := by
  induction bs generalizing s with
  | nil => rfl
  | cons b bs ih => rw [State.byteIns_cons, State.polled_byteIn, ih, State.byteIns_cons]

/-- With room for all of them the bytes are stored one behind another. -/
theorem State.byteIns_of_room {bs : List Byte} {s : State} (ho : s.ovf = false)
    (hroom : s.idx.toNat + bs.length ≤ s.cfg.cap) :
    (s.byteIns bs).ovf = false ∧ (s.byteIns bs).idx.toNat = s.idx.toNat + bs.length ∧
      (s.byteIns bs).span (s.idx.toNat + bs.length) = s.span s.idx.toNat ++ bs := by
  induction bs generalizing s with
  | nil => exact ⟨ho, rfl, (List.append_nil _).symm⟩
  | cons b bs ih =>
    rw [List.length_cons] at hroom
    have hlt : s.idx.toNat < s.cfg.cap := by omega
    have hidx := State.store_idx_toNat hlt b
    obtain ⟨hovf, hlen, hspan⟩ := ih (s := s.store b) ho (by rw [hidx, State.store_cfg]; omega)
    rw [hidx, State.store_span, List.append_assoc, List.singleton_append] at hspan
    rw [State.byteIns_cons, State.byteIn_of_room ho hlt, List.length_cons, Nat.add_comm bs.length, ← Nat.add_assoc]
    exact ⟨hovf, hlen.trans (by rw [hidx]), hspan⟩

/-! Bytes that end no packet (R158) -/

theorem handOver_append (ws ws' : List Byte) : handOver (ws ++ ws') = handOver ws ++ handOver ws' := List.map_append

theorem escapeAll_append (bs cs : List Byte) : escapeAll (bs ++ cs) = escapeAll bs ++ escapeAll cs :=
  List.flatMap_append

theorem State.setEsc_of_esc {s : State} {e : Bool} (h : s.esc = e) : s.setEsc e = s := h ▸ s.setEsc_self

section
variable {hook : State → Proc ByteResult} (hh : HookReports hook)
include hh

/-- `TryReceive` goes on after a listed byte with which the packet has not ended. -/
theorem tryReceive_goesOn {s t : State} {b : Byte} {rest : List (Option Byte)} {r : ByteResult}
    (h : s.rx.answers = some b :: rest) (hb : rxByte hook b (s.polled rest 1) = .ends r t)
    (hr : r = .byte ∨ r = .empty ∨ r = .dropped) : tryReceive hook s = tryReceive hook t := by
  rw [tryReceive_some hh h, hb]
  obtain rfl | rfl | rfl := hr <;> rfl

/-- An escape pair is the byte it stands for (R104, R106). -/
theorem tryReceive_escapePair {s : State} {b : Byte} {rest : List (Option Byte)} (hs : s.esc = false)
    (hend : b ≠ slipEnd) (hesc : b ≠ slipEsc) (h : s.rx.answers = some slipEsc :: some b :: rest) :
    tryReceive hook s = tryReceive hook ((s.polled rest 2).byteIn (unescape b)) := by
  have hclear : (((s.polled (some b :: rest) 1).setEsc true).polled rest 1).setEsc false = s.polled rest 2 :=
    State.setEsc_of_esc (s := s.polled rest 2) hs
  rw [tryReceive_goesOn hh h (rxByte_esc hook _) (.inl rfl),
    tryReceive_goesOn hh rfl (rxByte_data hook hend hesc _) (.inl rfl), hclear]
  rfl

/-- The escaped form of a byte puts the byte into the assembler. -/
theorem tryReceive_escape {s : State} {b : Byte} {rest : List (Option Byte)} (hs : s.esc = false)
    (h : s.rx.answers = handOver (escape b) ++ rest) :
    tryReceive hook s = tryReceive hook ((s.polled rest (escape b).length).byteIn b) := by
  obtain ⟨rfl, e⟩ | ⟨rfl, e⟩ | ⟨hend, hesc, e⟩ := escape_cases b <;> rw [e] at h ⊢
  · rw [tryReceive_escapePair hh hs (by decide) (by decide) h, unescape_escEnd]
    rfl
  · rw [tryReceive_escapePair hh hs (by decide) (by decide) h, unescape_escEsc]
    rfl
  · have hdata : rxByte hook b (s.polled rest 1) = .ends .byte ((s.polled rest 1).byteIn b) := by
      rw [rxByte_data hook hend hesc, State.setEsc_of_esc (s := s.polled rest 1) hs, State.polled_esc, hs]
      rfl
    exact tryReceive_goesOn hh h hdata (.inl rfl)

/-- The escaped form of a sequence puts its bytes into the assembler, one after another. -/
theorem tryReceive_escapeAll {bs : List Byte} {s : State} {rest : List (Option Byte)} (hs : s.esc = false)
    (h : s.rx.answers = handOver (escapeAll bs) ++ rest) :
    tryReceive hook s = tryReceive hook ((s.polled rest (escapeAll bs).length).byteIns bs) := by
  induction bs generalizing s with
  | nil =>
    have hself : s.polled rest 0 = s := by
      have hrest : s.rx.answers = rest := h
      rw [← hrest]
      rfl
    exact congrArg _ hself.symm
  | cons b bs ih =>
    have hsplit : escapeAll (b :: bs) = escape b ++ escapeAll bs := rfl
    rw [hsplit, handOver_append, List.append_assoc] at h
    rw [tryReceive_escape hh hs h, ih (by simpa using hs) (by simp), hsplit, List.length_append, State.polled_byteIn,
      State.polled_polled, State.byteIns_cons, State.polled_byteIn]

end

/-! A frame's END (R152, R157) -/

theorem State.frameEnd_of_empty {s : State} (hi : s.idx = 0) (ho : s.ovf = false) :
    s.frameEnd = (.empty, s.clearFrame) := by
  simp [State.frameEnd, State.judgeFrame, hi, ho]

/-- The END that opens a frame closes an empty one, which clears the assembler. -/
theorem rxByte_end_of_empty (hook : State → Proc ByteResult) {s : State} (hi : s.idx = 0) (ho : s.ovf = false) :
    rxByte hook slipEnd s = .ends .empty s.clearFrame := by
  have hheld : (s.setEsc false).holds s.idx.toNat = true := decide_eq_true (hi ▸ Nat.zero_le _)
  have hframe : (s.setEsc false).frameEnd = (.empty, s.clearFrame) := State.frameEnd_of_empty hi ho
  simp [rxByte_end, rxBoundary, hheld, hframe]

/-- The state in which a frame that validates is handed on: the computed checksum in CRC, the view shown, the assembler
cleared (R152, R154). -/
def State.accepted (s : State) : State := ((s.setCrc (s.frameCrc s.idx)).showView s.idx).clearFrame

theorem State.frameEnd_of_valid {s : State} (ho : s.ovf = false) (hmin : 8 ≤ s.idx.toNat)
    (hcrc : s.frameCrc s.idx = s.carriedCrc s.idx) : s.frameEnd = (.packet, s.accepted) := by
  obtain ⟨h, -⟩ | ⟨-, h, -⟩ | ⟨-, -, h, -⟩ | ⟨-, -, h, -⟩ | ⟨-, -, -, h⟩ := s.frameEnd_cases
  · exact absurd (ho.symm.trans h) (by decide)
  · exact absurd hmin (by rw [h]; decide)
  · omega
  · exact absurd hcrc h
  · exact h

theorem rxByte_end_of_valid (hook : State → Proc ByteResult) {s : State} (ho : s.ovf = false) (hmin : 8 ≤ s.idx.toNat)
    (hcap : s.idx.toNat ≤ s.cfg.cap) (hcrc : s.frameCrc s.idx = s.carriedCrc s.idx) :
    rxByte hook slipEnd s = hook s.accepted := by
  have hheld : (s.setEsc false).holds s.idx.toNat = true := decide_eq_true hcap
  have hframe : (s.setEsc false).frameEnd = (.packet, s.accepted) := State.frameEnd_of_valid ho hmin hcrc
  simp [rxByte_end, rxBoundary, hheld, hframe]

/-! Spans of the buffer -/

theorem State.take_span {m n : Nat} (h : m ≤ n) (s : State) : (s.span n).take m = s.span m := by
  rw [State.span, ← List.map_take, List.take_range, Nat.min_eq_left h, State.span]

/-- A span's first part. -/
theorem State.span_of_append {s : State} {xs ys : List Byte} {n : Nat} (h : s.span n = xs ++ ys) :
    s.span xs.length = xs := by
  have hlen : n = xs.length + ys.length := by rw [← State.span_length s n, h, List.length_append]
  rw [← State.take_span (n := n) (by omega), h, List.take_left]

/-- The byte behind a span's first part. -/
theorem State.byteAt_of_append {s : State} {xs ys : List Byte} {b : Byte} {n : Nat} (h : s.span n = xs ++ b :: ys) :
    s.byteAt xs.length = b := by
  have hlt : xs.length < n := by rw [← State.span_length s n, h, List.length_append, List.length_cons]; omega
  have hget : (s.span n)[xs.length]? = some (s.byteAt xs.length) := by simp [State.span, hlt]
  rw [h] at hget
  simpa using hget.symm

@[simp] theorem u16le_bytes (v : Half) : u16le (lo8 v) (hi8 v) = v := by
  ext i hi
  simp only [u16le, lo8, hi8, BitVec.getElem_or, BitVec.getElem_shiftLeft, BitVec.getElem_setWidth,
    BitVec.getLsbD_extractLsb']
  grind

/-! A whole frame (R165) -/

/-- The frame of a body: the body and its checksum, low byte first. -/
def framed (body : List Byte) : List Byte := body ++ bytes16 (crc16 body)

theorem length_framed (body : List Byte) : (framed body).length = body.length + 2 := List.length_append

theorem wireFrame_eq (body : List Byte) : wireFrame body = slipEnd :: (escapeAll (framed body) ++ [slipEnd]) := by
  simp [wireFrame, framed, escapeAll_append]

/-- A frame that a body and its checksum fill validates. -/
theorem State.frame_valid {s : State} {body : List Byte} {n : Half} (hn : n.toNat = body.length + 2)
    (h : s.span n.toNat = framed body) : s.frameCrc n = crc16 body ∧ s.carriedCrc n = crc16 body := by
  have hlow : s.byteAt body.length = lo8 (crc16 body) := State.byteAt_of_append h
  have hhigh : s.byteAt (body.length + 1) = hi8 (crc16 body) := by
    have hsplit : framed body = (body ++ [lo8 (crc16 body)]) ++ [hi8 (crc16 body)] := by simp [framed, bytes16]
    simpa using State.byteAt_of_append (h.trans hsplit)
  rw [State.frameCrc, State.carriedCrc, hn, Nat.add_sub_cancel, State.span_of_append h, hlow,
    show body.length + 2 - 1 = body.length + 1 from rfl, hhigh, u16le_bytes]
  exact ⟨rfl, rfl⟩

/-- A cleared assembler that has taken a frame, n wire bytes consumed and `rest` left with the peer. -/
def State.filled (body : List Byte) (rest : List (Option Byte)) (n : Nat) (s : State) : State :=
  (s.clearFrame.polled rest n).byteIns (framed body)

/-- The state in which the wire form of a body is handed on as a packet. -/
def State.received (body : List Byte) (rest : List (Option Byte)) (s : State) : State :=
  (s.filled body rest (wireFrame body).length).accepted

section
variable {s : State} {body : List Byte} {rest : List (Option Byte)} {n : Nat}

theorem State.filled_cfg : (s.filled body rest n).cfg = s.cfg := State.byteIns_cfg _ _

theorem State.filled_rx : (s.filled body rest n).rx = ⟨rest, s.rx.tail⟩ := State.byteIns_rx _ _

theorem State.filled_polled (r : List (Option Byte)) (m : Nat) :
    (s.filled body r m).polled rest n = s.filled body rest (m + n) := by
  rw [State.filled, ← State.polled_byteIns, State.polled_polled, State.filled]

theorem State.received_cfg : (s.received body rest).cfg = s.cfg := State.filled_cfg

theorem State.received_pktValid : (s.received body rest).pktValid = true := rfl

section
variable (hcap : body.length + 2 ≤ s.cfg.cap)
include hcap

/-- The frame fits the cleared assembler. -/
theorem State.filled_fits :
    (s.filled body rest n).ovf = false ∧ (s.filled body rest n).idx.toNat = body.length + 2 ∧
      (s.filled body rest n).span (body.length + 2) = framed body := by
  simpa [length_framed, State.filled, State.span] using
    State.byteIns_of_room (bs := framed body) (s := s.clearFrame.polled rest n) rfl (by simpa [length_framed] using hcap)

theorem State.received_flen : (s.received body rest).flen.toNat = body.length + 2 := by
  obtain ⟨-, hidx, -⟩ := State.filled_fits (rest := rest) (n := (wireFrame body).length) hcap
  exact hidx

theorem State.received_span : (s.received body rest).span (body.length + 2) = framed body := by
  obtain ⟨-, -, hspan⟩ := State.filled_fits (rest := rest) (n := (wireFrame body).length) hcap
  exact hspan

/-- The END behind a frame of at least 8 bytes hands it on. -/
theorem rxByte_end_of_filled (hook : State → Proc ByteResult) (hmin : 6 ≤ body.length) :
    rxByte hook slipEnd (s.filled body rest n) = hook (s.filled body rest n).accepted := by
  obtain ⟨hovf, hidx, hspan⟩ := State.filled_fits (rest := rest) (n := n) hcap
  obtain ⟨hcomputed, hcarried⟩ := State.frame_valid hidx (hidx ▸ hspan)
  exact rxByte_end_of_valid hook hovf (by omega) (by rw [hidx, State.filled_cfg]; exact hcap)
    (hcomputed.trans hcarried.symm)

end

/-- The END that opens a frame and the bytes behind it fill the assembler. -/
theorem tryReceive_opened {hook : State → Proc ByteResult} (hh : HookReports hook) (hi : s.idx = 0)
    (ho : s.ovf = false) (h : s.rx.answers = handOver (slipEnd :: escapeAll (framed body)) ++ rest) :
    tryReceive hook s = tryReceive hook (s.filled body rest (1 + (escapeAll (framed body)).length)) := by
  have hopen : tryReceive hook s = tryReceive hook
      (s.clearFrame.polled (handOver (escapeAll (framed body)) ++ rest) 1) :=
    tryReceive_goesOn hh h (rxByte_end_of_empty hook hi ho) (.inr (.inl rfl))
  rw [hopen, tryReceive_escapeAll hh rfl rfl, State.polled_polled, State.filled]

/-- The wire form of a body, taken from an empty assembler, is handed to the hook as a packet, which surfaces where the
hook lets it. -/
theorem tryReceive_wireFrame {hook : State → Proc ByteResult} (hh : HookReports hook) (hi : s.idx = 0)
    (ho : s.ovf = false) (hmin : 6 ≤ body.length) (hcap : body.length + 2 ≤ s.cfg.cap)
    (h : s.rx.answers = handOver (wireFrame body) ++ rest)
    (hhook : hook (s.received body rest) = .ends .packet (s.received body rest)) :
    tryReceive hook s = .ends .packet (s.received body rest) := by
  have hans : s.rx.answers = handOver (slipEnd :: escapeAll (framed body)) ++ some slipEnd :: rest := by
    rw [h, wireFrame_eq, ← List.cons_append, handOver_append, List.append_assoc]
    rfl
  have hend : rxByte hook slipEnd
      ((s.filled body (some slipEnd :: rest) (1 + (escapeAll (framed body)).length)).polled rest 1) =
        .ends .packet (s.received body rest) := by
    have hlen : 1 + (escapeAll (framed body)).length + 1 = (wireFrame body).length := by
      rw [wireFrame_eq, List.length_cons, List.length_append, List.length_singleton]
      omega
    rw [State.filled_polled, hlen, rxByte_end_of_filled hcap hook hmin]
    exact hhook
  rw [tryReceive_opened hh hi ho hans, tryReceive_some hh (congrArg Peer.answers State.filled_rx), hend]

end

/-! The reads of a shown packet (R201) -/

@[simp] theorem u32le_bytes (v : Word) :
    u32le (v.extractLsb' 0 8) (v.extractLsb' 8 8) (v.extractLsb' 16 8) (v.extractLsb' 24 8) = v := by
  ext i hi
  simp only [u32le, BitVec.getElem_or, BitVec.getElem_shiftLeft, BitVec.getElem_setWidth,
    BitVec.getLsbD_extractLsb']
  grind

/-- A buffer that begins with a request's header holds its fields (R51, R72). -/
theorem State.fields_of_span {s : State} {cmd argc : Half} {value : Word} {tl : List Byte} {n : Nat}
    (h : s.span n = bytes16 cmd ++ bytes16 argc ++ bytes32 value ++ tl) :
    s.packetCmd = cmd ∧ s.packetArgc = argc ∧ s.packetValue = value := by
  have header : s.span 8 = bytes16 cmd ++ bytes16 argc ++ bytes32 value := State.span_of_append h
  obtain ⟨h0, h1, h2, h3, h4, h5, h6, h7⟩ :
      s.byteAt 0 = lo8 cmd ∧ s.byteAt 1 = hi8 cmd ∧ s.byteAt 2 = lo8 argc ∧ s.byteAt 3 = hi8 argc ∧
      s.byteAt 4 = value.extractLsb' 0 8 ∧ s.byteAt 5 = value.extractLsb' 8 8 ∧
      s.byteAt 6 = value.extractLsb' 16 8 ∧ s.byteAt 7 = value.extractLsb' 24 8 := by
    simpa [State.span, List.range_succ, bytes16, bytes32] using header
  refine ⟨?_, ?_, ?_⟩
  · rw [State.packetCmd, h0, h1, u16le_bytes]
  · rw [State.packetArgc, h2, h3, u16le_bytes]
  · rw [State.packetValue, h4, h5, h6, h7, u32le_bytes]

theorem readField_shown {n : Nat} {s : State} (hv : s.pktValid = true) (hn : n ≤ s.cfg.cap) (v : Word) :
    readField n v s = .next (s.finish .ok v) := by
  simp [readField, hv, finishRead, State.holds, hn]

/-! A request from block to block (R135) -/

theorem length_requestBody_ge (cmd argc : Half) (value : Word) (ps : List (List Byte)) :
    8 ≤ (requestBody cmd argc value ps).length := by
  simp [requestBody, bytes16, bytes32]

/-- TRY_RECV surfaces the wire form of a body that does not carry SYNC_CMD (R161, R180). -/
theorem exec_tryRecv_wireFrame {s : State} {body : List Byte} {rest : List (Option Byte)} (hi : s.idx = 0)
    (ho : s.ovf = false) (hmin : 6 ≤ body.length) (hcap : body.length + 2 ≤ s.cfg.cap)
    (h : s.rx.answers = handOver (wireFrame body) ++ rest)
    (hcmd : (s.invalidateView.received body rest).packetCmd ≠ s.cfg.syncCmd) :
    exec .tryRecv s = .next ((s.invalidateView.received body rest).finish .pkt 1) := by
  have hsurfaces : intercept (s.invalidateView.received body rest) =
      .ends .packet (s.invalidateView.received body rest) :=
    intercept_surfaces (.inl (by rw [State.received_cfg]; exact hcmd))
  have hrecv := tryReceive_wireFrame (s := s.invalidateView) intercept_reports hi ho hmin hcap h hsurfaces
  rw [exec, execTryRecv, hrecv]
  rfl

/-- What the reads answer of a received request. -/
theorem reads_of_request {t : State} {cmd argc : Half} {value : Word} {tl : List Byte} {n : Nat}
    (hv : t.pktValid = true) (hcap : 8 ≤ t.cfg.cap)
    (h : t.span n = bytes16 cmd ++ bytes16 argc ++ bytes32 value ++ tl) :
    exec (.rdreg 4) t = .next (t.finish .ok (cmd.setWidth 32)) ∧
    exec (.rdreg 5) t = .next (t.finish .ok (argc.setWidth 32)) ∧
    exec (.rdreg 6) t = .next (t.finish .ok value) := by
  obtain ⟨hcmd, hargc, hvalue⟩ := State.fields_of_span h
  subst hcmd hargc hvalue
  exact ⟨readField_shown hv (by omega) _, readField_shown hv (by omega) _, readField_shown hv hcap _⟩

/-- What the receiver of a request's wire form has (R135). -/
theorem request_received {b : State} {cmd argc : Half} {value : Word} {ps : List (List Byte)}
    {rest : List (Option Byte)} (hi : b.idx = 0) (ho : b.ovf = false)
    (hcap : (requestBody cmd argc value ps).length + 2 ≤ b.cfg.cap) (hcmd : cmd ≠ b.cfg.syncCmd)
    (h : b.rx.answers = handOver (wireFrame (requestBody cmd argc value ps)) ++ rest) :
    ∃ t, exec .tryRecv b = .next t ∧ t.evt = 0x01 ∧
      t.flen.toNat = (requestBody cmd argc value ps).length + 2 ∧
      exec (.rdreg 4) t = .next (t.finish .ok (cmd.setWidth 32)) ∧
      exec (.rdreg 5) t = .next (t.finish .ok (argc.setWidth 32)) ∧
      exec (.rdreg 6) t = .next (t.finish .ok value) ∧
      t.span (requestBody cmd argc value ps).length = requestBody cmd argc value ps := by
  have hmin := length_requestBody_ge cmd argc value ps
  generalize hbody : requestBody cmd argc value ps = body at *
  let u := b.invalidateView.received body rest
  have hspan : u.span (body.length + 2) = framed body := State.received_span (s := b.invalidateView) hcap
  have hheader : u.span (body.length + 2) =
      bytes16 cmd ++ bytes16 argc ++ bytes32 value ++ (ps.flatMap paramBytes ++ bytes16 (crc16 body)) := by
    rw [hspan, framed, ← List.append_assoc, ← hbody, requestBody]
  have hcfg : u.cfg = b.cfg := State.received_cfg
  have hvalid : u.pktValid = true := State.received_pktValid
  obtain ⟨hcmd', -, -⟩ := State.fields_of_span hheader
  obtain ⟨hread4, hread5, hread6⟩ := reads_of_request (t := u.finish .pkt 1) hvalid
    (by rw [State.finish_cfg, hcfg]; omega) hheader
  exact ⟨u.finish .pkt 1, exec_tryRecv_wireFrame hi ho (by omega) hcap h (hcmd'.symm ▸ hcmd), rfl,
    State.received_flen (s := b.invalidateView) hcap, hread4, hread5, hread6, State.span_of_append hspan⟩

/-- The body of the source's example request (R135): one parameter of one byte, padded to four. -/
def exampleBody : List Byte := [0x05, 0x00, 0x01, 0x00, 0x00, 0x00, 0x00, 0x00, 0x01, 0x00, 0x41, 0x00, 0x00, 0x00]

theorem requestBody_example : requestBody 0x0005 1 0 [[0x41]] = exampleBody := rfl

theorem crc16_exampleBody : crc16 exampleBody = 0x0621 := by decide

/-- No byte of the example is a reserved one. -/
theorem wireFrame_exampleBody : wireFrame exampleBody = [0xC0] ++ exampleBody ++ [0x21, 0x06] ++ [0xC0] := by
  have hbody : escapeAll exampleBody = exampleBody := by decide
  have hcrc : escapeAll (bytes16 0x0621) = [0x21, 0x06] := by decide
  rw [wireFrame, crc16_exampleBody, hbody, hcrc]
  rfl

/-- Settles O60: the sender's log is the wire form of the request's body (O59), which a receiver takes whole. -/
theorem requestRoundTrip : Obligations.RequestRoundTrip := by
  refine ⟨?_, fun s hs => ?_⟩
  · intro a b cmd argc value ps ops rest body hops hlog hi ho hcap hcmd
    refine ⟨_, issue_txRequest hops a, fun h => request_received (rest := rest) hi ho hcap hcmd ?_⟩
    simpa [hlog] using h
  · have hops : txRequest 0x0005 1 0 [[0x41]] = some _ := if_pos (by decide)
    refine ⟨_, _, hops, issue_txRequest hops s, ?_⟩
    rw [State.finish_txLog, State.setCrc_txLog, State.txWrite_txLog, hs, requestBody_example, wireFrame_exampleBody]
    rfl

end Sys2Proof.Machine
end

section
/-! RX_STEP on a poll without a byte and at the END of a frame, and statements O32, O35 and O36. -/

namespace Sys2Proof.Machine

/-! A poll that finds no byte (R57) -/

/-- The next poll finds no byte: `none` is listed, or nothing is and the peer is silent. `rest` is listed after it. -/
def State.NextNone (s : State) (rest : List (Option Byte)) : Prop :=
  s.rx.answers = none :: rest ∨ (s.rx.answers = [] ∧ rest = [] ∧ s.rx.tail = .silent)

/-- In the second case the poll changes nothing. -/
theorem State.NextNone.listed_or_silent {s : State} {rest : List (Option Byte)} (h : s.NextNone rest) :
    s.rx.answers = none :: rest ∨ (s.rx = ⟨[], .silent⟩ ∧ s.polled rest 0 = s) := by
  obtain hlisted | ⟨hnil, rfl, htail⟩ := h
  · exact .inl hlisted
  · refine .inr ⟨by rw [← hnil, ← htail], ?_⟩
    rw [← hnil]
    rfl

theorem State.rxPoll_of_nextNone {s : State} {rest : List (Option Byte)} (h : s.NextNone rest) :
    s.rxPoll = (none, s.polled rest 0) := by
  obtain hlisted | ⟨hsilent, hself⟩ := h.listed_or_silent
  · exact State.rxPoll_none hlisted
  · rw [State.rxPoll_silent hsilent, hself]

/-- Settles O32. -/
theorem rxStepWithoutByte : Obligations.RxStepWithoutByte := by
  intro s rest h
  have hpoll : s.invalidateView.rxPoll = (none, s.invalidateView.polled rest 0) := State.rxPoll_of_nextNone h
  simp only [exec, execRxStep, hpoll]
  rfl

/-! The verdict on a frame, check by check (R152, R154) -/

theorem State.frameEnd_of_oversize {s : State} (ho : s.ovf = true) :
    s.frameEnd = (.dropped, (s.recordDrop .oversize).clearFrame) := by
  simp [State.frameEnd, State.judgeFrame, State.dropFrame, ho]

theorem State.frameEnd_of_short {s : State} (ho : s.ovf = false) (hne : s.idx ≠ 0) (hlt : s.idx.toNat < 8) :
    s.frameEnd = (.dropped, (s.recordDrop .short).clearFrame) := by
  simp only [State.frameEnd, State.judgeFrame, State.dropFrame, ho, Bool.false_eq_true, if_neg hne, if_pos hlt,
    if_false]

/-- The state in which a frame that does not validate is dropped: the computed checksum in CRC, the assembler
cleared. -/
def State.rejected (s : State) : State := ((s.setCrc (s.frameCrc s.idx)).recordDrop .crc).clearFrame

theorem State.frameEnd_of_invalid {s : State} (ho : s.ovf = false) (hmin : 8 ≤ s.idx.toNat)
    (hcrc : s.frameCrc s.idx ≠ s.carriedCrc s.idx) : s.frameEnd = (.dropped, s.rejected) := by
  obtain ⟨h, -⟩ | ⟨-, h, -⟩ | ⟨-, -, h, -⟩ | ⟨-, -, -, h⟩ | ⟨-, -, h, -⟩ := s.frameEnd_cases
  · exact absurd (ho.symm.trans h) (by decide)
  · exact absurd hmin (by rw [h]; decide)
  · omega
  · exact h
  · exact absurd h hcrc

/-- An END after a frame that is dropped (R157). The frame lies within the buffer, or is oversized. -/
theorem rxByte_end_of_dropped (hook : State → Proc ByteResult) {s t : State}
    (hin : s.ovf = true ∨ s.idx.toNat ≤ s.cfg.cap) (h : (s.setEsc false).frameEnd = (.dropped, t)) :
    rxByte hook slipEnd s = .ends .dropped t := by
  have hguard : ((s.setEsc false).ovf || (s.setEsc false).holds (s.setEsc false).idx.toNat) = true := by
    rw [Bool.or_eq_true]
    exact hin.imp id decide_eq_true
  rw [rxByte_end, rxBoundary, if_pos hguard, h]

/-! RX_STEP at END (R160) -/

theorem exec_rxStep_dropped {s t : State} {rest : List (Option Byte)} (h : s.rx.answers = some slipEnd :: rest)
    (hin : s.ovf = true ∨ s.idx.toNat ≤ s.cfg.cap)
    (hframe : ((s.tookByte rest).setEsc false).frameEnd = (.dropped, t)) :
    exec .rxStep s = .next (t.finish .drop 0) := by
  rw [exec_rxStep_listed h, rxByte_end_of_dropped intercept (s := s.tookByte rest) hin hframe]
  rfl

theorem exec_rxStep_boundary {s : State} {rest : List (Option Byte)} (h : s.rx.answers = some slipEnd :: rest)
    (hi : s.idx = 0) (ho : s.ovf = false) :
    exec .rxStep s = .next ((s.tookByte rest).clearFrame.finish .boundary 0) := by
  rw [exec_rxStep_listed h, rxByte_end_of_empty intercept (s := s.tookByte rest) hi ho]
  rfl

/-- A frame of at least 8 bytes whose checksum does not match. -/
theorem exec_rxStep_invalid {s : State} {rest : List (Option Byte)} (h : s.rx.answers = some slipEnd :: rest)
    (ho : s.ovf = false) (hmin : 8 ≤ s.idx.toNat) (hcap : s.idx.toNat ≤ s.cfg.cap)
    (hcrc : s.frameCrc s.idx ≠ s.carriedCrc s.idx) :
    exec .rxStep s = .next ((s.tookByte rest).rejected.finish .drop 0) :=
  exec_rxStep_dropped h (.inr hcap)
    (State.frameEnd_of_invalid (s := (s.tookByte rest).setEsc false) ho hmin hcrc)

/-- One whose checksum matches and that no SYNC procedure intercepts. -/
theorem exec_rxStep_valid {s : State} {rest : List (Option Byte)} (h : s.rx.answers = some slipEnd :: rest)
    (ho : s.ovf = false) (hmin : 8 ≤ s.idx.toNat) (hcap : s.idx.toNat ≤ s.cfg.cap)
    (hcrc : s.frameCrc s.idx = s.carriedCrc s.idx) (hsurfaced : s.packetCmd ≠ s.cfg.syncCmd ∨ s.syncing = true) :
    exec .rxStep s = .next ((s.tookByte rest).accepted.finish .pkt 1) := by
  rw [exec_rxStep_listed h, rxByte_end_of_valid intercept (s := s.tookByte rest) ho hmin hcap hcrc,
    intercept_surfaces (s := (s.tookByte rest).accepted) hsurfaced]
  rfl

/-- Settles O35: the checks of R152 in their order. -/
theorem rxStepEndWithoutChecksum : Obligations.RxStepEndWithoutChecksum := by
  intro s rest h hlegal t
  split
  case isTrue ho => exact exec_rxStep_dropped h (.inl ho) (State.frameEnd_of_oversize ho)
  case isFalse ho =>
    have ho : s.ovf = false := by simpa using ho
    split
    case isTrue hi => exact exec_rxStep_boundary h hi ho
    case isFalse hi =>
      split
      case isTrue hlt =>
        have hcap : s.idx.toNat ≤ s.cfg.cap := hlt.le.trans hlegal
        exact exec_rxStep_dropped h (.inr hcap) (State.frameEnd_of_short ho hi hlt)
      case isFalse => trivial

/-! The checksum as the statement writes it -/

theorem u16le_toNat (b0 b1 : Byte) : (u16le b0 b1).toNat = b0.toNat + b1.toNat * 2 ^ 8 := by
  have hlow : b0.toNat < 2 ^ 8 := b0.isLt
  have hhigh : b1.toNat * 2 ^ 8 < 2 ^ 16 := Nat.mul_lt_mul_of_pos_right b1.isLt (Nat.two_pow_pos 8)
  rw [u16le, BitVec.toNat_or, BitVec.toNat_shiftLeft, BitVec.toNat_setWidth_of_le (by omega),
    BitVec.toNat_setWidth_of_le (by omega), Nat.shiftLeft_eq, Nat.mod_eq_of_lt hhigh, ← Nat.shiftLeft_eq, Nat.or_comm,
    ← Nat.shiftLeft_add_eq_or_of_lt hlow, Nat.add_comm]

/-- The computed checksum as a fold over the indices of the frame. -/
theorem State.frameCrc_eq_foldl (s : State) (m : Half) :
    s.frameCrc m = (List.range (m.toNat - 2)).foldl (fun a i => crcStep a (s.byteAt i)) 0 :=
  List.foldl_map

/-- Settles O36. -/
theorem rxStepEndValidates : Obligations.RxStepEndValidates := by
  intro s rest h ho hmin hcap m c t
  have hc : c = s.frameCrc s.idx := (s.frameCrc_eq_foldl s.idx).symm
  have hmatch : c.toNat = (s.byteAt (m - 2)).toNat + (s.byteAt (m - 1)).toNat * 2 ^ 8 ↔
      s.frameCrc s.idx = s.carriedCrc s.idx := by
    rw [hc, ← u16le_toNat, BitVec.toNat_inj]
    rfl
  constructor
  · intro hne
    rw [exec_rxStep_invalid h ho hmin hcap (hmatch.not.mp hne)]
    simp only [t, hc, ho]
    rfl
  · intro heq hsurfaced
    rw [exec_rxStep_valid h ho hmin hcap (hmatch.mp heq) hsurfaced.symm]
    simp only [t, hc, ho]
    rfl

end Sys2Proof.Machine
end

section
/-! The validator is sensitive to every single byte of a frame: the transform has kernel zero, so a changed byte changes
the checksum, computed or carried; and statement O43. -/

namespace Sys2Proof.Machine

/-! The transform loses nothing (R120) -/

/-- Exclusive or with a map that dies out when iterated has kernel zero. -/
theorem eq_zero_of_xor_nilpotent {g : Half → Half} (hg : ∀ x, g (g (g x)) = 0) {x : Half} (h : x ^^^ g x = 0) :
    x = 0 := by
  have hfix : x = g x := BitVec.xor_eq_zero_iff.mp h
  rw [hfix, hfix, hfix, hg]

theorem highMask_getLsbD : ∀ j < 16, (0xFF00 : Half).getLsbD j = decide (8 ≤ j) := by decide

/-- The mask of R120 clears the low byte. -/
theorem and_highMask (x : Half) : x &&& (0xFF00 : Half) = x >>> 8 <<< 8 := by
  ext i hi
  have hmask := highMask_getLsbD i hi
  simp only [BitVec.getLsbD_eq_getElem hi] at hmask
  simp only [BitVec.getElem_and, BitVec.getElem_shiftLeft, hmask]
  grind

theorem maskedShiftLeft_nilpotent (x : Half) :
    (((x &&& 0xFF00) <<< 4 &&& 0xFF00) <<< 4 &&& 0xFF00) <<< 4 = 0 := by
  simp only [and_highMask]
  ext i hi
  simp only [BitVec.getElem_shiftLeft]
  grind

theorem shiftRight_nilpotent (x : Half) : x >>> 8 >>> 4 >>> 8 >>> 4 >>> 8 >>> 4 = 0 := by
  ext i hi
  simp only [BitVec.getElem_ushiftRight, BitVec.getLsbD_ushiftRight]
  grind

theorem maskedShiftRight_nilpotent (x : Half) :
    (((x &&& 0xFF00) >>> 5 &&& 0xFF00) >>> 5 &&& 0xFF00) >>> 5 = 0 := by
  simp only [and_highMask]
  ext i hi
  simp only [BitVec.getElem_ushiftRight, BitVec.getLsbD_shiftLeft, BitVec.getLsbD_ushiftRight]
  grind

theorem rotateBytes_rotateBytes (a : Half) : rotateBytes (rotateBytes a) = a := by
  ext i hi
  simp only [rotateBytes, BitVec.getElem_or, BitVec.getElem_shiftLeft, BitVec.getElem_ushiftRight,
    BitVec.getLsbD_or, BitVec.getLsbD_shiftLeft, BitVec.getLsbD_ushiftRight]
  grind

/-- Each assignment of R120, the last first, is zero only on zero. -/
theorem eq_zero_of_crcStep_zero {a : Half} (h : crcStep a 0 = 0) : a = 0 := by
  have h4 := eq_zero_of_xor_nilpotent (g := fun x => (x &&& 0xFF00) >>> 5) maskedShiftRight_nilpotent h
  have h3 := eq_zero_of_xor_nilpotent (g := fun x => x >>> 8 >>> 4) shiftRight_nilpotent h4
  have h2 := eq_zero_of_xor_nilpotent (g := fun x => (x &&& 0xFF00) <<< 4) maskedShiftLeft_nilpotent h3
  have hrotated : rotateBytes a = 0 := by simpa using h2
  rw [← rotateBytes_rotateBytes a, hrotated]
  rfl

theorem crcStep_left_injective {a b : Half} {v : Byte} (h : crcStep a v = crcStep b v) : a = b := by
  have hdiff : crcStep (a ^^^ b) 0 = 0 := by
    have hlinear := crcStep_xor a b v v
    rwa [BitVec.xor_self, h, BitVec.xor_self] at hlinear
  exact BitVec.xor_eq_zero_iff.mp (eq_zero_of_crcStep_zero hdiff)

theorem crcStep_right_injective {a : Half} {v w : Byte} (h : crcStep a v = crcStep a w) : v = w := by
  rw [crcStep_eq_xor a v, crcStep_eq_xor a w] at h
  have hwide : v.setWidth 16 = w.setWidth 16 := (BitVec.xor_right_inj a).mp (crcStep_left_injective h)
  simpa using congrArg (BitVec.setWidth 8) hwide

theorem crcFold_injective {a b : Half} {bs : List Byte} (h : crcFold a bs = crcFold b bs) : a = b := by
  induction bs generalizing a b with
  | nil => exact h
  | cons v bs ih => exact crcStep_left_injective (ih h)

/-- A checksum determines each byte by the others. -/
theorem eq_of_crc16_eq {xs ys : List Byte} {v w : Byte} (h : crc16 (xs ++ v :: ys) = crc16 (xs ++ w :: ys)) :
    v = w := by
  rw [crc16_append, crc16_append] at h
  exact crcStep_right_injective (crcFold_injective h)

theorem crc16_set_ne {bs : List Byte} {k : Nat} {v : Byte} (hk : k < bs.length) (hv : v ≠ bs[k]) :
    crc16 (bs.set k v) ≠ crc16 bs := by
  intro h
  have hsplit : bs = bs.take k ++ bs[k] :: bs.drop (k + 1) := by simp
  rw [List.set_eq_take_append_cons_drop, if_pos hk] at h
  exact hv (eq_of_crc16_eq (h.trans (congrArg crc16 hsplit)))

/-! A byte of the buffer changed -/

/-- s with another byte at an index of the buffer. -/
def State.withByte (k : Nat) (v : Byte) (s : State) : State := { s with buf := s.buf.write k v }

theorem State.withByte_byteAt_same (k : Nat) (v : Byte) (s : State) : (s.withByte k v).byteAt k = v := by
  simp [State.byteAt, State.withByte]

theorem State.withByte_byteAt_other {k a : Nat} (h : a ≠ k) (v : Byte) (s : State) :
    (s.withByte k v).byteAt a = s.byteAt a := by
  simp [State.byteAt, State.withByte, Memory.read?_write_other _ _ h]

theorem State.withByte_span (k : Nat) (v : Byte) (s : State) (n : Nat) :
    (s.withByte k v).span n = (s.span n).set k v := by
  refine List.ext_getElem (by simp [State.span]) fun a ha _ => ?_
  simp only [State.span, List.getElem_map, List.getElem_range, List.getElem_set]
  split
  · subst_vars
    exact State.withByte_byteAt_same _ _ _
  · exact State.withByte_byteAt_other (Ne.symm ‹_›) _ _

theorem u16le_inj {a b c d : Byte} : u16le a b = u16le c d ↔ a = c ∧ b = d := by
  have ha := a.isLt
  have hc := c.isLt
  rw [← BitVec.toNat_inj, u16le_toNat, u16le_toNat, ← BitVec.toNat_inj, ← BitVec.toNat_inj]
  omega

/-- A frame that validates does so no more with any one byte changed: one of the body changes the computed checksum,
one of the last two the carried one (R154, R165). -/
theorem State.frame_invalid_of_changed {s : State} {m : Half} {k : Nat} {v : Byte} (hm : 2 ≤ m.toNat)
    (hvalid : s.frameCrc m = s.carriedCrc m) (hk : k < m.toNat) (hv : v ≠ s.byteAt k) :
    (s.withByte k v).frameCrc m ≠ (s.withByte k v).carriedCrc m := by
  by_cases hbody : k < m.toNat - 2
  · have hcarried : (s.withByte k v).carriedCrc m = s.carriedCrc m := by
      rw [State.carriedCrc, State.withByte_byteAt_other (by omega), State.withByte_byteAt_other (by omega)]
      rfl
    rw [hcarried, ← hvalid, State.frameCrc, State.withByte_span]
    exact crc16_set_ne (by rw [State.span_length]; exact hbody) (by simpa [State.span] using hv)
  · have hcomputed : (s.withByte k v).frameCrc m = s.frameCrc m := by
      rw [State.frameCrc, State.withByte_span, List.set_eq_of_length_le (by rw [State.span_length]; omega)]
      rfl
    intro h
    obtain ⟨hlow, hhigh⟩ := u16le_inj.mp (hvalid.symm.trans (hcomputed.symm.trans h))
    obtain rfl | rfl : k = m.toNat - 2 ∨ k = m.toNat - 1 := by omega
    · exact hv (by rw [hlow, State.withByte_byteAt_same])
    · exact hv (by rw [hhigh, State.withByte_byteAt_same])

theorem xor_twoPow_ne {j : Nat} (hj : j < 8) (b : Byte) : b ^^^ BitVec.twoPow 8 j ≠ b := by
  intro h
  have hbit := congrArg (BitVec.getLsbD · j) h
  simp [hj] at hbit

/-- Settles O43. -/
theorem singleBitFlipIsDropped : Obligations.SingleBitFlipIsDropped := by
  intro s rest k j h ho hmin hcap hvalid hk hj
  have hinvalid := State.frame_invalid_of_changed (m := s.idx) (by omega) hvalid hk (xor_twoPow_ne hj (s.byteAt k))
  exact ⟨_, exec_rxStep_invalid (s := s.withByte k (s.byteAt k ^^^ BitVec.twoPow 8 j)) h ho hmin hcap hinvalid,
    rfl, rfl, rfl⟩

end Sys2Proof.Machine
end

section
/-! RX_FLUSH, the packet view after a receive operation, and statements O39 and O46. -/

namespace Sys2Proof.Machine

/-! RX_FLUSH (R164) -/

theorem exec_rxFlush_of_discard {s u : State} {n : Nat} (h : discard s.invalidateView = .ends n u) :
    exec .rxFlush s = .next (u.finish .ok (BitVec.ofNat 32 n)) := by
  rw [exec, execRxFlush, h, Proc.finally_ends]

/-- Settles O39. -/
theorem rxFlushDiscards : Obligations.RxFlushDiscards := by
  refine ⟨fun s bs rest h => ?_, rfl, fun _ => illegalWord_rowZ (opc := 0x0C) rfl (by decide)⟩
  obtain hgap | ⟨hlast, rfl, htail⟩ := h
  · exact exec_rxFlush_of_discard (discard_gap (s := s.invalidateView) hgap)
  · have hsilent : s.invalidateView.rx = ⟨handOver bs, .silent⟩ := by rw [← hlast, ← htail]; rfl
    exact exec_rxFlush_of_discard (discard_silent hsilent)

/-! The view during a receive (R150) -/

/-- No view, and FLEN with it (R27, R150). -/
structure State.NoView (s : State) : Prop where
  pktValid : s.pktValid = false
  flen : s.flen = 0

/-- There is a view exactly where `p` holds, and no FLEN without one. -/
structure State.ViewExactly (s : State) (p : Prop) : Prop where
  pktValid : s.pktValid = true ↔ p
  flen : s.pktValid = false → s.flen = 0

theorem State.NoView.viewExactly {s : State} (h : s.NoView) {p : Prop} (hp : ¬ p) : s.ViewExactly p :=
  ⟨by simp [h.pktValid, hp], fun _ => h.flen⟩

theorem State.ViewExactly.noView {s : State} {p : Prop} (h : s.ViewExactly p) (hp : ¬ p) : s.NoView := by
  have hnone : s.pktValid = false := Bool.eq_false_iff.mpr (mt h.pktValid.mp hp)
  exact ⟨hnone, h.flen hnone⟩

theorem State.viewExactly_of_shown {s : State} {p : Prop} (hs : s.pktValid = true) (hp : p) : s.ViewExactly p :=
  ⟨by simp [hs, hp], by simp [hs]⟩

theorem State.NoView.of_invalidateView (s : State) : s.invalidateView.NoView := ⟨rfl, rfl⟩

/-- Where there is no view, invalidating it changes nothing. -/
theorem State.NoView.invalidateView {s : State} (h : s.NoView) : s.invalidateView = s := by
  rw [State.invalidateView, ← h.pktValid, ← h.flen]

theorem State.NoView.rxPoll {s : State} (h : s.NoView) : s.rxPoll.2.NoView := by
  obtain ⟨p, n, e⟩ := s.rxPoll_environment
  rw [e]
  exact ⟨h.pktValid, h.flen⟩

theorem State.NoView.rxGap {s t : State} {n : Nat} (h : s.NoView) (hg : s.rxGap n = some t) : t.NoView := by
  obtain ⟨p, k, rfl⟩ := State.rxGap_environment hg
  exact ⟨h.pktValid, h.flen⟩

theorem syncProc_noView {s t : State} {ok : Bool} (h : syncProc s = .ends ok t) : t.NoView := by
  obtain ⟨n1, t1, n2, t2, t3, -, -, -, rfl⟩ := syncProc_ends h
  exact ⟨rfl, rfl⟩

/-- A shown packet is surfaced with its view, or gives way to a SYNC procedure (R180). -/
theorem intercept_view {s t : State} {r : ByteResult} (hs : s.pktValid = true) (h : intercept s = .ends r t) :
    t.ViewExactly (r = .packet) := by
  obtain ⟨-, -, ok, hproc, rfl⟩ | ⟨-, rfl, rfl⟩ := intercept_ends h
  · exact (syncProc_noView hproc).viewExactly (by simp)
  · exact State.viewExactly_of_shown hs rfl

/-- A frame end shows a view exactly for a packet (R152, R154). -/
theorem State.NoView.frameEnd {s u : State} {o : FrameResult} (h : s.NoView) (hf : s.frameEnd = (o, u)) :
    u.ViewExactly (o = .packet) := by
  obtain ⟨-, e⟩ | ⟨-, -, e⟩ | ⟨-, -, -, e⟩ | ⟨-, -, -, e⟩ | ⟨-, -, -, e⟩ := s.frameEnd_cases <;>
    rw [e] at hf <;> cases hf
  case inr.inr.inr.inr => exact State.viewExactly_of_shown rfl rfl
  all_goals exact ⟨by simp [h.pktValid], fun _ => h.flen⟩

/-- One wire byte taken without a view leaves one exactly where it reports a packet (R157). -/
theorem rxByte_viewExactly {b : Byte} {s t : State} {r : ByteResult} (hs : s.NoView)
    (h : rxByte intercept b s = .ends r t) : t.ViewExactly (r = .packet) := by
  obtain ⟨-, hb⟩ | ⟨-, rfl, rfl⟩ | ⟨-, -, rfl, rfl⟩ := rxByte_ends h
  · have hclear : (s.setEsc false).NoView := ⟨hs.pktValid, hs.flen⟩
    obtain ⟨-, ⟨u, hu, hh⟩ | ⟨hu, rfl⟩ | ⟨hu, rfl⟩⟩ := rxBoundary_ends hb
    · exact intercept_view ((hclear.frameEnd hu).pktValid.mpr rfl) hh
    · exact ((hclear.frameEnd hu).noView (by simp)).viewExactly (by simp)
    · exact ((hclear.frameEnd hu).noView (by simp)).viewExactly (by simp)
  · have harmed : (s.setEsc true).NoView := ⟨hs.pktValid, hs.flen⟩
    exact harmed.viewExactly (by simp)
  · obtain ⟨hvalid, hlen⟩ := State.byteIn_view (if s.esc then unescape b else b) (s.setEsc false)
    exact State.NoView.viewExactly ⟨hvalid.trans hs.pktValid, hlen.trans hs.flen⟩ (by simp)

theorem drain_viewExactly : ∀ {n : Nat} {s t : State} {r : RecvResult}, s.NoView →
    drain intercept n s = .ends r t → t.ViewExactly (r = .packet) := by
  intro n
  induction n with
  | zero =>
    intro s t r hs h
    simp only [drain] at h
    split at h
    · cases h
    · cases h
      exact (hs.rxGap ‹_›).viewExactly (by simp)
  | succ n ih =>
    intro s t r hs h
    have hpolled := hs.rxPoll
    rcases hp : s.rxPoll with ⟨_ | b, u⟩ <;> rw [hp] at hpolled
    · rw [drain_succ_none hp] at h
      cases h
      exact hpolled.viewExactly (by simp)
    · rw [drain_succ_some hp] at h
      obtain ⟨q, v, hb, h⟩ := Proc.andThen_eq_ends.mp h
      have hbyte := rxByte_viewExactly hpolled hb
      cases q with
      | packet => cases h; exact State.viewExactly_of_shown (hbyte.pktValid.mpr rfl) rfl
      | synced ok => cases h; exact (hbyte.noView (by simp)).viewExactly (by simp)
      | byte | empty | dropped => exact ih (hbyte.noView (by simp)) h

theorem tryReceive_viewExactly {s t : State} {r : RecvResult} (hs : s.NoView)
    (h : tryReceive intercept s = .ends r t) : t.ViewExactly (r = .packet) := drain_viewExactly hs h

theorem receive_viewExactly : ∀ {n : Nat} {s t : State} {r : RecvResult}, s.NoView →
    receive intercept n s = .ends r t → t.ViewExactly (r = .packet) := by
  intro n
  induction n with
  | zero =>
    intro s t r hs h
    rw [receive_zero] at h
    cases h
    exact hs.viewExactly (by simp)
  | succ n ih =>
    intro s t r hs h
    rw [receive_succ_eq] at h
    obtain ⟨q, u, hu, h⟩ := Proc.andThen_eq_ends.mp h
    have htry := tryReceive_viewExactly hs hu
    cases q with
    | packet => cases h; exact htry
    | nopacket | synced _ => exact ih (htry.noView (by simp)) h

theorem discard_noView {s t : State} {n : Nat} (hs : s.NoView) (h : discard s = .ends n t) : t.NoView := by
  obtain ⟨m, u, hu, e⟩ := Proc.andThen_eq_ends.mp h
  cases e
  obtain ⟨hvalid, hlen⟩ : u.NoView :=
    discardLoop_keeps State.NoView (fun _ hv => hv.rxPoll) (fun _ _ hv hg => hv.rxGap hg) _ _ _ _ _ hs hu
  exact ⟨hvalid, hlen⟩

/-! The reports of the receive operations (R160 to R162) -/

/-- RX_STEP reports PKT exactly for a packet, and a SYNC outcome exactly for a SYNC procedure. -/
theorem finishStep_eq (r : ByteResult) (s : State) :
    ∃ e w, finishStep r s = s.finish e w ∧ (e.code = 0x01 ↔ r = .packet) ∧
      (e.code = 0x07 ∨ e.code = 0x08 ↔ ∃ ok, r = .synced ok) := by
  cases r with
  | byte | empty | dropped | packet => exact ⟨_, _, rfl, by decide, by simp [Event.code]⟩
  | synced ok => cases ok <;> exact ⟨_, _, rfl, by decide, by simp [Event.code]⟩

theorem finishTry_eq (r : RecvResult) (s : State) :
    ∃ e w, finishTry r s = s.finish e w ∧ (e.code = 0x01 ↔ r = .packet) ∧
      (e.code = 0x07 ∨ e.code = 0x08 ↔ ∃ ok, r = .synced ok) := by
  cases r with
  | packet | nopacket => exact ⟨_, _, rfl, by decide, by simp [Event.code]⟩
  | synced ok => cases ok <;> exact ⟨_, _, rfl, by decide, by simp [Event.code]⟩

theorem finishRecv_eq (r : RecvResult) (s : State) :
    ∃ e w, finishRecv r s = s.finish e w ∧ (e.code = 0x01 ↔ r = .packet) := by
  cases r <;> exact ⟨_, _, rfl, by simp [Event.code]⟩

theorem finishSync_eq (ok : Bool) (s : State) : ∃ e w, finishSync ok s = s.finish e w ∧ e.code ≠ 0x01 := by
  cases ok <;> exact ⟨_, _, rfl, by decide⟩

/-- A report that says PKT exactly where there is a view. -/
theorem State.ViewExactly.finish {s : State} {p : Prop} {e : Event} (h : s.ViewExactly p) (he : e.code = 0x01 ↔ p)
    (w : Word) : (s.finish e w).ViewExactly ((s.finish e w).evt = 0x01) :=
  ⟨h.pktValid.trans he.symm, h.flen⟩

theorem execRxStep_viewExactly {s t : State} (h : execRxStep s = .next t) : t.ViewExactly (t.evt = 0x01) := by
  have hpolled := (State.NoView.of_invalidateView s).rxPoll
  unfold execRxStep at h
  split at h <;> rename_i hp <;> rw [hp] at hpolled
  · cases h
    exact (hpolled.viewExactly not_false).finish (by decide) 0
  · obtain ⟨r, u, hu, rfl⟩ := Proc.finally_eq_next.mp h
    obtain ⟨e, w, hreport, he, -⟩ := finishStep_eq r u
    rw [hreport]
    exact (rxByte_viewExactly hpolled hu).finish he w

theorem execTryRecv_viewExactly {s t : State} (h : execTryRecv s = .next t) : t.ViewExactly (t.evt = 0x01) := by
  obtain ⟨r, u, hu, rfl⟩ := Proc.finally_eq_next.mp h
  obtain ⟨e, w, hreport, he, -⟩ := finishTry_eq r u
  rw [hreport]
  exact (tryReceive_viewExactly (.of_invalidateView s) hu).finish he w

theorem execRecv_viewExactly {n : Half} {s t : State} (h : execRecv n s = .next t) :
    t.ViewExactly (t.evt = 0x01) := by
  obtain ⟨r, u, hu, rfl⟩ := Proc.finally_eq_next.mp h
  obtain ⟨e, w, hreport, he⟩ := finishRecv_eq r u
  rw [hreport]
  exact (receive_viewExactly (.of_invalidateView s) hu).finish he w

theorem execRxFlush_viewExactly {s t : State} (h : execRxFlush s = .next t) : t.ViewExactly (t.evt = 0x01) := by
  obtain ⟨n, u, hu, rfl⟩ := Proc.finally_eq_next.mp h
  exact ((discard_noView (.of_invalidateView s) hu).viewExactly not_false).finish (by decide) _

theorem execSync_viewExactly {s t : State} (hs : s.syncing = false) (h : execSync s = .next t) :
    t.ViewExactly (t.evt = 0x01) := by
  rw [execSync, if_neg (by simp [hs])] at h
  obtain ⟨ok, u, hu, rfl⟩ := Proc.finally_eq_next.mp h
  obtain ⟨e, w, hreport, he⟩ := finishSync_eq ok u
  rw [hreport]
  exact ((syncProc_noView hu).viewExactly not_false).finish (iff_false_intro he) w

/-- A receive operation begun Idle leaves a view exactly where it reports PKT. -/
theorem exec_viewExactly {i : Instr} {s t : State} (hi : receiveFamily i = true) (hs : i = .sync → s.syncing = false)
    (h : exec i s = .next t) : t.ViewExactly (t.evt = 0x01) := by
  cases i with
  | rxStep => exact execRxStep_viewExactly h
  | tryRecv => exact execTryRecv_viewExactly h
  | recv n => exact execRecv_viewExactly h
  | rxFlush => exact execRxFlush_viewExactly h
  | sync => exact execSync_viewExactly (hs rfl) h
  | nop | crcClr | crcAdd _ | enc _ | txEnd | txBegin | txByte _ | txPad _ | txFinal | rdreg _ | rdbuf _ => cases hi

/-- Settles O46. -/
theorem viewLivesUntilReceive : Obligations.ViewLivesUntilReceive := by
  intro i s t h
  constructor
  · intro hi hidle
    obtain ⟨hvalid, hlen⟩ := exec_viewExactly hi hidle h
    exact ⟨hvalid, hlen⟩
  · intro hi
    have hview := (exec_sameButOutput hi h).sameView
    exact ⟨hview.pktValid, hview.flen, hview.byteAt⟩

end Sys2Proof.Machine
end

section
/-! The procedures of a receive do not look at EVT and RESULT, so an operation goes on from where another one has
reported; and statements O37 and O38. -/

namespace Sys2Proof.Machine

/-! EVT and RESULT written before a procedure -/

/-- The same end of a procedure, with EVT and RESULT written. -/
def Proc.reported {α : Type} (e : Event) (w : Word) : Proc α → Proc α
  | .ends a s => .ends a (s.finish e w)
  | .stops r => .stops r

/-- The procedure neither looks at EVT and RESULT nor writes them. -/
def IgnoresReport {α : Type} (p : State → Proc α) : Prop :=
  ∀ e w s, p (s.finish e w) = (p s).reported e w

theorem ignoresReport_ends {α : Type} {f : State → State}
    (hf : ∀ e w s, f (s.finish e w) = (f s).finish e w) (a : α) : IgnoresReport fun s => .ends a (f s) :=
  fun e w s => congrArg (Proc.ends a) (hf e w s)

theorem ignoresReport_pure {α : Type} (a : α) : IgnoresReport fun s => .ends a s := fun _ _ _ => rfl

theorem IgnoresReport.andThen {α β : Type} {p : State → Proc α} {k : α → State → Proc β} (hp : IgnoresReport p)
    (hk : ∀ a, IgnoresReport (k a)) : IgnoresReport fun s => (p s).andThen k := by
  intro e w s
  dsimp only
  rw [hp]
  cases p s with
  | ends a t => exact hk a e w t
  | stops r => rfl

theorem IgnoresReport.after {α : Type} {p : State → Proc α} {f : State → State} (hp : IgnoresReport p)
    (hf : ∀ e w s, f (s.finish e w) = (f s).finish e w) : IgnoresReport fun s => p (f s) :=
  fun e w s => (congrArg p (hf e w s)).trans (hp e w (f s))

theorem ignoresReport_ite {α : Type} {c : State → Prop} [DecidablePred c] {p q : State → Proc α}
    (hc : ∀ e w s, c (s.finish e w) ↔ c s) (hp : IgnoresReport p) (hq : IgnoresReport q) :
    IgnoresReport fun s => if c s then p s else q s := by
  intro e w s
  by_cases h : c s
  · simp only [if_pos h, if_pos ((hc e w s).mpr h), hp e w s]
  · simp only [if_neg h, if_neg (mt (hc e w s).mp h), hq e w s]

/-- The operation reports the same, as its own report overwrites the one before. -/
theorem IgnoresReport.finally {α : Type} {p : State → Proc α} {k : α → State → State} (hp : IgnoresReport p)
    (hk : ∀ a e w s, k a (s.finish e w) = k a s) (e : Event) (w : Word) (s : State) :
    (p (s.finish e w)).finally k = (p s).finally k := by
  rw [hp]
  cases p s with
  | ends a t => exact congrArg Host.Outcome.next (hk a e w t)
  | stops r => rfl

/-! Polls and wire bytes -/

theorem rxPoll_finish (e : Event) (w : Word) (s : State) :
    (s.finish e w).rxPoll = (s.rxPoll.1, s.rxPoll.2.finish e w) := by
  rcases h : s.rx with ⟨_ | ⟨_ | b, rest⟩, _ | k | k⟩ <;> simp only [State.rxPoll, State.finish_rx, h] <;> rfl

theorem poll_ignoresReport : IgnoresReport poll := by
  intro e w s
  rw [poll, rxPoll_finish]
  rfl

theorem rxGap_finish (n : Nat) (e : Event) (w : Word) (s : State) :
    (s.finish e w).rxGap n = (s.rxGap n).map (State.finish e w) := by
  cases h : s.rx.tail <;> simp only [State.rxGap, State.finish_rx, h] <;> rfl

theorem byteIn_finish (v : Byte) (e : Event) (w : Word) (s : State) :
    (s.finish e w).byteIn v = (s.byteIn v).finish e w := by
  simp only [State.byteIn, apply_ite (State.finish e w)]
  rfl

theorem frameEnd_finish (e : Event) (w : Word) (s : State) :
    (s.finish e w).frameEnd = (s.frameEnd.1, s.frameEnd.2.finish e w) := by
  simp only [State.frameEnd, State.judgeFrame, State.validate, State.dropFrame, apply_ite Prod.fst,
    apply_ite Prod.snd, apply_ite State.clearFrame, apply_ite (State.finish e w)]
  rfl

theorem rxBoundary_ignoresReport {hook : State → Proc ByteResult} (hh : IgnoresReport hook) :
    IgnoresReport (rxBoundary hook) := by
  refine ignoresReport_ite (fun _ _ _ => Iff.rfl) (fun e w s => ?_) (fun _ _ _ => rfl)
  rw [frameEnd_finish]
  rcases s.frameEnd with ⟨_ | _ | _, t⟩
  · exact hh e w t
  · rfl
  · rfl

theorem rxByte_ignoresReport {hook : State → Proc ByteResult} (hh : IgnoresReport hook) (b : Byte) :
    IgnoresReport (rxByte hook b) := by
  intro e w s
  by_cases hend : b = slipEnd
  · subst hend
    rw [rxByte_end, rxByte_end]
    exact rxBoundary_ignoresReport hh e w (s.setEsc false)
  · by_cases hesc : b = slipEsc
    · subst hesc
      rw [rxByte_esc, rxByte_esc]
      rfl
    · rw [rxByte_data hook hend hesc, rxByte_data hook hend hesc]
      exact congrArg (Proc.ends ByteResult.byte) (byteIn_finish _ e w (s.setEsc false))

/-! The loops -/

theorem drain_ignoresReport {hook : State → Proc ByteResult} (hh : IgnoresReport hook) (n : Nat) :
    IgnoresReport (drain hook n) := by
  induction n with
  | zero =>
    intro e w s
    simp only [drain, rxGap_finish]
    cases s.rxGap 1 <;> rfl
  | succ n ih =>
    rw [drain_succ_eq]
    refine poll_ignoresReport.andThen fun a => ?_
    cases a with
    | none => exact ignoresReport_pure _
    | some b =>
      refine (rxByte_ignoresReport hh b).andThen fun r => ?_
      cases r.endsLoop with
      | none => exact ih
      | some q => exact ignoresReport_pure q

theorem tryReceive_ignoresReport {hook : State → Proc ByteResult} (hh : IgnoresReport hook) :
    IgnoresReport (tryReceive hook) :=
  fun e w s => drain_ignoresReport hh s.pollBudget e w s

theorem receive_ignoresReport {hook : State → Proc ByteResult} (hh : IgnoresReport hook) (n : Nat) :
    IgnoresReport (receive hook n) := by
  induction n with
  | zero =>
    rw [show receive hook 0 = fun s => .ends .nopacket s from funext (receive_zero hook)]
    exact ignoresReport_pure _
  | succ n ih =>
    rw [receive_succ_eq]
    refine (tryReceive_ignoresReport hh).andThen fun r => ?_
    cases r with
    | packet => exact ignoresReport_pure _
    | nopacket | synced _ => exact ih

theorem discardLoop_ignoresReport (k : Nat) : ∀ n, IgnoresReport (discardLoop k n) := by
  induction k with
  | zero =>
    intro n e w s
    simp only [discardLoop, rxGap_finish]
    cases s.rxGap 1 <;> rfl
  | succ k ih =>
    intro n e w s
    simp only [discardLoop, rxPoll_finish]
    rcases s.rxPoll with ⟨_ | b, t⟩
    · rfl
    · exact ih (n + 1) e w t

theorem discard_ignoresReport : IgnoresReport discard :=
  IgnoresReport.andThen (fun e w s => discardLoop_ignoresReport s.pollBudget 0 e w s)
    fun n => ignoresReport_ends (fun _ _ _ => rfl) n

/-! The SYNC procedure -/

theorem syncWait_ignoresReport (k : Nat) : IgnoresReport (syncWait k) := by
  induction k with
  | zero =>
    intro e w s
    simp only [syncWait, rxGap_finish, State.finish_cfg]
    cases s.rxGap s.cfg.syncRxTimeout.toNat <;> rfl
  | succ k ih =>
    intro e w s
    rw [syncWait_succ, syncWait_succ]
    have hreceive := receive_ignoresReport (hook := surface) (ignoresReport_pure _) s.cfg.syncRxTimeout.toNat
    refine (hreceive.andThen fun r => ?_) e w s
    cases r with
    | packet =>
      exact ignoresReport_ite (c := fun t => t.packetCmd = t.cfg.versionCmd) (fun _ _ _ => Iff.rfl)
        (ignoresReport_pure true) (ih.after (f := State.invalidateView) fun _ _ _ => rfl)
    | nopacket | synced _ => exact ignoresReport_pure _

theorem syncProc_ignoresReport : IgnoresReport syncProc := by
  refine (discard_ignoresReport.after fun e w s => ?_).andThen fun _ => ?_
  · rw [State.sendMarker_eq, State.sendMarker_eq]
    rfl
  refine (discard_ignoresReport.after (f := State.txWrite [slipEnd]) fun _ _ _ => rfl).andThen fun _ => ?_
  refine IgnoresReport.andThen (fun e w s => ?_) fun ok => ignoresReport_ends (fun _ _ _ => rfl) ok
  have hrequest : (s.finish e w).sendSyncRequest = s.sendSyncRequest.finish e w := by
    rw [State.sendSyncRequest_eq, State.sendSyncRequest_eq]
    rfl
  rw [hrequest]
  exact syncWait_ignoresReport (s.pollBudget + 1) e w s.sendSyncRequest

theorem intercept_ignoresReport : IgnoresReport intercept := by
  have hproc := (syncProc_ignoresReport.after (f := State.invalidateView) fun _ _ _ => rfl).andThen
    fun ok => ignoresReport_pure (ByteResult.synced ok)
  exact ignoresReport_ite (c := fun s => s.packetCmd = s.cfg.syncCmd ∧ s.syncing = false) (fun _ _ _ => Iff.rfl) hproc
    (ignoresReport_pure _)

/-! A receive operation after another one that reported no packet -/

theorem exec_tryRecv_finish {s : State} (hs : s.NoView) (e : Event) (w : Word) :
    exec .tryRecv (s.finish e w) = (tryReceive intercept s).finally finishTry := by
  have hview : (s.finish e w).invalidateView = s.finish e w := State.NoView.invalidateView ⟨hs.pktValid, hs.flen⟩
  rw [exec, execTryRecv, hview]
  exact (tryReceive_ignoresReport intercept_ignoresReport).finally (fun r _ _ _ => by cases r <;> rfl) e w s

theorem exec_recv_finish {s : State} (hs : s.NoView) (n : Half) (e : Event) (w : Word) :
    exec (.recv n) (s.finish e w) = (receive intercept n.toNat s).finally finishRecv := by
  have hview : (s.finish e w).invalidateView = s.finish e w := State.NoView.invalidateView ⟨hs.pktValid, hs.flen⟩
  rw [exec, execRecv, hview]
  exact (receive_ignoresReport intercept_ignoresReport n.toNat).finally (fun r _ _ _ => by cases r <;> rfl) e w s

/-! TRY_RECV on a listed answer (R158, R161) -/

theorem tryReceive_of_nextNone (hook : State → Proc ByteResult) {s : State} {rest : List (Option Byte)}
    (h : s.NextNone rest) : tryReceive hook s = .ends .nopacket (s.polled rest 0) := by
  obtain hlisted | ⟨hsilent, hself⟩ := h.listed_or_silent
  · exact tryReceive_none hook hlisted
  · rw [tryReceive_quiet hsilent, hself]

/-- One round on a listed byte, from the state in which RX_STEP processes it. -/
theorem exec_tryRecv_listed {s : State} {b : Byte} {rest : List (Option Byte)} (h : s.rx.answers = some b :: rest) :
    exec .tryRecv s =
      ((rxByte intercept b (s.tookByte rest)).andThen fun r u => match r.endsLoop with
        | none => tryReceive intercept u
        | some q => .ends q u).finally finishTry := by
  rw [exec, execTryRecv, tryReceive_some intercept_reports (s := s.invalidateView) h, State.tookByte]
  rcases rxByte intercept b (s.invalidateView.polled rest 1) with ⟨_ | _ | _ | _ | _, u⟩ | r <;> rfl

theorem State.NoView.of_tookByte (rest : List (Option Byte)) (s : State) : (s.tookByte rest).NoView := ⟨rfl, rfl⟩

/-- Settles O37: RX_STEP and TRY_RECV process a listed byte in the same state, and TRY_RECV goes on from where RX_STEP
reports. -/
theorem tryRecvIsRepeatedRxStep : Obligations.TryRecvIsRepeatedRxStep := by
  refine ⟨fun s t b rest h hstep => ?_, fun s b rest r h hstep => ?_, fun s rest h => ?_⟩
  · rw [exec_rxStep_listed h] at hstep
    obtain ⟨r, u, hbyte, rfl⟩ := Proc.finally_eq_next.mp hstep
    have hview := rxByte_viewExactly (State.NoView.of_tookByte rest s) hbyte
    rw [exec_tryRecv_listed h, hbyte, Proc.andThen_ends]
    cases r with
    | byte | empty | dropped =>
      have hgoesOn (e : Event) : exec .tryRecv (u.finish e 0) = (tryReceive intercept u).finally finishTry :=
        exec_tryRecv_finish (hview.noView (by simp)) e 0
      exact ⟨fun _ => (hgoesOn _).symm, by simp [finishStep, Event.code], .inl (by simp [finishStep, Event.code])⟩
    | packet => simp [finishStep, finishTry, Event.code, ByteResult.endsLoop]
    | synced ok => cases ok <;> simp [finishStep, finishTry, finishIntercepted, Event.code, ByteResult.endsLoop]
  · rw [exec_rxStep_listed h] at hstep
    rw [exec_tryRecv_listed h, Proc.finally_eq_fault.mp hstep]
    rfl
  · rw [exec, execTryRecv, tryReceive_of_nextNone intercept (s := s.invalidateView) h]
    rfl

/-! RECV (R159, R162) -/

theorem toNat_sub_one {n : Half} (hn : n ≠ 0) : n.toNat = (n - 1).toNat + 1 := by
  bv_omega

theorem exec_recv_of_ne_zero {n : Half} (hn : n ≠ 0) (s : State) :
    exec (.recv n) s =
      ((tryReceive intercept s.invalidateView).andThen fun r t => match r with
        | .packet => .ends .packet t
        | .nopacket | .synced _ => receive intercept (n - 1).toNat t).finally finishRecv := by
  rw [exec, execRecv, toNat_sub_one hn]
  exact congrArg (Proc.finally · finishRecv) (congrFun (receive_succ_eq intercept (n - 1).toNat) s.invalidateView)

/-- Settles O38. -/
theorem recvIsBoundedTryRecv : Obligations.RecvIsBoundedTryRecv := by
  refine ⟨fun s => ?_, fun s t n hn htry => ?_, fun s n r hn htry => ?_⟩
  · have hzero : receive intercept (0 : Half).toNat s.invalidateView = .ends .nopacket s.invalidateView :=
      receive_zero _ _
    rw [exec, execRecv, hzero]
    rfl
  · obtain ⟨r, u, hu, rfl⟩ := Proc.finally_eq_next.mp htry
    have hview := tryReceive_viewExactly (.of_invalidateView s) hu
    obtain ⟨e, w, hreport, he, -⟩ := finishTry_eq r u
    rw [exec_recv_of_ne_zero hn, hu, Proc.andThen_ends]
    cases r with
    | packet => rfl
    | nopacket | synced _ =>
      have hgoesOn := exec_recv_finish (hview.noView (by simp)) (n - 1) e w
      rw [hreport, State.finish_evt, if_neg (mt he.mp (by simp)), hgoesOn]
  · rw [exec_recv_of_ne_zero hn, Proc.finally_eq_fault.mp htry]
    rfl

end Sys2Proof.Machine
end

section
/-! TRY_RECV on the wire form of a frame: intact, too short and too long; and statements O42, O44 and O45. -/

namespace Sys2Proof.Machine

/-! An intact frame (R165) -/

/-- A buffer that begins with a body holds the body's command identifier (R72, R180). -/
theorem State.packetCmd_of_span {s : State} {body tl : List Byte} {n : Nat} (hlen : 2 ≤ body.length)
    (h : s.span n = body ++ tl) : s.packetCmd = bodyCmd body := by
  match body, hlen with
  | b0 :: b1 :: bs, _ =>
    have h0 : s.byteAt 0 = b0 := State.byteAt_of_append (xs := []) h
    have h1 : s.byteAt 1 = b1 := State.byteAt_of_append (xs := [b0]) h
    rw [State.packetCmd, h0, h1]
    rfl

section
variable {s : State} {body : List Byte} {rest : List (Option Byte)} (hcap : body.length + 2 ≤ s.cfg.cap)
include hcap

/-- What a received frame leaves: its checksum in CRC, its view, a cleared assembler, its wire bytes consumed. -/
theorem State.received_eq :
    s.received body rest =
      { s with rx := ⟨rest, s.rx.tail⟩, rxTaken := s.rxTaken + (wireFrame body).length,
               buf := (s.received body rest).buf, idx := 0, esc := false, ovf := false, crc := crc16 body,
               pktValid := true, flen := BitVec.ofNat 16 (body.length + 2) } := by
  obtain ⟨-, hlen, hspan⟩ := State.filled_fits (rest := rest) (n := (wireFrame body).length) hcap
  have hframe : s.filled body rest (wireFrame body).length = _ := State.byteIns_frame (framed body) _
  rw [State.received]
  generalize s.filled body rest (wireFrame body).length = f at *
  obtain ⟨hcrc, -⟩ := State.frame_valid hlen (hlen ▸ hspan)
  have hidx : f.idx = BitVec.ofNat 16 (body.length + 2) := by rw [← hlen, BitVec.ofNat_toNat, BitVec.setWidth_eq]
  rw [State.accepted, hcrc, hidx, hframe]
  rfl

theorem State.received_packetCmd (hmin : 2 ≤ body.length) : (s.received body rest).packetCmd = bodyCmd body :=
  State.packetCmd_of_span hmin (State.received_span hcap)

/-- A received frame that is no SYNC packet met while Idle is surfaced (R180). -/
theorem intercept_received (hmin : 2 ≤ body.length) (hcmd : bodyCmd body ≠ s.cfg.syncCmd ∨ s.syncing = true) :
    intercept (s.received body rest) = .ends .packet (s.received body rest) := by
  refine intercept_surfaces ?_
  rw [State.received_packetCmd hcap hmin, State.received_eq hcap]
  exact hcmd

end

/-- Settles O42. -/
theorem intactFrameIsReceived : Obligations.IntactFrameIsReceived := by
  intro s body rest hi ho ⟨hmin, hcap⟩ hcmd h
  let u := s.invalidateView.received body rest
  have hrecv : tryReceive intercept s.invalidateView = .ends .packet u :=
    tryReceive_wireFrame (s := s.invalidateView) intercept_reports hi ho hmin hcap h
      (intercept_received (s := s.invalidateView) hcap (by omega) hcmd)
  refine ⟨u.finish .pkt 1, ?_, ?_, State.received_span (s := s.invalidateView) hcap⟩
  · rw [exec, execTryRecv, hrecv]
    rfl
  · have hu : u = _ := State.received_eq (s := s.invalidateView) hcap
    generalize u = v at *
    rw [hu, hi, ho]
    rfl

/-! A frame that is dropped -/

/-- A frame whose END yields no packet, and a gap behind it: TRY_RECV ends with NOPKT. -/
theorem exec_tryRecv_noPacket {s u : State} {body : List Byte} {rest : List (Option Byte)} {r : ByteResult}
    (he : s.esc = false) (h : s.rx.answers = handOver (escapeAll body ++ [slipEnd]) ++ none :: rest)
    (hend : rxByte intercept slipEnd
      ((s.invalidateView.byteIns body).polled (none :: rest) ((escapeAll body).length + 1)) = .ends r u)
    (hr : r = .byte ∨ r = .empty ∨ r = .dropped) : exec .tryRecv s = .next ((u.polled rest 0).finish .nopkt 0) := by
  rw [handOver_append, List.append_assoc] at h
  have hbytes := tryReceive_escapeAll intercept_reports (s := s.invalidateView) he h
  rw [State.polled_byteIns] at hbytes
  have hlast := tryReceive_goesOn intercept_reports (b := slipEnd) (rest := none :: rest) rfl
    ((congrArg (rxByte intercept slipEnd) (State.polled_polled _ _ _ 1 _)).trans hend) hr
  have hrest : u.rx.answers = none :: rest := by rw [(rxByte_rx intercept_reports hend hr).1]; rfl
  rw [exec, execTryRecv, hbytes.trans hlast, tryReceive_none intercept hrest]
  rfl

/-- What TRY_RECV leaves of s after the bytes of a dropped frame, n wire bytes consumed. -/
def State.afterDrop (body : List Byte) (rest : List (Option Byte)) (n : Nat) (reason : DropReason) (s : State) :
    State :=
  { s with rx := ⟨rest, s.rx.tail⟩, rxTaken := s.rxTaken + n, buf := (s.invalidateView.byteIns body).buf,
           idx := 0, esc := false, ovf := false, pktValid := false, flen := 0, lastDrop := reason.code, evt := 0x02,
           result := 0 }

theorem State.afterDrop_byteAt (body : List Byte) (rest : List (Option Byte)) (n : Nat) (reason : DropReason)
    (s : State) (a : Nat) :
    (s.afterDrop body rest n reason).byteAt a = (s.invalidateView.byteIns body).byteAt a := by
  refine State.byteAt_congr ?_ ?_ a
  · rfl
  · rw [State.byteIns_frame]
    rfl

/-- A frame dropped before a checksum is computed. -/
theorem exec_tryRecv_dropped {s : State} {body : List Byte} {rest : List (Option Byte)} {reason : DropReason}
    (he : s.esc = false) (h : s.rx.answers = handOver (escapeAll body ++ [slipEnd]) ++ none :: rest)
    (hin : (s.invalidateView.byteIns body).ovf = true ∨ (s.invalidateView.byteIns body).idx.toNat ≤ s.cfg.cap)
    (hframe : ∀ u : State, u.ovf = (s.invalidateView.byteIns body).ovf → u.idx = (s.invalidateView.byteIns body).idx →
      u.frameEnd = (.dropped, (u.recordDrop reason).clearFrame)) :
    exec .tryRecv s = .next (s.afterDrop body rest ((escapeAll body).length + 1) reason) := by
  let f := s.invalidateView.byteIns body
  have hin : f.ovf = true ∨ f.idx.toNat ≤ f.cfg.cap := by rw [State.byteIns_cfg]; exact hin
  rw [exec_tryRecv_noPacket he h (rxByte_end_of_dropped intercept hin (hframe _ rfl rfl)) (by simp), State.afterDrop,
    State.byteIns_frame]
  rfl

/-- Settles O44: the empty frame ends at a boundary, every other one is short (R152, R153). -/
theorem shortFrameIsRejected : Obligations.ShortFrameIsRejected := by
  intro s body rest hi he ho hlegal hlen h
  by_cases hnil : body = []
  · subst hnil
    have hend := rxByte_end_of_empty intercept (s := s.invalidateView.polled (none :: rest) 1) hi ho
    refine ⟨_, exec_tryRecv_noPacket (body := []) he h hend (by simp), ?_⟩
    rw [hi, he, ho]
    rfl
  · have hpos : body.length ≠ 0 := mt List.length_eq_zero_iff.mp hnil
    have hidx : s.invalidateView.idx.toNat = 0 := congrArg BitVec.toNat hi
    have hroom : s.invalidateView.idx.toNat + body.length ≤ s.invalidateView.cfg.cap := by
      have hcap : 8 ≤ s.invalidateView.cfg.cap := hlegal
      omega
    obtain ⟨hovf, hfill, -⟩ := State.byteIns_of_room (s := s.invalidateView) ho hroom
    rw [hidx, Nat.zero_add] at hfill hroom
    refine ⟨_, exec_tryRecv_dropped (reason := .short) he h (.inr (hfill ▸ hroom)) fun u hu hu' => ?_, ?_⟩
    · have hulen : u.idx.toNat = body.length := by rw [hu', hfill]
      exact State.frameEnd_of_short (hu.trans hovf) (fun h0 => hpos (by rw [← hulen, h0]; rfl)) (by omega)
    · rw [State.afterDrop, if_neg hnil, hi, he, ho]
      rfl

/-! Bytes without room -/

/-- An oversized frame stores nothing more (R151). -/
theorem State.byteIns_of_ovf {s : State} (ho : s.ovf = true) (bs : List Byte) : s.byteIns bs = s := by
  induction bs with
  | nil => rfl
  | cons b bs ih =>
    have hkeep : s.byteIn b = s := by simp [State.byteIn, ho]
    rw [State.byteIns_cons, hkeep, ih]

/-- More bytes than there is room for mark the frame oversized. -/
theorem State.byteIns_oversize {bs : List Byte} {s : State} (hidx : s.idx.toNat ≤ s.cfg.cap)
    (hlen : s.cfg.cap < s.idx.toNat + bs.length) : (s.byteIns bs).ovf = true := by
  induction bs generalizing s with
  | nil => exact absurd hidx (Nat.not_le_of_lt hlen)
  | cons b bs ih =>
    rw [State.byteIns_cons]
    rw [List.length_cons] at hlen
    obtain ⟨ho, e⟩ | ⟨-, hlt, e⟩ | ⟨-, -, e⟩ := s.byteIn_cases b <;> rw [e]
    · rw [State.byteIns_of_ovf ho, ho]
    · have hnext := State.store_idx_toNat hlt b
      exact ih (by rw [hnext]; exact hlt) (by rw [hnext, State.store_cfg]; omega)
    · rw [State.byteIns_of_ovf rfl]
      rfl

theorem State.byteIn_byteAt_past {s : State} {a : Nat} (ha : s.cfg.cap ≤ a) (v : Byte) :
    (s.byteIn v).byteAt a = s.byteAt a := by
  obtain ⟨-, e⟩ | ⟨-, hlt, e⟩ | ⟨-, -, e⟩ := s.byteIn_cases v <;> rw [e]
  · exact State.store_byteAt_other v s (by omega)
  · rfl

theorem State.byteIns_byteAt_past {bs : List Byte} {s : State} {a : Nat} (ha : s.cfg.cap ≤ a) :
    (s.byteIns bs).byteAt a = s.byteAt a := by
  induction bs generalizing s with
  | nil => rfl
  | cons b bs ih =>
    have hcfg : (s.byteIn b).cfg = s.cfg := by rw [State.byteIn_frame]
    rw [State.byteIns_cons, ih (by rw [hcfg]; exact ha), State.byteIn_byteAt_past ha]

/-- Settles O45. -/
theorem oversizeFrameIsDropped : Obligations.OversizeFrameIsDropped := by
  intro s body rest hi he ho hlen h
  have hidx : s.invalidateView.idx.toNat = 0 := congrArg BitVec.toNat hi
  have hovf : (s.invalidateView.byteIns body).ovf = true :=
    State.byteIns_oversize (by omega) (by rw [hidx, Nat.zero_add]; exact hlen)
  refine ⟨_, exec_tryRecv_dropped (reason := .oversize) he h (.inl hovf)
    fun u hu _ => State.frameEnd_of_oversize (hu.trans hovf), ?_, fun a ha => ?_⟩
  · rw [State.afterDrop, hi, he, ho]
    rfl
  · rw [State.afterDrop_byteAt]
    exact State.byteIns_byteAt_past (s := s.invalidateView) ha

end Sys2Proof.Machine
end

section
/-! The SYNC procedures that run within a receive operation: how many, and what they leave of the transport and of the
controller; and statement O48. -/

namespace Sys2Proof.Machine

/-- From s to t the block transmitted k whole SYNC procedures and nothing else, and SYNC_LAST is the outcome of the last
one (R30, R181). -/
structure SyncRuns (k : Nat) (s t : State) : Prop extends SameSetting s t where
  sent : t.txLog = s.txLog ++ (List.replicate k (syncBytes s.cfg)).flatten
  kept : k = 0 → t.syncLast = s.syncLast
  outcome : k ≠ 0 → t.syncLast = 1 ∨ t.syncLast = 2
  syncing : t.syncing = s.syncing

theorem SameOutside.syncRuns {s t : State} (h : SameOutside s t) : SyncRuns 0 s t where
  toSameSetting := h.setting
  sent := by simp [h.txLog]
  kept _ := h.syncLast
  outcome h0 := absurd rfl h0
  syncing := h.syncing

theorem SyncRuns.trans {j k : Nat} {s t u : State} (h : SyncRuns j s t) (h' : SyncRuns k t u) :
    SyncRuns (j + k) s u where
  toSameSetting := h.toSameSetting.trans h'.toSameSetting
  sent := by rw [h'.sent, h.sent, h.cfg, List.replicate_add, List.flatten_append, List.append_assoc]
  kept h0 := (h'.kept (by omega)).trans (h.kept (by omega))
  outcome h0 := by
    by_cases hk : k = 0
    · rw [h'.kept hk]
      exact h.outcome (by omega)
    · exact h'.outcome hk
  syncing := h'.syncing.trans h.syncing

/-- A receive operation begins by invalidating the view and ends with its report; neither matters here. -/
theorem SyncRuns.operation {k : Nat} {s t : State} (h : SyncRuns k s.invalidateView t) (e : Event) (w : Word) :
    SyncRuns k s (t.finish e w) :=
  ⟨⟨h.cfg, h.hostq, h.resets⟩, h.sent, h.kept, h.outcome, h.syncing⟩

/-! One SYNC procedure (R181) -/

/-- The SYNC request is the wire form of its body (R186). -/
theorem State.sendSyncRequest_eq_wireFrame (s : State) :
    s.sendSyncRequest = (s.txWrite (wireFrame (syncBody s.cfg))).setCrc (crc16 (syncBody s.cfg)) :=
  State.closeFrame_sendBytes_openFrame (syncBody s.cfg) s

theorem syncProc_txLog {s t : State} {ok : Bool} (h : syncProc s = .ends ok t) :
    t.txLog = s.txLog ++ syncBytes s.cfg := by
  obtain ⟨n1, t1, n2, t2, t3, h1, h2, h3, rfl⟩ := syncProc_ends h
  rw [State.sendMarker_eq] at h1
  rw [State.sendSyncRequest_eq_wireFrame] at h3
  have drained : t1.txLog = s.txLog ++ syncMarker := (discard_same h1).txLog
  have delimited : t2.txLog = t1.txLog ++ [slipEnd] := (discard_same h2).txLog
  have waited : t3.txLog = t2.txLog ++ wireFrame (syncBody t2.cfg) := (syncWait_same h3).txLog
  have hcfg : t2.cfg = s.cfg := (discard_same h2).cfg.trans (discard_same h1).cfg
  calc t3.txLog = s.txLog ++ syncMarker ++ [slipEnd] ++ wireFrame (syncBody s.cfg) := by
        rw [waited, delimited, drained, hcfg]
    _ = s.txLog ++ syncBytes s.cfg := by simp [syncBytes]

/-- Entered Idle, the procedure ends Idle. -/
theorem syncProc_syncRuns {s t : State} {ok : Bool} (hidle : s.syncing = false) (h : syncProc s = .ends ok t) :
    SyncRuns 1 s t := by
  have hend : t.syncing = false ∧ t.syncLast = syncOutcomeCode ok := by
    obtain ⟨n1, t1, n2, t2, t3, -, -, -, rfl⟩ := syncProc_ends h
    exact ⟨rfl, rfl⟩
  obtain ⟨hsyncing, hlast⟩ := hend
  exact
    { toSameSetting := syncProc_setting h
      sent := by simpa using syncProc_txLog h
      kept := by simp
      outcome := fun _ => by cases ok <;> simp [hlast, syncOutcomeCode]
      syncing := hsyncing.trans hidle.symm }

/-! The receive operations: a procedure runs exactly where its outcome is reported (R180) -/

theorem intercept_syncRuns {s t : State} {r : ByteResult} (h : intercept s = .ends r t) :
    SameOutside s t ∨ ((∃ ok, r = .synced ok) ∧ SyncRuns 1 s t) := by
  obtain ⟨-, hidle, ok, hproc, rfl⟩ | ⟨-, -, rfl⟩ := intercept_ends h
  · have hview : SameOutside s s.invalidateView := by constructor <;> rfl
    exact .inr ⟨⟨ok, rfl⟩, hview.syncRuns.trans (syncProc_syncRuns (s := s.invalidateView) hidle hproc)⟩
  · exact .inl (SameOutside.rfl' t)

theorem rxByte_syncRuns {b : Byte} {s t : State} {r : ByteResult} (h : rxByte intercept b s = .ends r t) :
    SameOutside s t ∨ ((∃ ok, r = .synced ok) ∧ SyncRuns 1 s t) := by
  obtain h | ⟨u, hu, -, hi⟩ := rxByte_same h
  · exact .inl h
  · obtain hsame | ⟨hr, hruns⟩ := intercept_syncRuns hi
    · exact .inl (hu.trans hsame)
    · exact .inr ⟨hr, hu.syncRuns.trans hruns⟩

theorem drain_syncRuns : ∀ {n : Nat} {s t : State} {r : RecvResult}, drain intercept n s = .ends r t →
    SameOutside s t ∨ ((∃ ok, r = .synced ok) ∧ SyncRuns 1 s t) := by
  intro n
  induction n with
  | zero =>
    intro s t r h
    simp only [drain] at h
    split at h
    · cases h
    · cases h
      exact .inl (SameOutside.rxGap ‹_›)
  | succ n ih =>
    intro s t r h
    have hpolled := SameOutside.rxPoll s
    rcases hp : s.rxPoll with ⟨_ | b, u⟩ <;> rw [hp] at hpolled
    · rw [drain_succ_none hp] at h
      cases h
      exact .inl hpolled
    · rw [drain_succ_some hp] at h
      obtain ⟨q, v, hb, h⟩ := Proc.andThen_eq_ends.mp h
      obtain hbyte | ⟨⟨ok, rfl⟩, hruns⟩ := rxByte_syncRuns hb
      · have hround := hpolled.trans hbyte
        cases q with
        | packet | synced ok => cases h; exact .inl hround
        | byte | empty | dropped =>
          obtain hrest | ⟨hr, hruns⟩ := ih h
          · exact .inl (hround.trans hrest)
          · exact .inr ⟨hr, by simpa using hround.syncRuns.trans hruns⟩
      · cases h
        exact .inr ⟨⟨ok, rfl⟩, by simpa using hpolled.syncRuns.trans hruns⟩

/-- Each iteration of RECV runs at most one procedure (R162). -/
theorem receive_syncRuns : ∀ {n : Nat} {s t : State} {r : RecvResult}, receive intercept n s = .ends r t →
    ∃ k ≤ n, SyncRuns k s t := by
  intro n
  induction n with
  | zero =>
    intro s t r h
    rw [receive_zero] at h
    cases h
    exact ⟨0, le_rfl, (SameOutside.rfl' s).syncRuns⟩
  | succ n ih =>
    intro s t r h
    rw [receive_succ_eq] at h
    obtain ⟨q, u, hu, h⟩ := Proc.andThen_eq_ends.mp h
    have htry : ∃ j ≤ 1, SyncRuns j s u := by
      obtain hsame | ⟨-, hruns⟩ := drain_syncRuns hu
      · exact ⟨0, by omega, hsame.syncRuns⟩
      · exact ⟨1, le_rfl, hruns⟩
    obtain ⟨j, hj, hfirst⟩ := htry
    cases q with
    | packet =>
      cases h
      exact ⟨j, by omega, hfirst⟩
    | nopacket | synced _ =>
      obtain ⟨k, hk, hrest⟩ := ih h
      exact ⟨j + k, by omega, hfirst.trans hrest⟩

theorem execRxStep_syncRuns {s t : State} (h : execRxStep s = .next t) (hok : t.evt ≠ 0x07) (hfail : t.evt ≠ 0x08) :
    SyncRuns 0 s t := by
  have hpolled := SameOutside.rxPoll s.invalidateView
  unfold execRxStep at h
  split at h <;> rename_i hp <;> rw [hp] at hpolled
  · cases h
    exact hpolled.syncRuns.operation _ _
  · obtain ⟨r, u, hu, rfl⟩ := Proc.finally_eq_next.mp h
    obtain ⟨e, w, hreport, -, hsync⟩ := finishStep_eq r u
    rw [hreport] at hok hfail ⊢
    obtain hsame | ⟨hr, -⟩ := rxByte_syncRuns hu
    · exact (hpolled.trans hsame).syncRuns.operation e w
    · exact absurd (hsync.mpr hr) (not_or.mpr ⟨hok, hfail⟩)

theorem execTryRecv_syncRuns {s t : State} (h : execTryRecv s = .next t) (hok : t.evt ≠ 0x07) (hfail : t.evt ≠ 0x08) :
    SyncRuns 0 s t := by
  obtain ⟨r, u, hu, rfl⟩ := Proc.finally_eq_next.mp h
  obtain ⟨e, w, hreport, -, hsync⟩ := finishTry_eq r u
  rw [hreport] at hok hfail ⊢
  obtain hsame | ⟨hr, -⟩ := drain_syncRuns hu
  · exact hsame.syncRuns.operation e w
  · exact absurd (hsync.mpr hr) (not_or.mpr ⟨hok, hfail⟩)

theorem execRxFlush_syncRuns {s t : State} (h : execRxFlush s = .next t) : SyncRuns 0 s t := by
  obtain ⟨n, u, hu, rfl⟩ := Proc.finally_eq_next.mp h
  exact (discard_same hu).syncRuns.operation _ _

theorem execRecv_syncRuns {n : Half} {s t : State} (h : execRecv n s = .next t) :
    ∃ k ≤ n.toNat, SyncRuns k s t := by
  obtain ⟨r, u, hu, rfl⟩ := Proc.finally_eq_next.mp h
  obtain ⟨e, w, hreport, -⟩ := finishRecv_eq r u
  obtain ⟨k, hk, hruns⟩ := receive_syncRuns hu
  rw [hreport]
  exact ⟨k, hk, hruns.operation e w⟩

/-- Settles O48. -/
theorem receiveFrame : Obligations.ReceiveFrame := by
  refine ⟨fun i s t hi h hok hfail => ?_, fun n s t h => ?_⟩
  · have hnone : SyncRuns 0 s t := by
      obtain rfl | rfl | rfl : i = .rxStep ∨ i = .tryRecv ∨ i = .rxFlush := by simpa using hi
      · exact execRxStep_syncRuns h hok hfail
      · exact execTryRecv_syncRuns h hok hfail
      · exact execRxFlush_syncRuns h
    exact ⟨by simpa using hnone.sent, hnone.kept rfl, hnone.syncing, hnone.cfg, hnone.hostq, hnone.resets⟩
  · obtain ⟨k, hk, hruns⟩ := execRecv_syncRuns h
    exact ⟨k, hk, hruns.sent, hruns.kept, hruns.outcome, hruns.syncing, hruns.cfg, hruns.hostq, hruns.resets⟩

end Sys2Proof.Machine
end

section
/-! The SYNC procedure from its discards to its wait: what it leaves behind, and statements O54 and O53. -/

namespace Sys2Proof.Machine

/-! SYNC (R182, R183) -/

theorem exec_sync_of_idle {s : State} (hidle : s.syncing = false) :
    exec .sync s = (syncProc s.invalidateView).finally finishSync :=
  if_neg (by simp [hidle])

/-- Settles O54. -/
theorem reentrantSyncIsRefused : Obligations.ReentrantSyncIsRefused := fun _ hsyncing => if_pos hsyncing

/-- The procedure leaves its outcome in SYNC_LAST (R181). -/
theorem syncProc_syncLast {s t : State} {ok : Bool} (h : syncProc s = .ends ok t) :
    t.syncLast = syncOutcomeCode ok := by
  obtain ⟨n1, t1, n2, t2, t3, -, -, -, rfl⟩ := syncProc_ends h
  rfl

/-! From the discards to the request (R181) -/

/-- The state in which a SYNC procedure that found the peer as `rx` after its two discards waits for the response. -/
def State.requested (rx : Peer) (taken : Nat) (s : State) : State :=
  { s with rx := rx, rxTaken := taken, txLog := s.txLog ++ syncBytes s.cfg, crc := crc16 (syncBody s.cfg),
           pktValid := false, flen := 0, idx := 0, esc := false, ovf := false, syncing := true }

/-- What is left of a procedure where it waits: the response, and the return to Idle. -/
def awaitResponse (w : State) : Proc Bool :=
  (syncWait (w.pollBudget + 1) w).andThen fun ok t => .ends ok (t.invalidateView.endSync ok)

/-- The three writes of the procedure make up its bytes. -/
theorem State.sendSyncRequest_after (rx : Peer) (taken : Nat) (s : State) :
    State.sendSyncRequest { s with rx := rx, rxTaken := taken, txLog := s.txLog ++ syncMarker ++ [slipEnd],
                                   pktValid := false, flen := 0, idx := 0, esc := false, ovf := false,
                                   syncing := true } = s.requested rx taken := by
  rw [State.sendSyncRequest_eq_wireFrame, State.requested, syncBytes, ← List.append_assoc, ← List.append_assoc]
  rfl

theorem awaitResponse_sendSyncRequest (s : State) :
    awaitResponse s.sendSyncRequest =
      (syncWait (s.pollBudget + 1) s.sendSyncRequest).andThen fun ok t => .ends ok (t.invalidateView.endSync ok) := by
  rw [awaitResponse, State.sendSyncRequest_pollBudget]

/-- The procedure by what its two discards find: the request follows, and the wait (R181). -/
theorem syncProc_of_discards {s t u : State} {m n : Nat} (hfirst : discard (s.beginSync.txWrite syncMarker) = .ends m t)
    (hsecond : discard (t.txWrite [slipEnd]) = .ends n u) : syncProc s = awaitResponse u.sendSyncRequest := by
  rw [syncProc, State.sendMarker_eq, hfirst, Proc.andThen_ends, hsecond, Proc.andThen_ends,
    awaitResponse_sendSyncRequest]

/-- Both discards where the bytes they take are listed with a gap behind them. -/
theorem syncProc_of_listed {s : State} {early late : List Byte} {rest : List (Option Byte)}
    (h : s.rx.answers = handOver early ++ [none] ++ handOver late ++ [none] ++ rest) :
    syncProc s.invalidateView =
      awaitResponse (s.requested ⟨rest, s.rx.tail⟩ (s.rxTaken + early.length + late.length)) := by
  have hearly : s.rx.answers = early.map some ++ none :: (late.map some ++ none :: rest) := by
    simpa [handOver] using h
  rw [syncProc_of_discards (discard_gap (s := s.invalidateView.beginSync.txWrite syncMarker) hearly)
    (discard_gap (bs := late) (rest := rest) rfl), ← State.sendSyncRequest_after]
  simp only [State.clearFrame, State.polled, State.txWrite, State.beginSync, State.invalidateView]

/-- Both discards where the peer is silent. -/
theorem syncProc_of_silent {s : State} (h : s.rx = ⟨[], .silent⟩) :
    syncProc s.invalidateView = awaitResponse (s.requested s.rx s.rxTaken) := by
  rw [syncProc_of_discards (discard_silent (s := s.invalidateView.beginSync.txWrite syncMarker) (bs := []) h)
    (discard_silent (bs := []) (by simp [h])), ← State.sendSyncRequest_after]
  simp only [State.clearFrame, State.polled, State.txWrite, State.beginSync, State.invalidateView, h, List.length_nil,
    Nat.add_zero]

/-! One receive of the wait (R181) -/

theorem receive_intercept_of_syncing {n : Nat} : ∀ {s : State}, s.syncing = true →
    receive intercept n s = receive surface n s := by
  induction n with
  | zero => intro s _; rw [receive_zero, receive_zero]
  | succ n ih =>
    intro s hs
    rw [receive_succ_eq, receive_succ_eq]
    dsimp only
    rw [tryReceive_intercept_of_syncing hs]
    cases h : tryReceive surface s with
    | stops r => rfl
    | ends r t =>
      have ht : t.syncing = true := (drain_surface_same h).syncing.trans hs
      cases r with
      | packet => rfl
      | nopacket | synced _ => exact ih ht

/-- RECV while SYNCING = 1 is such a receive. -/
theorem exec_recv_of_syncing {n : Half} {s t : State} (hs : s.syncing = true) (h : exec (.recv n) s = .next t) :
    ∃ r u, receive surface n.toNat s.invalidateView = .ends r u ∧ t = finishRecv r u := by
  obtain ⟨r, u, hu, rfl⟩ := Proc.finally_eq_next.mp h
  rw [receive_intercept_of_syncing (s := s.invalidateView) hs] at hu
  exact ⟨r, u, hu, rfl⟩

/-- A packet takes at least one of the listed answers, where no free answer is drawn. -/
theorem length_answers_lt_of_packet {n : Nat} {s t : State} (h : receive surface n s = .ends .packet t)
    (htail : t.rx.tail = s.rx.tail) : t.rx.answers.length < s.rx.answers.length := by
  by_cases hs : ∀ k, s.rx.tail ≠ .unlisted k
  · obtain ⟨-, -, hlt⟩ := receive_surface_rest n hs h
    exact hlt rfl
  · obtain ⟨k, hk⟩ := not_forall_not.mp hs
    obtain ⟨drawn, taken, htraffic, hreplay⟩ := receive_traced surface_traced n s _ t h
    obtain ⟨-, -, hdrew, -⟩ := htraffic.drew
    have hnone : drawn = [] := by
      have := hdrew k hk
      rw [htail, hk, Tail.unlisted.injEq] at this
      exact List.eq_nil_of_length_eq_zero (by omega)
    have hpos := List.length_pos_iff.mpr (taken_ne_nil_of_packet hreplay)
    have horder := congrArg List.length htraffic.order
    rw [hnone, List.append_nil, List.length_append] at horder
    omega

/-! The wait by the rule's loop (`WaitEnds`) -/

theorem WaitEnds.traffic {s t : State} {ok : Bool} (h : WaitEnds s ok t) :
    ∃ drawn taken, Traffic s t drawn taken := by
  induction h with
  | nopacket hrecv _ | version hrecv _ _ =>
    obtain ⟨drawn, taken, htraffic, -⟩ := exec_traced _ _ _ hrecv
    exact ⟨drawn, taken, htraffic⟩
  | other hrecv _ _ _ ih =>
    obtain ⟨drawn, taken, htraffic, -⟩ := exec_traced _ _ _ hrecv
    obtain ⟨drawn', taken', hrest⟩ := ih
    exact ⟨_, _, htraffic.trans hrest⟩

/-- A run that leaves the tail as it was left it so in its first part. -/
theorem Traffic.tail_of_trans {s t u : State} {d₁ k₁ d₂ k₂ : List (Option Byte)} (h₁ : Traffic s t d₁ k₁)
    (h₂ : Traffic t u d₂ k₂) (h : u.rx.tail = s.rx.tail) : t.rx.tail = s.rx.tail := by
  obtain ⟨-, silent₁, unlisted₁, endless₁⟩ := h₁.drew
  obtain ⟨-, -, unlisted₂, endless₂⟩ := h₂.drew
  cases hs : s.rx.tail with
  | silent => exact (silent₁ hs).1
  | unlisted k =>
    have ht := unlisted₁ k hs
    have hu := unlisted₂ _ ht
    rw [h, hs, Tail.unlisted.injEq] at hu
    rw [ht, show d₁.length = 0 by omega, Nat.add_zero]
  | endless k =>
    obtain ⟨ht, -⟩ := endless₁ k hs
    obtain ⟨hu, -⟩ := endless₂ _ ht
    rw [h, hs, Tail.endless.injEq] at hu
    rw [ht, show d₁.length = 0 by omega, Nat.add_zero]

/-- A procedure run from where another operation has reported. -/
theorem IgnoresReport.ends_of_finish {α : Type} {p : State → Proc α} (hp : IgnoresReport p) {e : Event} {w : Word}
    {s t : State} {a : α} (h : p (s.finish e w) = .ends a t) : ∃ u, p s = .ends a u ∧ t = u.finish e w := by
  rw [hp] at h
  cases hps : p s with
  | stops r => rw [hps] at h; cases h
  | ends b u => rw [hps] at h; cases h; exact ⟨u, rfl, rfl⟩

/-- The wait of the procedure is the rule's loop, but for the reports of its RECVs, with any bound above the number of
the listed answers (log 14). -/
theorem WaitEnds.syncWait_ends {s t : State} {ok : Bool} (h : WaitEnds s ok t) :
    ∀ {m : Nat}, s.syncing = true → t.rx.tail = s.rx.tail → s.rx.answers.length < m →
      ∃ u e w, syncWait m s.invalidateView = .ends ok u ∧ t = u.finish e w := by
  induction h with
  | @nopacket s t hrecv hevt =>
    intro m hs _ hm
    obtain ⟨m, rfl⟩ := Nat.exists_eq_add_of_lt hm
    obtain ⟨r, u, hu, rfl⟩ := exec_recv_of_syncing hs hrecv
    cases r with
    | packet => exact absurd hevt (by simp [finishRecv, Event.code])
    | nopacket | synced _ => exact ⟨u, .nopkt, 0, by rw [syncWait_succ, State.invalidateView_cfg, hu]; rfl, rfl⟩
  | @version s t hrecv hevt hcmd =>
    intro m hs _ hm
    obtain ⟨m, rfl⟩ := Nat.exists_eq_add_of_lt hm
    obtain ⟨r, u, hu, rfl⟩ := exec_recv_of_syncing hs hrecv
    have hcfg : u.cfg = s.cfg := (receive_surface_same hu).cfg
    cases r with
    | packet =>
      refine ⟨u, .pkt, 1, ?_, rfl⟩
      rw [syncWait_succ, State.invalidateView_cfg, hu]
      exact if_pos (hcfg ▸ hcmd)
    | nopacket | synced _ => exact absurd hevt (by simp [finishRecv, Event.code])
  | @other s t v ok hrecv hevt hcmd hrest ih =>
    intro m hs htail hm
    obtain ⟨m, rfl⟩ := Nat.exists_eq_add_of_lt hm
    obtain ⟨drawn, taken, htraffic, -⟩ := exec_traced _ _ _ hrecv
    obtain ⟨drawn', taken', htraffic'⟩ := hrest.traffic
    have hkeep : t.rx.tail = s.rx.tail := htraffic.tail_of_trans htraffic' htail
    obtain ⟨r, u, hu, rfl⟩ := exec_recv_of_syncing hs hrecv
    have hsame := receive_surface_same hu
    cases r with
    | packet =>
      have hlt : u.rx.answers.length < s.rx.answers.length := 
        length_answers_lt_of_packet (s := s.invalidateView) hu hkeep
      obtain ⟨v', e, w, hwait, rfl⟩ := ih (m := s.rx.answers.length + m) (hsame.syncing.trans hs)
        (htail.trans hkeep.symm) (Nat.lt_add_right m hlt)
      obtain ⟨v, hv, rfl⟩ :=
        (syncWait_ignoresReport _).ends_of_finish (s := u.invalidateView) (e := .pkt) (w := 1) hwait
      refine ⟨v, e, w, ?_, rfl⟩
      rw [syncWait_succ, State.invalidateView_cfg, hu]
      exact (if_neg (hsame.cfg ▸ hcmd)).trans hv
    | nopacket | synced _ => exact absurd hevt (by simp [finishRecv, Event.code])

/-- Settles O53. -/
theorem syncWritesOneProcedure : Obligations.SyncWritesOneProcedure := by
  refine ⟨fun s t hidle h => ?_, fun s t early late rest ok hidle hanswers hwait htail => ?_⟩
  · rw [exec_sync_of_idle hidle] at h
    obtain ⟨ok, u, hproc, rfl⟩ := Proc.finally_eq_next.mp h
    have hruns := syncProc_syncRuns (s := s.invalidateView) hidle hproc
    have hview := syncProc_noView hproc
    have hlast := syncProc_syncLast hproc
    have hsent : u.txLog = s.txLog ++ syncBytes s.cfg := syncProc_txLog (s := s.invalidateView) hproc
    have hreports : (u.syncLast = 1 ∧ (finishSync ok u).evt = 0x07 ∧ (finishSync ok u).result = 1) ∨
        (u.syncLast = 2 ∧ (finishSync ok u).evt = 0x08 ∧ (finishSync ok u).result = 0) := by
      cases ok with
      | true => exact .inl ⟨hlast, rfl, rfl⟩
      | false => exact .inr ⟨hlast, rfl, rfl⟩
    obtain ⟨e, w, hfinish, -⟩ := finishSync_eq ok u
    rw [hfinish] at hreports ⊢
    exact ⟨hsent, hruns.syncing.trans hidle, hview.pktValid, hview.flen, hreports, hruns.cfg,
      hruns.hostq, hruns.resets⟩
  · obtain ⟨u, e, w, hu, rfl⟩ := hwait.syncWait_ends rfl htail (Nat.lt_succ_of_le (State.length_le_pollBudget _))
    rw [exec_sync_of_idle hidle, syncProc_of_listed hanswers, awaitResponse]
    refine (congrArg (Proc.finally · finishSync) (congrArg (Proc.andThen · _) hu)).trans ?_
    cases ok <;> rfl

end Sys2Proof.Machine
end

section
/-! The sync wait on gaps and on the frames of other packets, and statements O52 and O51. -/

namespace Sys2Proof.Machine

/-! One receive of the wait on listed answers (R159) -/

/-- The state of the wait between two receives: a cleared assembler and no view. -/
structure State.Listening (s : State) : Prop extends State.NoView s where
  idx : s.idx = 0
  esc : s.esc = false
  ovf : s.ovf = false

/-- What the wait keeps of the wire bytes it went through: the buffer and a checksum; `rest` is left with the peer. -/
def State.heard (rest : List (Option Byte)) (n : Nat) (buf : Memory) (crc : Half) (s : State) : State :=
  { s with rx := ⟨rest, s.rx.tail⟩, rxTaken := s.rxTaken + n, buf := buf, crc := crc }

theorem State.heard_heard (rest rest' : List (Option Byte)) (n n' : Nat) (buf buf' : Memory) (crc crc' : Half)
    (s : State) : (s.heard rest n buf crc).heard rest' n' buf' crc' = s.heard rest' (n + n') buf' crc' := by
  simp only [State.heard, Nat.add_assoc]

theorem State.Listening.of_requested (rx : Peer) (taken : Nat) (s : State) : (s.requested rx taken).Listening :=
  ⟨⟨rfl, rfl⟩, rfl, rfl, rfl⟩

theorem State.Listening.heard {s : State} (h : s.Listening) (rest : List (Option Byte)) (n : Nat) (buf : Memory)
    (crc : Half) : (s.heard rest n buf crc).Listening :=
  ⟨⟨h.pktValid, h.flen⟩, h.idx, h.esc, h.ovf⟩

/-- A packet received in the wait, and its view discarded (R181). -/
theorem State.Listening.received_invalidateView {s : State} {body : List Byte} (h : s.Listening)
    (hcap : body.length + 2 ≤ s.cfg.cap) (rest : List (Option Byte)) :
    (s.received body rest).invalidateView =
      s.heard rest (wireFrame body).length (s.received body rest).buf (crc16 body) := by
  have hframe := State.received_eq (rest := rest) hcap
  generalize s.received body rest = u at *
  rw [hframe, State.heard]
  simp only [State.invalidateView, h.pktValid, h.flen, h.idx, h.esc, h.ovf]

/-- With no byte in its whole budget a receive yields no packet. -/
theorem receive_of_gaps (hook : State → Proc ByteResult) {n : Nat} {s : State} {rest : List (Option Byte)}
    (h : s.rx.answers = List.replicate n none ++ rest) : receive hook n s = .ends .nopacket (s.polled rest 0) := by
  have hself : s.withPeer (List.replicate n none ++ rest) s.rx.tail = s := by rw [← h]; rfl
  have hgaps := receive_gaps hook n s rest s.rx.tail
  rw [hself] at hgaps
  exact hgaps

/-- A frame behind fewer gaps than the budget is received. -/
theorem receive_surface_frame {gaps : Nat} : ∀ {n : Nat} {s : State} {body : List Byte} {rest : List (Option Byte)},
    gaps < n → s.idx = 0 → s.ovf = false → bodyFits s.cfg body →
    s.rx.answers = List.replicate gaps none ++ handOver (wireFrame body) ++ rest →
    receive surface n s = .ends .packet (s.received body rest) := by
  induction gaps with
  | zero =>
    intro n s body rest hn hi ho ⟨hmin, hcap⟩ h
    obtain ⟨n, rfl⟩ := Nat.exists_eq_add_of_lt hn
    rw [receive_succ, tryReceive_wireFrame surface_reports hi ho hmin hcap (by simpa using h) rfl]
  | succ gaps ih =>
    intro n s body rest hn hi ho hfits h
    obtain ⟨n, rfl⟩ : ∃ k, n = k + 1 := ⟨n - 1, by omega⟩
    have hgap : s.rx.answers = none :: (List.replicate gaps none ++ handOver (wireFrame body) ++ rest) := h
    have hsame (l : List (Option Byte)) : (s.polled l 0).received body rest = s.received body rest := by
      rw [State.received, State.filled]
      rfl
    rw [receive_succ, tryReceive_none surface hgap]
    rw [← hsame (List.replicate gaps none ++ handOver (wireFrame body) ++ rest)]
    exact ih (Nat.lt_of_succ_lt_succ hn) hi ho hfits rfl

/-! The wait (R181) -/

/-- A frame received within the budget ends the wait, or is discarded and the wait goes on. -/
theorem syncWait_frame {s : State} {body : List Byte} {rest : List (Option Byte)} {gaps : Nat} (m : Nat)
    (hs : s.Listening) (hgaps : gaps < s.cfg.syncRxTimeout.toNat) (hfits : bodyFits s.cfg body)
    (h : s.rx.answers = List.replicate gaps none ++ handOver (wireFrame body) ++ rest) :
    syncWait (m + 1) s =
      if bodyCmd body = s.cfg.versionCmd then .ends true (s.received body rest)
      else syncWait m (s.received body rest).invalidateView := by
  obtain ⟨hmin, hcap⟩ := hfits
  rw [syncWait_succ, receive_surface_frame hgaps hs.idx hs.ovf ⟨hmin, hcap⟩ h, Proc.andThen_ends,
    State.received_packetCmd hcap (by omega), State.received_cfg]

/-- Where no byte comes in the whole budget the wait fails. -/
theorem syncWait_gaps {s : State} {rest : List (Option Byte)} (m : Nat)
    (h : s.rx.answers = List.replicate s.cfg.syncRxTimeout.toNat none ++ rest) :
    syncWait (m + 1) s = .ends false (s.polled rest 0) := by
  rw [syncWait_succ, receive_of_gaps surface h, Proc.andThen_ends]

/-- How many wire bytes there are in rounds of gaps and frames. -/
def wireBytes (rounds : List (Nat × List Byte)) : Nat := ((gapsAndFrames rounds).filter Option.isSome).length

theorem gapsAndFrames_cons (r : Nat × List Byte) (rounds : List (Nat × List Byte)) :
    gapsAndFrames (r :: rounds) = List.replicate r.1 none ++ handOver (wireFrame r.2) ++ gapsAndFrames rounds := rfl

theorem wireBytes_cons (r : Nat × List Byte) (rounds : List (Nat × List Byte)) :
    wireBytes (r :: rounds) = (wireFrame r.2).length + wireBytes rounds := by
  have hframe : (handOver (wireFrame r.2)).filter Option.isSome = handOver (wireFrame r.2) :=
    List.filter_eq_self.mpr (by simp [handOver])
  rw [wireBytes, gapsAndFrames_cons, List.filter_append, List.filter_append, hframe]
  simp [handOver, wireBytes]

/-- Each round takes at least one poll. -/
theorem length_le_gapsAndFrames (rounds : List (Nat × List Byte)) :
    rounds.length ≤ (gapsAndFrames rounds).length := by
  induction rounds with
  | nil => exact Nat.zero_le _
  | cons r rounds ih =>
    rw [gapsAndFrames_cons, wireFrame_eq]
    simp only [List.length_append, List.length_cons, handOver, List.length_map]
    omega

/-- The body of the last frame validated: that of the last round, or else `body`. -/
def lastBody (rounds : List (Nat × List Byte)) (body : List Byte) : List Byte :=
  (rounds.getLast?.map Prod.snd).getD body

theorem lastBody_cons (r : Nat × List Byte) (rounds : List (Nat × List Byte)) (body : List Byte) :
    lastBody (r :: rounds) body = lastBody rounds r.2 := by
  rw [lastBody, lastBody, List.getLast?_cons]
  cases rounds.getLast? <;> rfl

/-- Other packets, each within its budget, are gone through one after another. -/
theorem syncWait_rounds {rounds : List (Nat × List Byte)} (m : Nat) :
    ∀ {s : State} {body : List Byte} {rest : List (Option Byte)}, s.Listening → roundsWithin s.cfg rounds →
      s.crc = crc16 body → s.rx.answers = gapsAndFrames rounds ++ rest →
      ∃ buf, syncWait (rounds.length + m) s =
        syncWait m (s.heard rest (wireBytes rounds) buf (crc16 (lastBody rounds body))) := by
  induction rounds with
  | nil =>
    intro s body rest _ _ hcrc h
    have hrest : s.rx.answers = rest := h
    refine ⟨s.buf, ?_⟩
    rw [State.heard, ← hrest, List.length_nil, Nat.zero_add]
    exact congrArg (syncWait m) (by rw [show lastBody [] body = body from rfl, ← hcrc]; rfl)
  | cons r rounds ih =>
    intro s body rest hs hwithin hcrc h
    obtain ⟨⟨hgaps, hfits, hother⟩, hrounds⟩ := List.forall_mem_cons.mp hwithin
    rw [gapsAndFrames_cons, List.append_assoc] at h
    have hframe := hs.received_invalidateView hfits.2 (gapsAndFrames rounds ++ rest)
    generalize (s.received r.2 (gapsAndFrames rounds ++ rest)).buf = b at hframe
    obtain ⟨buf, hrest⟩ := ih (s := s.heard (gapsAndFrames rounds ++ rest) (wireFrame r.2).length b (crc16 r.2))
      (hs.heard _ _ _ _) hrounds rfl rfl
    refine ⟨buf, ?_⟩
    rw [List.length_cons, Nat.add_right_comm, syncWait_frame _ hs hgaps hfits h, if_neg hother, hframe, hrest,
      State.heard_heard, lastBody_cons, wireBytes_cons]

/-! The procedure (R181) -/

/-- The state in which a procedure listens after its discards, its request and those packets. -/
def State.listened (early late : List Byte) (rounds : List (Nat × List Byte)) (rest : List (Option Byte))
    (buf : Memory) (s : State) : State :=
  (s.requested ⟨gapsAndFrames rounds ++ rest, s.rx.tail⟩ (s.rxTaken + early.length + late.length)).heard rest
    (wireBytes rounds) buf (crc16 (lastBody rounds (syncBody s.cfg)))

theorem exec_sync_rounds {s : State} {early late : List Byte} {rounds : List (Nat × List Byte)}
    {rest : List (Option Byte)} (hidle : s.syncing = false) (hwithin : roundsWithin s.cfg rounds)
    (h : s.rx.answers = handOver early ++ [none] ++ handOver late ++ [none] ++ (gapsAndFrames rounds ++ rest)) :
    ∃ buf m, exec .sync s =
      ((syncWait (m + 1) (s.listened early late rounds rest buf)).andThen fun ok t =>
        .ends ok (t.invalidateView.endSync ok)).finally finishSync := by
  rw [exec_sync_of_idle hidle, syncProc_of_listed h, awaitResponse]
  generalize hw : s.requested ⟨gapsAndFrames rounds ++ rest, s.rx.tail⟩ (s.rxTaken + early.length + late.length) = w
  have hlistening : w.Listening := hw ▸ State.Listening.of_requested _ _ s
  have hcfg : w.cfg = s.cfg := hw ▸ rfl
  have hcrc : w.crc = crc16 (syncBody s.cfg) := hw ▸ rfl
  have hanswers : w.rx.answers = gapsAndFrames rounds ++ rest := hw ▸ rfl
  obtain ⟨m, hm⟩ : ∃ m, w.pollBudget + 1 = rounds.length + (m + 1) := by
    have hbudget := w.length_le_pollBudget
    rw [hanswers, List.length_append] at hbudget
    have := length_le_gapsAndFrames rounds
    exact ⟨w.pollBudget - rounds.length, by omega⟩
  obtain ⟨buf, hrounds⟩ := syncWait_rounds (m + 1) hlistening (hcfg ▸ hwithin) hcrc hanswers
  refine ⟨buf, m, ?_⟩
  rw [hm, hrounds, State.listened, hw]

theorem State.Listening.of_listened (early late : List Byte) (rounds : List (Nat × List Byte))
    (rest : List (Option Byte)) (buf : Memory) (s : State) : (s.listened early late rounds rest buf).Listening :=
  (State.Listening.of_requested _ _ s).heard _ _ _ _

/-- Settles O52. -/
theorem syncSucceedsOnVersion : Obligations.SyncSucceedsOnVersion := by
  intro s early late body rounds gaps rest hidle hwithin hgaps hfits hversion h
  obtain ⟨buf, m, hsync⟩ := exec_sync_rounds hidle hwithin
    (rest := List.replicate gaps none ++ handOver (wireFrame body) ++ rest) (by simpa using h)
  have hlistening := State.Listening.of_listened early late rounds
    (List.replicate gaps none ++ handOver (wireFrame body) ++ rest) buf s
  rw [syncWait_frame m hlistening hgaps hfits rfl,
    if_pos (show bodyCmd body = (s.listened _ _ _ _ _).cfg.versionCmd from hversion), Proc.andThen_ends,
    Proc.finally_ends, hlistening.received_invalidateView hfits.2] at hsync
  refine ⟨_, hsync, ?_⟩
  rw [hidle]
  rfl

/-! Without an answer -/

theorem awaitResponse_of_silent {w : State} (h : w.rx = ⟨[], .silent⟩) :
    awaitResponse w = .ends false (w.invalidateView.endSync false) := by
  rw [awaitResponse, syncWait_succ, receive_eq_receiveLoop, receiveLoop_quiet h, Proc.andThen_ends, Proc.andThen_ends]

/-- SYNC with a silent peer writes its bytes and fails (R182). -/
theorem exec_sync_of_silent {s : State} (hidle : s.syncing = false) (h : s.rx = ⟨[], .silent⟩) :
    exec .sync s =
      .next { s with txLog := s.txLog ++ syncBytes s.cfg, crc := crc16 (syncBody s.cfg), pktValid := false, flen := 0,
                     idx := 0, esc := false, ovf := false, syncLast := 2, evt := 0x08, result := 0 } := by
  rw [exec_sync_of_idle hidle, syncProc_of_silent h,
    awaitResponse_of_silent (w := s.requested s.rx s.rxTaken) h, hidle]
  rfl

theorem extractByte_eq (v : Word) (k : Nat) : v.extractLsb' k 8 = (v >>> k).setWidth 8 :=
  BitVec.eq_of_toNat_eq (by simp)

/-- The request's body, byte by byte (R181, R186). -/
theorem syncBody_eq (c : Config) :
    syncBody c =
      [c.syncCmd.setWidth 8, (c.syncCmd >>> 8).setWidth 8, 0x00, 0x00, c.syncReqValue.setWidth 8,
        (c.syncReqValue >>> 8).setWidth 8, (c.syncReqValue >>> 16).setWidth 8, (c.syncReqValue >>> 24).setWidth 8] := by
  simp [syncBody, bytes16, bytes32, lo8_eq_setWidth, hi8_eq_setWidth, extractByte_eq]

/-- The bytes of a procedure, written out up to the request's body. -/
theorem syncBytes_eq (c : Config) :
    syncBytes c =
      ([0x73, 0x79, 0x6E, 0x63, 0x0A, 0xC0, 0xC0] : List Byte) ++ (syncBody c).flatMap escape ++
        escape ((crc16 (syncBody c)).setWidth 8) ++ escape ((crc16 (syncBody c) >>> 8).setWidth 8) ++ [0xC0] := by
  simp [syncBytes, syncMarker, wireFrame, escapeAll, bytes16, slipEnd, lo8_eq_setWidth, hi8_eq_setWidth]

/-- A discard leaves the frame buffer (R163). -/
theorem discard_buf {s t : State} {n : Nat} (h : discard s = .ends n t) : t.buf = s.buf := by
  obtain ⟨m, u, hu, e⟩ := Proc.andThen_eq_ends.mp h
  cases e
  suffices hloop : u.buf = s.buf from hloop
  refine discardLoop_keeps (fun v => v.buf = s.buf) (fun v hv => ?_) (fun v w hv hg => ?_) _ _ _ _ _ rfl hu
  · obtain ⟨p, k, e⟩ := v.rxPoll_environment
    rw [e]
    exact hv
  · obtain ⟨p, k, rfl⟩ := State.rxGap_environment hg
    exact hv

/-- Without a budget the wait fails at once: the request's checksum stays in CRC and nothing is stored (R159, R186). -/
theorem syncProc_of_noBudget {s t : State} {ok : Bool} (h0 : s.cfg.syncRxTimeout = 0) (h : syncProc s = .ends ok t) :
    ok = false ∧ t.crc = crc16 (syncBody s.cfg) ∧ t.buf = s.buf := by
  obtain ⟨n1, t1, n2, t2, t3, h1, h2, h3, rfl⟩ := syncProc_ends h
  rw [State.sendMarker_eq] at h1
  have hcfg : t2.cfg = s.cfg := (discard_same h2).cfg.trans (discard_same h1).cfg
  have hfirst := discard_buf h1
  have hsecond := discard_buf h2
  have htimeout : (t2.sendSyncRequest).cfg.syncRxTimeout = 0 := by
    rw [State.sendSyncRequest_eq_wireFrame]
    exact hcfg ▸ h0
  have hzero : receive surface (0 : Half).toNat t2.sendSyncRequest = .ends .nopacket t2.sendSyncRequest :=
    receive_zero _ _
  rw [syncWait_succ, htimeout, hzero, Proc.andThen_ends] at h3
  cases h3
  rw [State.sendSyncRequest_eq_wireFrame, ← hcfg]
  exact ⟨rfl, rfl, hsecond.trans hfirst⟩

/-- Settles O51. -/
theorem syncWithoutPeerFails : Obligations.SyncWithoutPeerFails := by
  refine ⟨?silent, ?gaps, ?noBudget⟩
  case silent =>
    intro s hidle hsilent
    have hsync := exec_sync_of_silent hidle hsilent
    rw [syncBytes_eq, syncBody_eq] at hsync
    simpa only [List.append_assoc, crc16, crcFold] using hsync
  case gaps =>
    intro s early late rounds rest hidle hwithin h
    obtain ⟨buf, m, hsync⟩ := exec_sync_rounds hidle hwithin
      (rest := List.replicate s.cfg.syncRxTimeout.toNat none ++ rest) (by simpa using h)
    rw [syncWait_gaps m rfl, Proc.andThen_ends, Proc.finally_ends] at hsync
    refine ⟨_, hsync, ?_⟩
    rw [hidle]
    rfl
  case noBudget =>
    intro s t hidle h0 h
    rw [exec_sync_of_idle hidle] at h
    obtain ⟨ok, u, hproc, rfl⟩ := Proc.finally_eq_next.mp h
    have hsent : u.txLog = s.txLog ++ syncBytes s.cfg := syncProc_txLog (s := s.invalidateView) hproc
    have hlast := syncProc_syncLast hproc
    obtain ⟨rfl, hcrc, hbuf⟩ := syncProc_of_noBudget (s := s.invalidateView) h0 hproc
    exact ⟨rfl, rfl, hlast, hcrc, hbuf, hsent⟩

end Sys2Proof.Machine
end

section
/-! SYNC packets met by a receive operation begun Idle, and statements O56 and O57. -/

namespace Sys2Proof.Machine

/-! A SYNC packet runs the procedure (R180) -/

/-- An operation that runs a SYNC procedure from u and reports it as an intercepted one does what SYNC does from u, but
for RESULT (R160, R161, R182). -/
theorem reports_of_intercepted {i : Instr} {s u : State} (hidle : u.syncing = false) (hview : u.NoView)
    (h : exec i s = (syncProc u).finally finishIntercepted) :
    (∀ t, exec .sync u = .next t →
      exec i s = .next { t with result := 0 } ∧
        (t.syncLast = 1 ∧ t.evt = 0x07 ∨ t.syncLast = 2 ∧ t.evt = 0x08) ∧ t.pktValid = false) ∧
    (∀ r, exec .sync u = .fault r → exec i s = .fault r) := by
  rw [exec_sync_of_idle hidle, hview.invalidateView, h]
  constructor
  · intro t ht
    obtain ⟨ok, v, hproc, rfl⟩ := Proc.finally_eq_next.mp ht
    have hlast := syncProc_syncLast hproc
    have hnone := (syncProc_noView hproc).pktValid
    rw [hproc, Proc.finally_ends]
    cases ok with
    | true => exact ⟨rfl, .inl ⟨hlast, rfl⟩, hnone⟩
    | false => exact ⟨rfl, .inr ⟨hlast, rfl⟩, hnone⟩
  · intro r hr
    rw [Proc.finally_eq_fault.mp hr, Proc.finally_stops]

theorem intercept_of_syncCmd {s : State} (hcmd : s.packetCmd = s.cfg.syncCmd) (hidle : s.syncing = false) :
    intercept s = (syncProc s.invalidateView).andThen fun ok t => .ends (.synced ok) t :=
  if_pos ⟨hcmd, hidle⟩

/-- The wire form of a body, taken from an empty assembler, ends `TryReceive` as the hook has it. -/
theorem tryReceive_wireFrame_hook {hook : State → Proc ByteResult} (hh : HookReports hook) {s : State}
    {body : List Byte} {rest : List (Option Byte)} (hi : s.idx = 0) (ho : s.ovf = false) (hfits : bodyFits s.cfg body)
    (h : s.rx.answers = handOver (wireFrame body) ++ rest) :
    tryReceive hook s = (hook (s.received body rest)).andThen fun r t => match r.endsLoop with
      | none => tryReceive hook t
      | some q => .ends q t := by
  obtain ⟨hmin, hcap⟩ := hfits
  have hopened : s.rx.answers = handOver (slipEnd :: escapeAll (framed body)) ++ some slipEnd :: rest := by
    simp [h, wireFrame_eq, handOver]
  have hend : rxByte hook slipEnd
      ((s.filled body (some slipEnd :: rest) (1 + (escapeAll (framed body)).length)).polled rest 1) =
        hook (s.received body rest) := by
    rw [State.filled_polled, rxByte_end_of_filled hcap hook hmin, State.received, wireFrame_eq, List.length_cons,
      List.length_append, List.length_singleton, Nat.add_comm 1, Nat.add_right_comm]
  rw [tryReceive_opened hh hi ho hopened, tryReceive_some hh (congrArg Peer.answers State.filled_rx), hend]
  rcases hook (s.received body rest) with ⟨r, t⟩ | r
  · cases r <;> rfl
  · rfl

/-- TRY_RECV on a SYNC packet. -/
theorem exec_tryRecv_syncPacket {s : State} {body : List Byte} {rest : List (Option Byte)} (hi : s.idx = 0)
    (ho : s.ovf = false) (hidle : s.syncing = false) (hfits : bodyFits s.cfg body)
    (hcmd : bodyCmd body = s.cfg.syncCmd) (h : s.rx.answers = handOver (wireFrame body) ++ rest) :
    exec .tryRecv s =
      (syncProc (s.invalidateView.received body rest).invalidateView).finally finishIntercepted := by
  have hframe := State.received_eq (s := s.invalidateView) (rest := rest) hfits.2
  have hpacket : (s.invalidateView.received body rest).packetCmd = bodyCmd body :=
    State.received_packetCmd (s := s.invalidateView) hfits.2 (by have := hfits.1; omega)
  have hintercept := intercept_of_syncCmd (s := s.invalidateView.received body rest)
    (by rw [hpacket, hcmd, hframe]; rfl) (by rw [hframe]; exact hidle)
  rw [exec, execTryRecv, tryReceive_wireFrame_hook (s := s.invalidateView) intercept_reports hi ho hfits h, hintercept]
  cases syncProc (s.invalidateView.received body rest).invalidateView <;> rfl

/-- RX_STEP at the END of a stored SYNC packet. -/
theorem exec_rxStep_syncPacket {s : State} {rest : List (Option Byte)} (h : s.rx.answers = some slipEnd :: rest)
    (ho : s.ovf = false) (hidle : s.syncing = false) (hmin : 8 ≤ s.idx.toNat) (hcap : s.idx.toNat ≤ s.cfg.cap)
    (hcrc : s.frameCrc s.idx = s.carriedCrc s.idx) (hcmd : s.packetCmd = s.cfg.syncCmd) :
    exec .rxStep s = (syncProc (s.tookByte rest).accepted.invalidateView).finally finishIntercepted := by
  rw [exec_rxStep_listed h, rxByte_end_of_valid intercept (s := s.tookByte rest) ho hmin hcap hcrc,
    intercept_of_syncCmd (s := (s.tookByte rest).accepted) hcmd hidle]
  cases syncProc (s.tookByte rest).accepted.invalidateView <;> rfl

/-- The state in which TRY_RECV takes a SYNC packet (R180). -/
theorem State.received_syncPacket {s : State} {body : List Byte} {rest : List (Option Byte)} (hi : s.idx = 0)
    (ho : s.ovf = false) (hcap : body.length + 2 ≤ s.cfg.cap) :
    (s.invalidateView.received body rest).invalidateView =
      { s with rx := ⟨rest, s.rx.tail⟩, rxTaken := s.rxTaken + (wireFrame body).length,
               buf := (s.invalidateView.received body rest).buf, esc := false, crc := crc16 body, pktValid := false,
               flen := 0 } := by
  have hframe := State.received_eq (s := s.invalidateView) (rest := rest) hcap
  generalize s.invalidateView.received body rest = u at *
  rw [hframe, hi, ho]
  rfl

/-- Settles O56. -/
theorem syncPacketRunsProcedure : Obligations.SyncPacketRunsProcedure := by
  refine ⟨?tryRecv, ?rxStep, ?silent⟩
  case tryRecv =>
    intro s body rest hi ho hidle hfits hcmd h
    have htaken := State.received_syncPacket (rest := rest) hi ho hfits.2
    exact ⟨_, htaken, State.received_span (s := s.invalidateView) hfits.2,
      reports_of_intercepted (by rw [htaken]; exact hidle) ⟨rfl, rfl⟩
        (exec_tryRecv_syncPacket hi ho hidle hfits hcmd h)⟩
  case rxStep =>
    intro s rest h ho hidle hmin hcap hcrc hcmd
    rw [ho]
    exact reports_of_intercepted hidle ⟨rfl, rfl⟩ (exec_rxStep_syncPacket h ho hidle hmin hcap hcrc hcmd)
  case silent =>
    intro s body hi ho hidle hfits hcmd h
    have hrun := exec_tryRecv_syncPacket (rest := []) hi ho hidle hfits hcmd (by simp [h])
    have htaken := State.received_syncPacket (rest := []) hi ho hfits.2
    have hsilent := exec_sync_of_silent (s := (s.invalidateView.received body []).invalidateView)
      (by rw [htaken]; exact hidle) (by rw [htaken, h])
    obtain ⟨hreports, -⟩ := reports_of_intercepted (by rw [htaken]; exact hidle) ⟨rfl, rfl⟩ hrun
    obtain ⟨hnext, -, -⟩ := hreports _ hsilent
    refine ⟨_, hnext, ?_⟩
    rw [htaken, h, hi, ho]

/-! A SYNC packet is not surfaced (R184) -/

/-- A wire byte met while Idle reports no SYNC packet as a packet. -/
theorem rxByte_packetCmd {b : Byte} {s t : State} (hidle : s.syncing = false)
    (h : rxByte intercept b s = .ends .packet t) : t.packetCmd ≠ t.cfg.syncCmd := by
  obtain ⟨r, u, hr, -, hs, -⟩ | ⟨u, hu, hs, -⟩ | ⟨-, hs⟩ := rxByte_outcome intercept b s <;> rw [hs] at h
  · cases h
    cases hr
  · obtain ⟨-, -, ok, -, hr⟩ | ⟨hcmd, -, rfl⟩ := intercept_ends h
    · cases hr
    · exact hcmd.resolve_right (by simp [hu.syncing, hidle])
  · cases h

theorem drain_packetCmd : ∀ {n : Nat} {s t : State}, s.syncing = false → drain intercept n s = .ends .packet t →
    t.packetCmd ≠ t.cfg.syncCmd := by
  intro n
  induction n with
  | zero =>
    intro s t _ h
    simp only [drain] at h
    split at h <;> cases h
  | succ n ih =>
    intro s t hidle h
    have hpolled := (SameOutside.rxPoll s).syncing.trans hidle
    rcases hp : s.rxPoll with ⟨_ | b, u⟩ <;> rw [hp] at hpolled
    · rw [drain_succ_none hp] at h
      cases h
    · rw [drain_succ_some hp] at h
      obtain ⟨q, v, hb, h⟩ := Proc.andThen_eq_ends.mp h
      cases q with
      | packet => cases h; exact rxByte_packetCmd hpolled hb
      | synced ok => cases h
      | byte | empty | dropped =>
        obtain hsame | ⟨⟨ok, hr⟩, -⟩ := rxByte_syncRuns hb
        · exact ih (hsame.syncing.trans hpolled) h
        · cases hr

/-- SYNCING is the same after a `TryReceive` as before, also where a procedure ran in it. -/
theorem tryReceive_syncing {s t : State} {r : RecvResult} (h : tryReceive intercept s = .ends r t) :
    t.syncing = s.syncing := by
  obtain hsame | ⟨-, hruns⟩ := drain_syncRuns h
  · exact hsame.syncing
  · exact hruns.syncing

theorem receive_packetCmd : ∀ {n : Nat} {s t : State}, s.syncing = false →
    receive intercept n s = .ends .packet t → t.packetCmd ≠ t.cfg.syncCmd := by
  intro n
  induction n with
  | zero =>
    intro s t _ h
    rw [receive_zero] at h
    cases h
  | succ n ih =>
    intro s t hidle h
    rw [receive_succ_eq] at h
    obtain ⟨q, u, hu, h⟩ := Proc.andThen_eq_ends.mp h
    cases q with
    | packet => cases h; exact drain_packetCmd hidle hu
    | nopacket | synced _ => exact ih ((tryReceive_syncing hu).trans hidle) h

/-- A receive operation begun Idle that reports PKT has surfaced no SYNC packet. -/
theorem exec_packetCmd {i : Instr} {s t : State} (hi : receiveFamily i = true) (hidle : s.syncing = false)
    (h : exec i s = .next t) (hevt : t.evt = 0x01) : t.packetCmd ≠ t.cfg.syncCmd := by
  cases i with
  | rxStep =>
    have hpolled : s.invalidateView.rxPoll.2.syncing = false :=
      (SameOutside.rxPoll s.invalidateView).syncing.trans hidle
    simp only [exec, execRxStep] at h
    split at h <;> rename_i hp <;> rw [hp] at hpolled
    · cases h
      exact absurd hevt (by simp [Event.code])
    · obtain ⟨r, u, hu, rfl⟩ := Proc.finally_eq_next.mp h
      obtain ⟨e, w, hreport, he, -⟩ := finishStep_eq r u
      rw [hreport] at hevt ⊢
      obtain rfl := he.mp hevt
      exact rxByte_packetCmd (t := u) hpolled hu
  | tryRecv =>
    obtain ⟨r, u, hu, rfl⟩ := Proc.finally_eq_next.mp h
    obtain ⟨e, w, hreport, he, -⟩ := finishTry_eq r u
    rw [hreport] at hevt ⊢
    obtain rfl := he.mp hevt
    exact drain_packetCmd (s := s.invalidateView) (t := u) hidle hu
  | recv n =>
    obtain ⟨r, u, hu, rfl⟩ := Proc.finally_eq_next.mp h
    obtain ⟨e, w, hreport, he⟩ := finishRecv_eq r u
    rw [hreport] at hevt ⊢
    obtain rfl := he.mp hevt
    exact receive_packetCmd (s := s.invalidateView) (t := u) hidle hu
  | rxFlush =>
    obtain ⟨n, u, -, rfl⟩ := Proc.finally_eq_next.mp h
    exact absurd hevt (by simp [Event.code])
  | sync =>
    rw [exec_sync_of_idle hidle] at h
    obtain ⟨ok, u, -, rfl⟩ := Proc.finally_eq_next.mp h
    obtain ⟨e, w, hreport, he⟩ := finishSync_eq ok u
    rw [hreport] at hevt
    exact absurd hevt he
  | nop | crcClr | crcAdd _ | enc _ | txEnd | txBegin | txByte _ | txPad _ | txFinal | rdreg _ | rdbuf _ => cases hi

/-- Settles O57: a receive operation leaves a view only where it reports a packet. -/
theorem syncPacketNeverSurfaces : Obligations.SyncPacketNeverSurfaces := by
  intro i s t hi hidle h hshown
  have hview := exec_viewExactly hi (fun _ => hidle) h
  rw [← (exec_setting h).cfg]
  exact exec_packetCmd hi hidle h (hview.pktValid.mp hshown)

end Sys2Proof.Machine
end

section
/-! NOP, RDREG and RDBUF: their words and their reads, and statements O13, O22 and O24. -/

namespace Sys2Proof.Machine

/-! NOP (R204) -/

/-- NOP writes EVT and RESULT. -/
theorem exec_nop (s : State) : exec .nop s = .next (s.finish .ok 0) := rfl

/-- Settles O13: the opcode of NOP is 0, so its row's words are the operands themselves. -/
theorem nopResult : Obligations.NopResult := by
  refine ⟨exec_nop, rfl, fun n hn => ?_⟩
  rw [← BitVec.zero_add (n.setWidth 32)]
  exact illegalWord_rowZ (opc := 0x00) rfl (by decide) hn

/-! RDREG (R201) -/

/-- RDREG has no register above 11 (R81). -/
theorem illegalWord_rowRegister {n : Half} (hn : 11 < n.toNat) : illegalWord (0x0E000000 + n.setWidth 32) := by
  have hword : (0x0E000000 + n.setWidth 32 : Word).toNat = 0x0E * 2 ^ 24 + n.toNat := rowWord_toNat (opc := 0x0E) rfl n
  rw [illegalWord_iff, hword]
  exact .inr (.inr (.inr (.inr ⟨by omega, by omega⟩)))

/-- RDREG of a number in the table reads that register. -/
theorem exec_rdreg {n : Half} {r : Reg} (hr : Reg.ofNumber n.toNat = some r) (s : State) :
    exec (.rdreg n) s = readReg r s := by
  simp only [exec, execRdreg, hr]

theorem readField_unshown {s : State} (hv : s.pktValid = false) (n : Nat) (v : Word) :
    readField n v s = .next (s.finish .range 0) := by
  simp [readField, hv]

/-- A 16-bit field of the view as a number, zero-extended (R13). -/
theorem setWidth_u16le (b0 b1 : Byte) : (u16le b0 b1).setWidth 32 = BitVec.ofNat 32 (b0.toNat + b1.toNat * 2 ^ 8) := by
  rw [← u16le_toNat, BitVec.ofNat_toNat]

/-- The value field of the view as a number: each byte stands above those before it (R13). -/
theorem u32le_eq_ofNat (b0 b1 b2 b3 : Byte) :
    u32le b0 b1 b2 b3 =
      BitVec.ofNat 32 (b0.toNat + b1.toNat * 2 ^ 8 + b2.toNat * 2 ^ 16 + b3.toNat * 2 ^ 24) := by
  have sum0 : (b0.setWidth 32).toNat = b0.toNat := BitVec.toNat_setWidth_of_le (by decide)
  have sum1 := toNat_or_shiftLeft b1 (k := 8) (by rw [sum0]; exact b0.isLt) (by decide)
  have sum2 := toNat_or_shiftLeft b2 (k := 16) (by rw [sum1]; omega) (by decide)
  have sum3 := toNat_or_shiftLeft b3 (k := 24) (by rw [sum2]; omega) (by decide)
  have htotal : (u32le b0 b1 b2 b3).toNat =
      b0.toNat + b1.toNat * 2 ^ 8 + b2.toNat * 2 ^ 16 + b3.toNat * 2 ^ 24 := by
    rw [u32le, sum3, sum2, sum1, sum0]
  rw [← htotal, BitVec.ofNat_toNat, BitVec.setWidth_eq]

/-- The packet fields without a view. -/
theorem exec_rdreg_unshown {s : State} (hv : s.pktValid = false) :
    exec (.rdreg 4) s = .next (s.finish .range 0) ∧ exec (.rdreg 5) s = .next (s.finish .range 0) ∧
    exec (.rdreg 6) s = .next (s.finish .range 0) :=
  ⟨readField_unshown hv 2 _, readField_unshown hv 4 _, readField_unshown hv 8 _⟩

/-- The packet fields of a view: a legal FRAME_CAP holds all three (R5). -/
theorem exec_rdreg_shown {s : State} (hv : s.pktValid = true) (hcfg : 8 ≤ s.cfg.cap) :
    exec (.rdreg 4) s = .next (s.finish .ok (s.packetCmd.setWidth 32)) ∧
    exec (.rdreg 5) s = .next (s.finish .ok (s.packetArgc.setWidth 32)) ∧
    exec (.rdreg 6) s = .next (s.finish .ok s.packetValue) :=
  ⟨readField_shown hv (by omega) _, readField_shown hv (by omega) _, readField_shown hv hcfg _⟩

/-- Settles O22, register by register of the table. -/
theorem rdregResults : Obligations.RdregResults := by
  intro s ok range
  refine ⟨exec_rdreg_status s, exec_rdreg (r := .crc) rfl s, exec_rdreg (r := .idx) rfl s,
    exec_rdreg (r := .flen) rfl s, exec_rdreg_unshown, fun hv hcfg => ?_, exec_rdreg (r := .cfgCap) rfl s,
    exec_rdreg (r := .cfgSyncCmd) rfl s, exec_rdreg (r := .cfgVersionCmd) rfl s,
    exec_rdreg (r := .cfgSyncTimeout) rfl s, exec_rdreg (r := .cfgSyncValue) rfl s,
    fun n _ => encode_rowH (opc := 0x0E) rfl rfl rfl, fun n => illegalWord_rowRegister⟩
  obtain ⟨hcmd, hargc, hvalue⟩ := exec_rdreg_shown hv hcfg
  rw [State.packetCmd, setWidth_u16le] at hcmd
  rw [State.packetArgc, setWidth_u16le] at hargc
  rw [State.packetValue, u32le_eq_ofNat] at hvalue
  exact ⟨hcmd, hargc, hvalue⟩

/-! RDBUF (R202) -/

/-- A byte of the view, which the buffer holds (R37). -/
theorem exec_rdbuf_shown {s : State} {n : Half} (hv : s.pktValid = true) (hn : n.toNat < s.flen.toNat)
    (hcap : s.flen.toNat ≤ s.cfg.cap) :
    exec (.rdbuf n) s = .next (s.finish .ok ((s.byteAt n.toNat).setWidth 32)) := by
  have hheld : s.holds (n.toNat + 1) = true := decide_eq_true (by omega)
  rw [exec, execRdbuf, if_pos ⟨hv, hn⟩, finishRead, if_pos hheld]

/-- Without a view, or past its end, there is no byte to read. -/
theorem exec_rdbuf_range {s : State} {n : Half} (h : s.pktValid = false ∨ s.flen.toNat ≤ n.toNat) :
    exec (.rdbuf n) s = .next (s.finish .range 0) := by
  have houtside : ¬ (s.pktValid = true ∧ n.toNat < s.flen.toNat) := by
    rintro ⟨hv, hn⟩
    obtain hno | hpast := h
    · exact absurd (hno.symm.trans hv) Bool.false_ne_true
    · omega
  rw [exec, execRdbuf, if_neg houtside]

/-- Settles O24: every n is legal as its class H bounds it by its width alone. -/
theorem rdbufResult : Obligations.RdbufResult := by
  intro s n
  have hword : encode (.rdbuf n) = 0x0F000000 + n.setWidth 32 := encode_rowH (opc := 0x0F) rfl rfl rfl
  exact ⟨exec_rdbuf_shown, exec_rdbuf_range, hword, hword ▸ decode_encode rfl⟩

end Sys2Proof.Machine
end

section
/-! What every operation can come to between operations: a next state, or the wait for an endless peer; and statement
O4. -/

namespace Sys2Proof.Machine

/-! The procedures that poll never miss a buffer byte -/

/-- The fill level names a place in the buffer or its end (R37). -/
def State.WithinBuffer (s : State) : Prop := s.idx.toNat ≤ s.cfg.cap

/-- The procedure ends with the fill level within the buffer, or an endless peer keeps it busy (R256). -/
inductive Proc.Safe {α : Type} : Proc α → Prop
  | ends (a : α) {t : State} (ht : t.WithinBuffer) : Proc.Safe (.ends a t)
  | stuck : Proc.Safe (.stops .peerNotDone)

/-- From every state with the fill level within the buffer the procedure is safe. -/
def StaysSafe {α : Type} (p : State → Proc α) : Prop := ∀ s, s.WithinBuffer → (p s).Safe

theorem Proc.Safe.andThen {α β : Type} {p : Proc α} {k : α → State → Proc β} (hp : p.Safe)
    (hk : ∀ a, StaysSafe (k a)) : (p.andThen k).Safe := by
  cases hp with
  | ends a ht => exact hk a _ ht
  | stuck => exact .stuck

theorem staysSafe_ends {α : Type} (a : α) : StaysSafe fun s => .ends a s := fun _ h => .ends a h

theorem StaysSafe.andThen {α β : Type} {p : State → Proc α} {k : α → State → Proc β} (hp : StaysSafe p)
    (hk : ∀ a, StaysSafe (k a)) : StaysSafe fun s => (p s).andThen k :=
  fun s h => (hp s h).andThen hk

theorem State.WithinBuffer.rxGap {s t : State} {n : Nat} (h : s.WithinBuffer) (hg : s.rxGap n = some t) :
    t.WithinBuffer := by
  obtain ⟨p, k, rfl⟩ := State.rxGap_environment hg
  exact h

theorem State.WithinBuffer.rxPoll {s : State} (h : s.WithinBuffer) : s.rxPoll.2.WithinBuffer := by
  obtain ⟨p, n, e⟩ := s.rxPoll_environment
  rw [e]
  exact h

theorem poll_staysSafe : StaysSafe poll := fun _ h => .ends _ h.rxPoll

/-- The frame end that would read past FRAME_CAP does not come about within the buffer (R55; log 9). -/
theorem rxByte_staysSafe {hook : State → Proc ByteResult} (hh : StaysSafe hook) (b : Byte) :
    StaysSafe (rxByte hook b) := by
  intro s h
  obtain ⟨r, t, -, ht, hs, -⟩ | ⟨u, hu, hs, -⟩ | ⟨hpast, -⟩ := rxByte_outcome hook b s
  · exact hs ▸ .ends r (ht.idxBound h)
  · exact hs ▸ hh u (hu.idxBound h)
  · exact absurd h (Nat.not_le_of_lt hpast)

theorem drain_staysSafe {hook : State → Proc ByteResult} (hh : StaysSafe hook) (n : Nat) :
    StaysSafe (drain hook n) := by
  induction n with
  | zero =>
    intro s h
    simp only [drain]
    split
    · exact .stuck
    · exact .ends _ (h.rxGap ‹_›)
  | succ n ih =>
    rw [drain_succ_eq]
    refine poll_staysSafe.andThen fun a => ?_
    cases a with
    | none => exact staysSafe_ends _
    | some b =>
      refine (rxByte_staysSafe hh b).andThen fun r => ?_
      cases r.endsLoop with
      | none => exact ih
      | some q => exact staysSafe_ends q

theorem tryReceive_staysSafe {hook : State → Proc ByteResult} (hh : StaysSafe hook) : StaysSafe (tryReceive hook) :=
  fun s => drain_staysSafe hh s.pollBudget s

theorem receive_staysSafe {hook : State → Proc ByteResult} (hh : StaysSafe hook) (n : Nat) :
    StaysSafe (receive hook n) := by
  induction n with
  | zero =>
    rw [show receive hook 0 = fun s => .ends .nopacket s from funext (receive_zero hook)]
    exact staysSafe_ends _
  | succ n ih =>
    rw [receive_succ_eq]
    refine (tryReceive_staysSafe hh).andThen fun r => ?_
    cases r with
    | packet => exact staysSafe_ends _
    | nopacket | synced _ => exact ih

theorem discardLoop_staysSafe (k : Nat) : ∀ n, StaysSafe (discardLoop k n) := by
  induction k with
  | zero =>
    intro n s h
    simp only [discardLoop]
    split
    · exact .stuck
    · exact .ends n (h.rxGap ‹_›)
  | succ k ih =>
    intro n s h
    have hpoll := h.rxPoll
    rcases hp : s.rxPoll with ⟨_ | b, t⟩ <;> rw [hp] at hpoll
    · rw [discardLoop_succ_none hp]
      exact .ends n hpoll
    · rw [discardLoop_succ_some hp]
      exact ih (n + 1) t hpoll

theorem discard_staysSafe : StaysSafe discard :=
  fun s h => (discardLoop_staysSafe s.pollBudget 0 s h).andThen fun n _ _ => .ends n (Nat.zero_le _)

theorem syncWait_staysSafe (k : Nat) : StaysSafe (syncWait k) := by
  induction k with
  | zero =>
    intro s h
    simp only [syncWait]
    split
    · exact .stuck
    · exact .ends false (h.rxGap ‹_›)
  | succ k ih =>
    intro s h
    rw [syncWait_succ]
    refine (receive_staysSafe (staysSafe_ends ByteResult.packet) _ s h).andThen fun r t ht => ?_
    cases r with
    | packet =>
      dsimp only
      split
      · exact .ends true ht
      · exact ih t.invalidateView ht
    | nopacket | synced _ => exact .ends false ht

theorem State.WithinBuffer.sendMarker {s : State} (h : s.WithinBuffer) : s.beginSync.sendMarker.WithinBuffer := by
  rw [State.sendMarker_eq]
  exact h

theorem State.WithinBuffer.sendSyncRequest {s : State} (h : s.WithinBuffer) : s.sendSyncRequest.WithinBuffer := by
  rw [State.sendSyncRequest_eq]
  exact h

theorem syncProc_staysSafe : StaysSafe syncProc := fun _ h =>
  (discard_staysSafe _ h.sendMarker).andThen fun _ t ht =>
  (discard_staysSafe (t.txWrite [slipEnd]) ht).andThen fun _ u hu =>
  (syncWait_staysSafe (u.pollBudget + 1) _ hu.sendSyncRequest).andThen fun ok _ hw => .ends ok hw

theorem intercept_staysSafe : StaysSafe intercept := by
  intro s h
  unfold intercept
  split
  · exact (syncProc_staysSafe s.invalidateView h).andThen fun ok => staysSafe_ends _
  · exact .ends ByteResult.packet h

/-! Every operation -/

/-- An operation over a safe procedure does not miss a buffer byte. -/
theorem Proc.Safe.finally {α : Type} {p : Proc α} (hp : p.Safe) (k : α → State → State) :
    safeOutcome (p.finally k) := by
  cases hp <;> exact trivial

/-- An operation over a procedure that completes answers a next state. -/
theorem Completes.finally {α : Type} {p : State → Proc α} (hp : Completes p) {s : State} (hs : s.CanEnd)
    (k : α → State → State) : ∃ t, (p s).finally k = .next t := by
  obtain ⟨a, t, h, -⟩ := hp s hs
  exact ⟨k a t, by rw [h, Proc.finally_ends]⟩

/-- o is an outcome the block may have from s: a safe one, and a next state where the peer is not endless (R220). -/
def AnswersFrom (s : State) (o : Host.Outcome State Fault Refusal) : Prop :=
  safeOutcome o ∧ (s.peerLetsLoopsEnd → ∃ t, o = .next t)

theorem AnswersFrom.next (s t : State) : AnswersFrom s (.next t) := ⟨trivial, fun _ => ⟨t, rfl⟩⟩

/-- A receive operation is a procedure that is safe and completes, on the state without its view (R150). -/
theorem AnswersFrom.finally {α : Type} {p : State → Proc α} (hsafe : StaysSafe p) (hcompletes : Completes p)
    {s : State} (hs : s.WithinBuffer) (k : α → State → State) : AnswersFrom s ((p s.invalidateView).finally k) :=
  ⟨(hsafe s.invalidateView hs).finally k, fun hpeer => hcompletes.finally (s := s.invalidateView) ⟨hpeer, hs⟩ k⟩

/-- RX_STEP takes one answer of any peer, so only a procedure it intercepts can wait (R160, R180). -/
theorem execRxStep_answers {s : State} (hs : s.WithinBuffer) : AnswersFrom s (execRxStep s) := by
  rw [execRxStep_eq]
  refine AnswersFrom.finally (p := fun s => (poll s).andThen _) ?safe ?completes hs _
  case safe =>
    refine poll_staysSafe.andThen fun a => ?_
    cases a with
    | none => exact staysSafe_ends _
    | some b => exact (rxByte_staysSafe intercept_staysSafe b).andThen fun r => staysSafe_ends _
  case completes =>
    refine poll_completes.andThen fun a => ?_
    cases a with
    | none => exact completes_ends _
    | some b => exact (rxByte_completes intercept_completes b).andThen fun r => completes_ends _

/-- A field of the packet view exists wherever FRAME_CAP holds it (R201; log 9). -/
theorem readField_answers {n : Nat} {s : State} (hn : n ≤ s.cfg.cap) (v : Word) :
    AnswersFrom s (readField n v s) := by
  cases hv : s.pktValid with
  | false => exact readField_unshown hv n v ▸ .next s _
  | true => exact readField_shown hv hn v ▸ .next s _

theorem readReg_answers {s : State} (hcfg : s.cfg.legal) (r : Reg) : AnswersFrom s (readReg r s) := by
  have hcap : 8 ≤ s.cfg.cap := hcfg
  cases r with
  | pktCmd | pktArgc | pktValue => exact readField_answers (by omega) _
  | status | crc | idx | flen | cfgCap | cfgSyncCmd | cfgVersionCmd | cfgSyncTimeout | cfgSyncValue => exact .next s _

theorem execRdreg_answers {s : State} (hcfg : s.cfg.legal) (n : Half) : AnswersFrom s (execRdreg n s) := by
  unfold execRdreg
  split
  · exact readReg_answers hcfg _
  · exact .next s _

/-- Every byte of the view is a byte of the buffer (R37, R202). -/
theorem exec_rdbuf_answers {s : State} (hs : s.Inv) (n : Half) : AnswersFrom s (exec (.rdbuf n) s) := by
  by_cases hview : s.pktValid = true ∧ n.toNat < s.flen.toNat
  · obtain ⟨hv, hn⟩ := hview
    obtain ⟨-, hcap, -⟩ := hs.view hv
    exact exec_rdbuf_shown hv hn hcap ▸ .next s _
  · have hrange : s.pktValid = false ∨ s.flen.toNat ≤ n.toNat := by
      simpa [or_iff_not_imp_left] using hview
    exact exec_rdbuf_range hrange ▸ .next s _

/-- Every operation begun in a state between operations answers as R220 has it. -/
theorem exec_answers {s : State} (hs : s.Inv) (i : Instr) : AnswersFrom s (exec i s) := by
  cases i with
  | nop | crcClr | crcAdd _ | enc _ | txEnd | txBegin | txByte _ | txPad _ | txFinal => exact .next s _
  | rxStep => exact execRxStep_answers hs.idxBound
  | tryRecv =>
    exact .finally (tryReceive_staysSafe intercept_staysSafe)
      (fun t ht => drain_completes intercept_completes t.pollBudget t ht) hs.idxBound _
  | recv n =>
    exact .finally (receive_staysSafe intercept_staysSafe n.toNat) (receive_completes intercept_completes n.toNat)
      hs.idxBound _
  | rxFlush => exact .finally discard_staysSafe discard_completes hs.idxBound _
  | sync =>
    rw [exec_sync_of_idle hs.idle]
    exact .finally syncProc_staysSafe syncProc_completes hs.idxBound _
  | rdreg n => exact execRdreg_answers hs.legal n
  | rdbuf n => exact exec_rdbuf_answers hs n

/-! Every step -/

/-- A wait for an endless peer goes on or is ended by reset (I13). -/
theorem endedByReset_safe (s : State) : safeOutcome (endedByReset .peerNotDone s) := by
  unfold endedByReset
  dsimp only
  split <;> exact trivial

theorem runWord_answers {s : State} (hs : s.Inv) (w : Word) : AnswersFrom s (runWord w s) := by
  unfold runWord
  split
  · exact .next s _
  rename_i i _
  obtain ⟨hsafe, hnext⟩ := exec_answers hs i
  cases he : exec i s with
  | next t => exact .next s t
  | refused r => rw [he] at hsafe; exact hsafe.elim
  | fault r =>
    rw [he] at hsafe hnext
    cases r with
    | noSuchBufferByte => exact hsafe.elim
    | peerNotDone =>
      refine ⟨endedByReset_safe s, fun hpeer => ?_⟩
      obtain ⟨t, ht⟩ := hnext hpeer
      cases ht

/-- Settles O4, over what the host presents: nothing, the reset input, or a command word. -/
theorem blockNeverStopsByItself : Obligations.BlockNeverStopsByItself := by
  intro s hs
  change AnswersFrom s (step s)
  cases hq : s.hostq with
  | nil => exact step_eq_next.mpr (.inl ⟨hq, rfl⟩) ▸ .next s _
  | cons input q =>
    cases input with
    | rst => exact step_eq_next.mpr (.inr (.inl ⟨q, hq, rfl⟩)) ▸ .next s _
    | command w =>
      have htaken : State.Inv { s with hostq := q } := hs.write hs.evtCode _ _ _ _ _ _ _
      rw [step_of_command hq]
      exact runWord_answers htaken w

end Sys2Proof.Machine
end

section
/-! Reset, waiting, and the reads behind a receive without a packet: statements O1, O11 and O47. -/

namespace Sys2Proof.Machine

/-- With nothing presented the block waits (R251, R232). -/
theorem step_of_idle {s : State} (hq : s.hostq = []) : step s = .next s :=
  step_eq_next.mpr (.inl ⟨hq, rfl⟩)

/-- The reset input is taken, whatever follows it (R250). -/
theorem step_of_rst {s : State} {q : List HostInput} (hq : s.hostq = .rst :: q) :
    step s = .next (State.afterReset s.cfg s.rx q (s.resets + 1)) :=
  step_eq_next.mpr (.inr (.inl ⟨q, hq, rfl⟩))

/-- Settles O1: the reset input and `State.reset` both are `State.afterReset`, which has the values of R38. -/
theorem resetSetsEveryRegister : Obligations.ResetSetsEveryRegister := by
  refine ⟨fun s q hq => ⟨_, step_of_rst hq, ?_⟩, ?_⟩
  · exact ⟨rfl, rfl, rfl, rfl, rfl, rfl, rfl, rfl, rfl, rfl, rfl, rfl, fun _ => rfl, rfl, rfl, rfl⟩
  · exact ⟨rfl, rfl, rfl, rfl, rfl, rfl, rfl, rfl, rfl, rfl, rfl, rfl, fun _ => rfl⟩

/-- Settles O11. -/
theorem idleStepChangesNothing : Obligations.IdleStepChangesNothing := fun _ => step_of_idle

/-- Settles O47: a receive operation that does not report PKT leaves no view, and the reads of the view need one. -/
theorem staleViewIsOutOfRange : Obligations.StaleViewIsOutOfRange := by
  intro i s t hi hidle h hevt
  have hview : t.NoView := (exec_viewExactly hi (fun _ => hidle) h).noView hevt
  obtain ⟨hcmd, hargc, hvalue⟩ := exec_rdreg_unshown hview.pktValid
  refine ⟨fun n => exec_rdbuf_range (.inl hview.pktValid), fun n hlow hhigh => ?_⟩
  obtain rfl | rfl | rfl : n = 4 ∨ n = 5 ∨ n = 6 := by bv_omega
  · exact hcmd
  · exact hargc
  · exact hvalue

end Sys2Proof.Machine
end

section
/-! The loops of R256 under an endless peer, and statements O40 and O55. -/

namespace Sys2Proof.Machine

/-- A receive with a budget stops where its first iteration does (R159). -/
theorem receive_of_stops {hook : State → Proc ByteResult} {n : Nat} {s : State} {r : Fault} (hn : n ≠ 0)
    (h : tryReceive hook s = .stops r) : receive hook n s = .stops r := by
  obtain ⟨n, rfl⟩ := Nat.exists_eq_succ_of_ne_zero hn
  rw [receive_succ, h]

/-- A byte that is no END ends no frame, and polls nothing (R104, R157). -/
theorem rxByte_of_ne_end (hook : State → Proc ByteResult) {b : Byte} (hb : b ≠ slipEnd) (s : State) :
    ∃ t, rxByte hook b s = .ends .byte t ∧ t.rx = s.rx := by
  by_cases hesc : b = slipEsc
  · exact ⟨s.setEsc true, hesc ▸ rxByte_esc hook s, rfl⟩
  · exact ⟨_, rxByte_data hook hb hesc s, State.byteIn_rx _ _⟩

/-- Bytes without an END and then without end: the loop of `TryReceive` never completes (R256). -/
theorem tryReceive_endlessBytes {hook : State → Proc ByteResult} (hh : HookReports hook) {bs : List Byte} {k : Nat}
    (hend : slipEnd ∉ bs) : ∀ {s : State}, s.rx = ⟨handOver bs, .endless k⟩ →
      tryReceive hook s = .stops .peerNotDone := by
  induction bs with
  | nil => exact tryReceive_endless hook
  | cons b bs ih =>
    intro s h
    obtain ⟨hb, hbs⟩ := List.ne_and_not_mem_of_not_mem_cons hend
    obtain ⟨t, hbyte, hrx⟩ := rxByte_of_ne_end hook (hb.symm) (s.polled (handOver bs) 1)
    rw [tryReceive_goesOn hh (congrArg Peer.answers h) hbyte (.inl rfl)]
    exact ih hbs (by rw [hrx, State.polled_rx, h])

/-- Settles O40: RX_FLUSH takes every byte, and TRY_RECV and each RECV every byte that ends no frame. -/
theorem endlessBytesKeepPolling : Obligations.EndlessBytesKeepPolling := by
  intro s bs k h
  refine ⟨?flush, fun hend => ?receive⟩
  case flush => rw [exec, execRxFlush, discard_endless (s := s.invalidateView) h, Proc.finally_stops]
  case receive =>
    have hstuck := tryReceive_endlessBytes intercept_reports hend (s := s.invalidateView) h
    refine ⟨by rw [exec, execTryRecv, hstuck, Proc.finally_stops], fun n hn => ?_⟩
    have hbudget : n.toNat ≠ 0 := by bv_omega
    rw [exec, execRecv, receive_of_stops hbudget hstuck, Proc.finally_stops]

/-- The sync wait with nothing listed of an endless peer never completes (R256). -/
theorem syncWait_endless {s : State} {k : Nat} (hbudget : s.cfg.syncRxTimeout.toNat ≠ 0)
    (h : s.rx = ⟨[], .endless k⟩) (m : Nat) : syncWait (m + 1) s = .stops .peerNotDone := by
  rw [syncWait_succ, receive_of_stops hbudget (tryReceive_endless surface h), Proc.andThen_stops]

/-- Frames one behind another are rounds without gaps. -/
theorem gapsAndFrames_of_frames (bodies : List (List Byte)) :
    gapsAndFrames (bodies.map (Prod.mk 0)) = handOver (bodies.flatMap wireFrame) := by
  simp [gapsAndFrames, handOver, List.flatMap_map, List.map_flatMap]

/-- Settles O55: the frames are rounds of the wait, each discarded, and the wait behind the last does not complete. -/
theorem syncWaitOutlastsOtherPackets : Obligations.SyncWaitOutlastsOtherPackets := by
  intro s bodies k hidle htimeout hbodies h
  have hbudget : s.cfg.syncRxTimeout.toNat ≠ 0 := by bv_omega
  have hwithin : roundsWithin s.cfg (bodies.map (Prod.mk 0)) := by
    refine List.forall_mem_map.mpr fun body hbody => ?_
    obtain ⟨hfits, hother⟩ := hbodies body hbody
    exact ⟨Nat.pos_of_ne_zero hbudget, hfits, hother⟩
  obtain ⟨buf, m, hsync⟩ := exec_sync_rounds (early := []) (late := []) (rest := []) hidle hwithin
    (by rw [h, gapsAndFrames_of_frames, List.append_nil]; rfl)
  have hwait := syncWait_endless (s := s.listened [] [] (bodies.map (Prod.mk 0)) [] buf) (k := k) hbudget
    (by rw [State.listened, State.heard, State.requested, h]) m
  rw [hsync, hwait, Proc.andThen_stops, Proc.finally_stops]

end Sys2Proof.Machine
end

section
/-! The receive operations of a peer that lets their loops end, and statement O41. -/

namespace Sys2Proof.Machine

/-! The events that each operation reports (R160 to R162, R182) -/

theorem finishStep_evt (r : ByteResult) (s : State) :
    (finishStep r s).evt ∈ ([0x01, 0x03, 0x05, 0x06, 0x07, 0x08] : List Byte) := by
  cases r with
  | byte | empty | dropped | packet => simp [finishStep, Event.code]
  | synced ok => cases ok <;> simp [finishStep, finishIntercepted, Event.code]

theorem finishTry_evt (r : RecvResult) (s : State) :
    (finishTry r s).evt ∈ ([0x01, 0x02, 0x07, 0x08] : List Byte) := by
  cases r with
  | packet | nopacket => simp [finishTry, Event.code]
  | synced ok => cases ok <;> simp [finishTry, finishIntercepted, Event.code]

theorem finishRecv_evt (r : RecvResult) (s : State) : (finishRecv r s).evt ∈ ([0x01, 0x02] : List Byte) := by
  cases r <;> simp [finishRecv, Event.code]

theorem finishSync_evt (ok : Bool) (s : State) : (finishSync ok s).evt ∈ ([0x07, 0x08] : List Byte) := by
  cases ok <;> simp [finishSync, Event.code]

/-- RX_STEP reports EMPTY where its poll finds no byte, and what became of the byte else (R160). -/
theorem execRxStep_evt {s t : State} (h : execRxStep s = .next t) :
    t.evt ∈ ([0x01, 0x03, 0x04, 0x05, 0x06, 0x07, 0x08] : List Byte) := by
  unfold execRxStep at h
  split at h
  · cases h
    simp [Event.code]
  · obtain ⟨r, u, -, rfl⟩ := Proc.finally_eq_next.mp h
    have hevt := finishStep_evt r u
    simp only [List.mem_cons] at hevt ⊢
    tauto

/-! The operations -/

/-- An operation over a procedure that completes ends as its report has it. -/
theorem Completes.ends_reported {α : Type} {p : State → Proc α} (hp : Completes p) {s : State} (hs : s.CanEnd)
    {k : α → State → State} {P : State → Prop} (hk : ∀ a t, P (k a t)) :
    ∃ t, (p s.invalidateView).finally k = .next t ∧ P t := by
  obtain ⟨t, ht⟩ := hp.finally (s := s.invalidateView) ⟨hs.peer, hs.idxBound⟩ k
  obtain ⟨a, u, -, rfl⟩ := Proc.finally_eq_next.mp ht
  exact ⟨_, ht, hk a u⟩

/-- Settles O41: each operation is a procedure that completes, followed by its report. -/
theorem receiveCompletesUnlessPeerEndless : Obligations.ReceiveCompletesUnlessPeerEndless := by
  intro s hpeer hidx
  have hs : s.CanEnd := ⟨hpeer, hidx⟩
  refine ⟨?rxStep, ?tryRecv, fun n => ?recv, ?rxFlush, fun hidle => ?sync⟩
  case rxStep =>
    obtain ⟨-, hnext⟩ := execRxStep_answers hidx
    obtain ⟨t, ht⟩ := hnext hpeer
    exact ⟨t, ht, execRxStep_evt ht⟩
  case tryRecv =>
    have htry : Completes (tryReceive intercept) := fun t => drain_completes intercept_completes t.pollBudget t
    exact htry.ends_reported hs finishTry_evt
  case recv => exact (receive_completes intercept_completes n.toNat).ends_reported hs finishRecv_evt
  case rxFlush => exact discard_completes.ends_reported hs fun _ _ => rfl
  case sync =>
    rw [exec_sync_of_idle hidle]
    exact syncProc_completes.ends_reported hs finishSync_evt

end Sys2Proof.Machine
end
